-- ==== Sys2Proof/Word.lean ====
section
/-! DEFINITION. The word types of the block: the 32-bit pixel and serializer word (00_scope R7 `WORD_BITS`,
decision D3; 30_encoding R83, R85) and the byte of memory and of a record. -/

namespace Sys2Proof

/-- A pixel word, a serializer word, a status word: 32 bits (R83, R85, R34). -/
abbrev Word := BitVec 32

/-- A byte of memory, and of an operation record. -/
abbrev Byte := BitVec 8

end Sys2Proof
end

