-- ==== Sys2Proof/Syntax.lean ====
section
/-! DEFINITION. The operation set `LEDSER-OPS v1` (30_encoding R81): one constructor per row of
spec/opcode_table.json, with the row's operands as values (R80). -/

namespace Sys2Proof

/-- Bit order of a context (10_state R23). -/
inductive Order where
  | msb
  | lsb
deriving DecidableEq, Repr

/-- The two engines; also which registry a `register` names (10_state R30). -/
inductive Engine where
  | gpio
  | fifo
deriving DecidableEq, Repr

/-- The operations of R81. A context is named by a number (log 17), a pin by its identifier (R23), `serCfg` is
the opaque serializer configuration (44_fifo_engine R202). -/
inductive Instr where
  /-- 0x01 `gpio.init`, 43_gpio_engine R164. -/
  | gpioInit (ctx clkLine dataLine : Nat) (order : Order)
  /-- 0x02 `gpio.send`, R165. -/
  | gpioSend (ctx buf len : Nat)
  /-- 0x03 `gpio.is_sending`, R171. -/
  | gpioIsSending (ctx : Nat)
  /-- 0x04 `gpio.nmi`, R172. -/
  | gpioNmi
  /-- 0x05 `tmr.expire`, R178. -/
  | tmrExpire
  /-- 0x11 `fifo.init`, 44_fifo_engine R203. -/
  | fifoInit (ctx serCfg : Nat) (order : Order)
  /-- 0x12 `fifo.send`, R204. -/
  | fifoSend (ctx buf len : Nat)
  /-- 0x13 `fifo.is_sending`, R221. -/
  | fifoIsSending (ctx : Nat)
  /-- 0x14 `fifo.fill`, R212. -/
  | fifoFill (ctx : Nat)
  /-- 0x15 `ser.irq`, R222. -/
  | serIrq
  /-- 0x16 `ser.drain`, R230. -/
  | serDrain
  /-- 0x17 `legacy.raise`, R234. -/
  | legacyRaise (bits : Word)
  /-- 0x21 `ticks_for`, 40_tick_converter R110. -/
  | ticksFor (durationNs divisor : Nat)
  /-- 0x22 `pwm_nibble`, 41_pwm_table R130. -/
  | pwmNibble (v : Nat)
  /-- 0x23 `pack_byte`, R133. -/
  | packByte (b : Nat)
  /-- 0x24 `trailer_len`, R206. -/
  | trailerLen (nbytes : Nat)
  /-- 0x25 `register`, 42_registry R145. -/
  | register (registry : Engine) (ctx : Nat)
deriving DecidableEq, Repr

end Sys2Proof
end

