-- ==== Sys2Proof/WellFormed.lean ====
section
/-! DEFINITION. Which instructions have operands of their types (30_encoding R93, R96), as far as the instance
does not matter. What depends on the instance (ADDR_BITS, LEGACY_MASK, CLK_HZ) is checked where the operation
runs (Machine/Operands.lean). The record's operand slots are 64 bits wide (log 3), so a value that the spec
leaves without a width, and a `buf`, whose width ADDR_BITS R7 does not bound, must fit 64 bits to be written in a
record. -/

namespace Sys2Proof

/-- A value that an operand slot of a record can hold (log 3). -/
def fitsSlot (n : Nat) : Bool := decide (n < 2 ^ 64)

/-- A value of a 32-bit operand: `len` (10_state R23), `duration_ns` (40 R110), `nbytes` (opcode_table). -/
def fits32 (n : Nat) : Bool := decide (n < 2 ^ 32)

/-- The operands have their types (R93): a nibble is 0..15, a byte 0..255 (R96), lengths and durations 32 bits.
A context, a pin, `serCfg`, `buf` and `divisor` must fit their slot: DESIGN CHOICE, log 3. -/
def Instr.wf : Instr → Bool
  | .gpioInit c k d _ => fitsSlot c && fitsSlot k && fitsSlot d
  | .gpioSend c b n => fitsSlot c && fitsSlot b && fits32 n
  | .gpioIsSending c => fitsSlot c
  | .gpioNmi => true
  | .tmrExpire => true
  | .fifoInit c g _ => fitsSlot c && fitsSlot g
  | .fifoSend c b n => fitsSlot c && fitsSlot b && fits32 n
  | .fifoIsSending c => fitsSlot c
  | .fifoFill c => fitsSlot c
  | .serIrq => true
  | .serDrain => true
  | .legacyRaise _ => true
  | .ticksFor t d => fits32 t && fitsSlot d
  | .pwmNibble v => decide (v < 16)
  | .packByte b => decide (b < 256)
  | .trailerLen n => fits32 n
  | .register _ c => fitsSlot c

end Sys2Proof
end

