-- ==== Sys2Proof/Decode.lean ====
section
/-! DEFINITION. Records of bytes to operations and back (30_encoding R80 to R82, R93, R94, R97).

The spec gives the 8-bit id and says an operation is one record with one length, whose operands are values.
It gives the operands no bytes: their layout here is the model's (DESIGN CHOICE, log 3). A record is 33 bytes:
the id, then four operand slots of 8 bytes each, least significant byte first, in the order of the table's
operands; a slot the operation does not use is 0. `order` is written MSB 0, LSB 1; `registry` GPIO 0, FIFO 1. -/

namespace Sys2Proof

/-- The low `k` bytes of `n`, least significant first. -/
def leBytes : Nat → Nat → List Byte
  | 0, _ => []
  | k + 1, n => BitVec.ofNat 8 n :: leBytes k (n / 256)

/-- The number that bytes, least significant first, stand for. -/
def leValue : List Byte → Nat
  | [] => 0
  | b :: bs => b.toNat + 256 * leValue bs

/-- The bytes of one record (R80: one format, one length; the number itself is log 3's). -/
def recordBytes : Nat := 33

/-- Why a record is `invalid` (R93). -/
inductive DecodeError where
  /-- An operand is missing or there are too many bytes: not the one record format (R80, vector V-D7). -/
  | badLength
  /-- A reserved operation id (R94). -/
  | reservedOp (op : Byte)
  /-- The operands do not have the operation's types, or a slot the operation does not use is not 0 (R93). -/
  | badOperand (op : Byte)
deriving DecidableEq, Repr

/-- The operation id of each operation (R81). -/
def opOf : Instr → Byte
  | .gpioInit _ _ _ _ => 0x01#8
  | .gpioSend _ _ _ => 0x02#8
  | .gpioIsSending _ => 0x03#8
  | .gpioNmi => 0x04#8
  | .tmrExpire => 0x05#8
  | .fifoInit _ _ _ => 0x11#8
  | .fifoSend _ _ _ => 0x12#8
  | .fifoIsSending _ => 0x13#8
  | .fifoFill _ => 0x14#8
  | .serIrq => 0x15#8
  | .serDrain => 0x16#8
  | .legacyRaise _ => 0x17#8
  | .ticksFor _ _ => 0x21#8
  | .pwmNibble _ => 0x22#8
  | .packByte _ => 0x23#8
  | .trailerLen _ => 0x24#8
  | .register _ _ => 0x25#8

/-- The code of a bit order in a record (log 3). -/
def orderCode : Order → Nat
  | .msb => 0
  | .lsb => 1

/-- The bit order a slot names, if it names one. -/
def bitOrderOf (n : Nat) : Option Order :=
  if n = 0 then some .msb else if n = 1 then some .lsb else none

/-- The code of a registry in a record (log 3). -/
def engineCode : Engine → Nat
  | .gpio => 0
  | .fifo => 1

/-- The registry a slot names, if it names one. -/
def engineOf (n : Nat) : Option Engine :=
  if n = 0 then some .gpio else if n = 1 then some .fifo else none

/-- The 32-bit mask a slot names, if it fits. -/
def maskOf (n : Nat) : Option Word :=
  if n < 2 ^ 32 then some (BitVec.ofNat 32 n) else none

/-- Operand slot `k` (0 to 3) of the 32 operand bytes of a record. -/
def slot (k : Nat) (operands : List Byte) : Nat := leValue ((operands.drop (8 * k)).take 8)

/-- An operation with its slots unused beyond `used` checked to be 0, and its operands of their types (R93). -/
def accept (op : Byte) (unused : List Nat) (i : Option Instr) : Except DecodeError Instr :=
  match i with
  | some i => if unused.all (· == 0) && i.wf then .ok i else .error (.badOperand op)
  | none => .error (.badOperand op)

/-- Selects the operation by the full 8-bit id (R82), with operand slots `a b c d`. Every id of R94 is refused
as reserved. -/
def decodeOp (op : Byte) (a b c d : Nat) : Except DecodeError Instr :=
  match op.toNat with
  | 0x01 => accept op [] ((bitOrderOf d).map (Instr.gpioInit a b c))
  | 0x02 => accept op [d] (some (.gpioSend a b c))
  | 0x03 => accept op [b, c, d] (some (.gpioIsSending a))
  | 0x04 => accept op [a, b, c, d] (some .gpioNmi)
  | 0x05 => accept op [a, b, c, d] (some .tmrExpire)
  | 0x11 => accept op [d] ((bitOrderOf c).map (Instr.fifoInit a b))
  | 0x12 => accept op [d] (some (.fifoSend a b c))
  | 0x13 => accept op [b, c, d] (some (.fifoIsSending a))
  | 0x14 => accept op [b, c, d] (some (.fifoFill a))
  | 0x15 => accept op [a, b, c, d] (some .serIrq)
  | 0x16 => accept op [a, b, c, d] (some .serDrain)
  | 0x17 => accept op [b, c, d] ((maskOf a).map Instr.legacyRaise)
  | 0x21 => accept op [c, d] (some (.ticksFor a b))
  | 0x22 => accept op [b, c, d] (some (.pwmNibble a))
  | 0x23 => accept op [b, c, d] (some (.packByte a))
  | 0x24 => accept op [b, c, d] (some (.trailerLen a))
  | 0x25 => accept op [c, d] ((engineOf a).map fun r => Instr.register r b)
  | _ => .error (.reservedOp op)

/-- The operation a record stands for (R80, R93): total on any bytes. -/
def decode (record : List Byte) : Except DecodeError Instr :=
  match record with
  | [] => .error .badLength
  | op :: operands =>
    if operands.length = 32 then
      decodeOp op (slot 0 operands) (slot 1 operands) (slot 2 operands) (slot 3 operands)
    else .error .badLength

/-- The operand values of an operation, slot by slot (log 3). -/
def operandSlots : Instr → Nat × Nat × Nat × Nat
  | .gpioInit c k d o => (c, k, d, orderCode o)
  | .gpioSend c b n => (c, b, n, 0)
  | .gpioIsSending c => (c, 0, 0, 0)
  | .gpioNmi => (0, 0, 0, 0)
  | .tmrExpire => (0, 0, 0, 0)
  | .fifoInit c g o => (c, g, orderCode o, 0)
  | .fifoSend c b n => (c, b, n, 0)
  | .fifoIsSending c => (c, 0, 0, 0)
  | .fifoFill c => (c, 0, 0, 0)
  | .serIrq => (0, 0, 0, 0)
  | .serDrain => (0, 0, 0, 0)
  | .legacyRaise bits => (bits.toNat, 0, 0, 0)
  | .ticksFor t d => (t, d, 0, 0)
  | .pwmNibble v => (v, 0, 0, 0)
  | .packByte b => (b, 0, 0, 0)
  | .trailerLen n => (n, 0, 0, 0)
  | .register r c => (engineCode r, c, 0, 0)

/-- The record of an operation: its id (R81), then its operand slots. -/
def encode (i : Instr) : List Byte :=
  opOf i :: (leBytes 8 (operandSlots i).1 ++ (leBytes 8 (operandSlots i).2.1 ++
    (leBytes 8 (operandSlots i).2.2.1 ++ leBytes 8 (operandSlots i).2.2.2)))

/-- The record whose bits, numbered as spec/opcode_table.json numbers them, are the low `nbits` bits of `w`
and 0 above. -/
def tableRecord (nbits w : Nat) : List Byte := leBytes recordBytes (w % 2 ^ nbits)

/-- The operation the decoder reads from the table's bits `w`, with operand bytes of zeros above them. -/
def decodeTableWord (nbits w : Nat) : Option Instr :=
  match decode (tableRecord nbits w) with
  | .ok i => some i
  | .error _ => none

end Sys2Proof
end

