-- ==== Sys2Proof/Config.lean ====
section
/-! DEFINITION. The parameters of a model instance (00_scope R7) and the free values (R12 `draw`).

The parameters are plain data: State holds one `Config`, no step changes it, and a statement about every
state is a statement about every instance (log 2). The free values are constants without a body: nothing can
evaluate them, so a claim holds for each of their values (logs 8, 9 and 30). -/

namespace Sys2Proof

/-- The arithmetic of `ticks_for` (R7 `TICKS_MODE`, 40_tick_converter R110). -/
inductive TicksMode where
  | exact
  | perPart
deriving DecidableEq, Repr

/-- The byte order of a pixel word in memory (R7 `MEM_ENDIAN`, 20_memory R63). -/
inductive Endian where
  | little
  | big
deriving DecidableEq, Repr

/-- The parameters of 00_scope R7, in its order. `WORD_BITS` is 32 by type (`Word`). A default stands only where R7 gives
a value, and for `ORDER` (log 28). R7 gives `ADDR_BITS` no bound (log 3) and `BIT_PERIOD_NS`, `RESET_NS` none (log 29). -/
structure Config where
  /-- `BPP`: bits per pixel, default 24. -/
  bpp : Nat := 24
  /-- `ORDER`, "compile-time constant per context": the GPIO contexts whose configured order is `LSB`; the others', and
  every FIFO context's ("FIFO engine: `MSB` only"), is `MSB`. Log 28. -/
  gpioLsb : List Nat := []
  /-- `MAX_CTX_GPIO`: capacity of the GPIO registry, default 1. -/
  maxCtxGpio : Nat := 1
  /-- `MAX_CTX_FIFO`: capacity of the FIFO registry, default 1. -/
  maxCtxFifo : Nat := 1
  /-- `CLK_HZ`: timer input clock, OPEN. -/
  clkHz : Nat
  /-- `TIMER_DIV`: timer clock divisor, OPEN. -/
  timerDiv : Nat
  /-- `TIMER_BITS`: width of the timer load register, OPEN (1 to 32). -/
  timerBits : Nat
  /-- `TICKS_MODE`: `exact` unless the reader deliberately selects `per_part`. -/
  ticksMode : TicksMode := .exact
  /-- `BIT_PERIOD_NS`, OPEN. -/
  bitPeriodNs : Nat
  /-- `RESET_NS`, 50000. -/
  resetNs : Nat := 50000
  /-- `SAMPLE_NS`: duration of one serializer frame, OPEN. -/
  sampleNs : Nat
  /-- `FIFO_DEPTH`, OPEN (at least 2). -/
  fifoDepth : Nat
  /-- `LOW_WATERMARK`, OPEN. -/
  lowWatermark : Nat
  /-- `ADVANCE_FRAMES`, OPEN. -/
  advanceFrames : Nat
  /-- `INSERTED_FRAMES`, 1. -/
  insertedFrames : Nat := 1
  /-- `LEGACY_MASK`: the status bits of the legacy slave-mode logic, as a mask, OPEN. -/
  legacyMask : Word
  /-- `LEGACY_IE`: whether legacy bits can assert the shared line, OPEN. -/
  legacyIe : Bool
  /-- `ADDR_BITS`: width of a buffer address, OPEN. -/
  addrBits : Nat
  /-- `MEM_ENDIAN`, OPEN. -/
  memEndian : Endian
  /-- `SER_SHIFT_MSB_FIRST`, OPEN; read only by the derived waveform (44_fifo_engine R238). -/
  serShiftMsbFirst : Bool
  /-- `SER_BITS_PER_FRAME`, OPEN; read only by the derived waveform (R238). -/
  serBitsPerFrame : Nat
deriving DecidableEq, Repr

/-- `ORDER` of the GPIO context `c` (R7). -/
def Config.gpioOrder (cfg : Config) (c : Nat) : Order := if cfg.gpioLsb.contains c then .lsb else .msb

/-- The common instance of 95_test_vectors, with BPP 24 (R7's default). State.reset holds it: DESIGN CHOICE, log 2. -/
def Config.common : Config where
  clkHz := 80000000
  timerDiv := 1
  timerBits := 16
  bitPeriodNs := 1250
  sampleNs := 10000
  fifoDepth := 4
  lowWatermark := 1
  advanceFrames := 2
  legacyMask := 4#32
  legacyIe := true
  addrBits := 32
  memEndian := .little
  serShiftMsbFirst := true
  serBitsPerFrame := 32

/-- FREE VALUE: the platform's attach result at the n-th draw (43_gpio_engine R164, 44_fifo_engine R203,
60_exceptions R273 "a draw under no law"). Log 8. -/
opaque Config.freeAttach : Nat → Bool

/-- FREE VALUE: the frame a serializer emits on an underrun in RESET or IDLE, at the n-th draw
(44_fifo_engine R230, R232). Log 9. -/
opaque Config.freeFrame : Nat → Word

/-- FREE VALUE: what the 32-bit field `trailer` (10_state R27) holds after it is written a trailer length of `2^32` or
more, as a function of that length. Log 30. -/
opaque Config.freeTrailer : Nat → Word

end Sys2Proof
end

