-- ==== Sys2Proof/Machine/State.lean ====
section
/-! DEFINITION. The state of one model instance (10_state R20), as plain data, and the reasons a step can stop.

The spec's own faults and refusals are NOT reasons to stop: 60_exceptions R270 and R271 say what each leaves in
the state and that the machine goes on, so they are part of State (`faults`, `refused`) and the step that raises
one answers a next state (log 10). -/

namespace Sys2Proof.Machine

/-- The agents of 00_scope R15. -/
inductive Agent where
  /-- The application thread (45_driver_api). -/
  | host
  /-- The GPIO engine's NMI handler (43_gpio_engine R172). -/
  | nmiHandler
  /-- The timer (R178). -/
  | timer
  /-- The FIFO engine's serializer interrupt handler (44_fifo_engine R222). -/
  | serHandler
  /-- The serializer drain (R230). -/
  | serializer
  /-- The legacy slave-mode logic (R234). -/
  | legacy
deriving DecidableEq, Repr

/-- GPIO context states (10_state R25). -/
inductive GpioState where
  | idle
  | sending
  | finish
  | reset
deriving DecidableEq, Repr

/-- FIFO context states; `trailer` is reserved (10_state R28). -/
inductive FifoState where
  | idle
  | sending
  | reset
  | trailer
deriving DecidableEq, Repr

/-- A GPIO transmission context (10_state R24) with its two output lines (R33). A number is used where the
spec counts or indexes; the widths of R23 are an invariant (Safety.lean, log 20). -/
structure GpioCtx where
  state : GpioState
  /-- Byte address of pixel word 0. -/
  buf : Nat
  /-- Number of pixels. -/
  len : Nat
  /-- Index of the pixel being sent. -/
  pix : Nat
  /-- One-hot bit cursor inside the pixel (R26). -/
  mask : Word
  order : Order
  /-- Pin identifier of the clock line. -/
  clkLine : Nat
  /-- Pin identifier of the data line. -/
  dataLine : Nat
  /-- Level of the line `CLK`. -/
  clk : Bool
  /-- Level of the line `DATA`. -/
  data : Bool
  /-- Init has succeeded (model only, R23). -/
  inited : Bool
deriving DecidableEq, Repr

/-- A FIFO transmission context (10_state R27). -/
structure FifoCtx where
  state : FifoState
  buf : Nat
  len : Nat
  /-- Index of the pixel whose bytes are being encoded. -/
  pix : Nat
  /-- Index of the next byte inside pixel `pix`. -/
  byteIdx : Nat
  /-- Zero trailer words still to be pushed. -/
  trailer : Nat
  order : Order
  inited : Bool
deriving DecidableEq, Repr

/-- A GPIO context before any init. `inited` is false and `order` is the configured value (R24); every other value is
unspecified by the spec and chosen here: DESIGN CHOICE, logs 4 and 5. -/
def GpioCtx.powerOn (order : Order) : GpioCtx where
  state := .idle
  buf := 0
  len := 0
  pix := 0
  mask := 0#32
  order := order
  clkLine := 0
  dataLine := 0
  clk := false
  data := false
  inited := false

/-- A FIFO context before any init. `inited` is false and `order` is `MSB`, the only configured value (R27); the rest is
DESIGN CHOICE, log 4. -/
def FifoCtx.powerOn : FifoCtx where
  state := .idle
  buf := 0
  len := 0
  pix := 0
  byteIdx := 0
  trailer := 0
  order := .msb
  inited := false

/-- The timer block `TMR` (10_state R32). -/
structure Tmr where
  load : Nat
  auto : Bool
  en : Bool
  ie : Bool
  pend : Bool
  handler : Bool
deriving DecidableEq, Repr

/-- The serializer block `SER` with `SER_IE` and `SER_ST` (10_state R34). `SER_CLR` holds nothing. -/
structure Ser where
  /-- `SER.CFG`, opaque. -/
  cfg : Nat
  clkRun : Bool
  /-- `SER.FIFO`, head first. -/
  fifo : List Word
  /-- `SER.INS_PEND`. -/
  insPend : Nat
  /-- `SER_IE`: NEED bit 0, EMPTY bit 1, legacy bits in LEGACY_MASK (R91). -/
  ie : Word
  /-- `SER_ST`, the same positions. -/
  st : Word
  handler : Bool
deriving DecidableEq, Repr

/-- The two output lines of a GPIO context (R33). -/
inductive Line where
  | clk
  | data
deriving DecidableEq, Repr

/-- One write of a field of an abstract control register (10_state R32, R34; R10's `REG.F <- v`). -/
inductive RegWrite where
  | tmrLoad (n : Nat)
  | tmrAuto (b : Bool)
  | tmrEn (b : Bool)
  | tmrIe (b : Bool)
  | tmrPend (b : Bool)
  | tmrHandler (b : Bool)
  | serCfg (v : Nat)
  | serClkRun (b : Bool)
  /-- `SER.FIFO <- []`, the FIFO reset (20_memory R66). -/
  | serFifoReset
  /-- `SER.FIFO <- tail(SER.FIFO)`, the pop of a drain (R230). -/
  | serFifoPop
  | serInsPend (n : Nat)
  | serIeNeed (b : Bool)
  | serIeEmpty (b : Bool)
  /-- `SER_CLR <- v`: write 1 to clear (R34). -/
  | serClr (v : Word)
  | serStNeed (b : Bool)
  | serStEmpty (b : Bool)
  /-- `SER_ST <- SER_ST | bits` of the legacy logic (R234). -/
  | serStLegacy (bits : Word)
  | serHandler (b : Bool)
deriving DecidableEq, Repr

/-- One entry of the event history (10_state R37, 20_memory R66). -/
inductive Event where
  /-- `MemRead` of a pixel word at a byte address, and the whole word read (log 31). -/
  | memRead (addr : Nat) (w : Word)
  /-- `GpioWrite(line, b)` of the context `ctx`. -/
  | gpioWrite (ctx : Nat) (line : Line) (b : Bool)
  /-- `FifoPush(w)`. -/
  | fifoPush (w : Word)
  /-- `Emit(frame)`. -/
  | emit (frame : Word)
  /-- A control-register write. -/
  | regWrite (w : RegWrite)
  /-- A read of `SER_ST` (R66), and the value read. -/
  | statusRead (v : Word)
  /-- `Expire(TMR.LOAD)` (R178). -/
  | expire (load : Nat)
  /-- `Underrun` (R230). -/
  | underrun
deriving DecidableEq, Repr

/-- The faults of 60_exceptions R272, each with the info it records. -/
inductive FaultKind where
  | initHardwareFailure (engine : Engine)
  | ticksOutOfRange (n : Nat)
  | bitDeadlineMissed (load : Nat)
  | fifoUnderrun (pix byteIdx trailer : Nat)
  | sendRefillRace (status : Word)
  | unreachableState (value : Nat)
deriving DecidableEq, Repr

/-- A fault record (R270): the kind gives code, name and info. -/
structure FaultRecord where
  agent : Agent
  kind : FaultKind
deriving DecidableEq, Repr

/-- The refusal reasons of 60_exceptions R279. -/
inductive Reason where
  | unknownOperation
  | reInit
  | uninitialisedContext
  | unsupportedConfig
  | badBuffer
deriving DecidableEq, Repr

/-- The statuses of init (30_encoding R90). -/
inductive InitStatus where
  | ok
  | noCapacity
deriving DecidableEq, Repr

/-- What the last operation of the host, query or subroutine returned (R90). The field is the MODEL's (log 16). -/
inductive Ret where
  /-- Nothing has been returned yet. -/
  | none
  /-- A send that returned (45_driver_api R252: "Send returns nothing"). -/
  | void
  | status (s : InitStatus)
  | bool (b : Bool)
  /-- Ticks of `ticks_for`. -/
  | ticks (n : Nat)
  /-- The 12-bit pattern of `pwm_nibble`. -/
  | pattern (p : BitVec 12)
  /-- The serializer word of `pack_byte`. -/
  | word (w : Word)
  /-- Trailer words of `trailer_len`. -/
  | trailerWords (n : Nat)
  /-- The slot index of a successful `register`. -/
  | slot (i : Nat)
  /-- `FULL` of `register`. -/
  | full
  /-- The operation was refused, with its reason (R279). -/
  | refused (r : Reason)
deriving DecidableEq, Repr

/-- One entry of the schedule (log 1): the agent that takes the step, and the record (R80). -/
structure Entry where
  agent : Agent
  record : List Byte
deriving DecidableEq, Repr

/-- A state of the machine (10_state R20). -/
structure State where
  /-- The parameters of the instance (00_scope R7); no step changes them (log 2). -/
  cfg : Config
  /-- The launch memory (20_memory R60, R67): addresses strictly rising; an unlisted byte is not admitted. -/
  mem : List Host.Cell
  /-- The GPIO contexts by number; one not listed is as at power-on (log 17). -/
  gpio : List (Nat × GpioCtx)
  /-- The FIFO contexts by number. -/
  fifo : List (Nat × FifoCtx)
  /-- `REG_GPIO` (R30): `none` is `EMPTY`, `some c` refers to the context `c`. -/
  regGpio : List (Option Nat)
  /-- `REG_FIFO` (R30). -/
  regFifo : List (Option Nat)
  /-- `TMR` (R32). -/
  tmr : Tmr
  /-- `SER`, `SER_IE`, `SER_ST` (R34). -/
  ser : Ser
  /-- `FAULTS` (R37): no repeats, in the order raised (log 22). -/
  faults : List FaultRecord
  /-- `REFUSED` (R37). -/
  refused : Bool
  /-- `HIST` (R37), oldest first. -/
  hist : List Event
  /-- The last returned value: the MODEL's own (log 16). -/
  ret : Ret
  /-- How many free values have been drawn: the MODEL's own (log 8). -/
  draws : Nat
  /-- What is performed next: the MODEL's own (log 1). -/
  schedule : List Entry
deriving DecidableEq, Repr

/-- Why the model has no next state: the machine is stuck. -/
inductive Fault where
  /-- Raised by `gpio.nmi`, `fifo.send`, `fifo.fill`, `ser.irq` (and by `step` through them) when a pixel read is
  not admitted by the launch memory: the reading agent is stuck (20_memory R67). SAFE: the model stops. Log 11. -/
  | readNotAdmitted (addr : Nat)
deriving DecidableEq, Repr

/-- Why the scheduled entry is not a step of the model. -/
inductive Refusal where
  /-- Raised by `exec` for an instruction without a meaning. No arm raises it. SAFE. -/
  | notModelled (mnemonic : String)
  /-- Raised by `gpio.nmi`, `tmr.expire`, `ser.irq` and `ser.drain` (and by `step` through them): the guard does not
  hold, so this is "not a step of the model" (30_encoding R81). SAFE. Log 12. -/
  | guardFalse (agent : Agent)
  /-- Raised by `step`: the agent has raised a fault and "takes no further step" (60_exceptions R270). SAFE. -/
  | agentHalted (agent : Agent)
  /-- Raised by `step`: a step of a higher level is enabled (60_exceptions R290). SAFE. Log 13. -/
  | heldByPriority (agent : Agent)
  /-- Raised by `step`: the operation is not one of this agent's (00_scope R15, 45_driver_api R257), or is a subroutine,
  which is no agent's step (R81). SAFE. Logs 12 and 14. -/
  | notItsStep (agent : Agent)
  /-- Raised by `step`: the schedule is empty, there is nothing to perform. SAFE. Log 1. -/
  | nothingScheduled
deriving DecidableEq, Repr

/-- The timer at power-on: `HANDLER` 0 (R32); the rest unspecified, DESIGN CHOICE, log 5. -/
def Tmr.powerOn : Tmr where
  load := 0
  auto := false
  en := false
  ie := false
  pend := false
  handler := false

/-- The serializer at power-on: `HANDLER` 0 and the legacy enables `LEGACY_IE` (R34); the rest unspecified,
DESIGN CHOICE, log 6. -/
def Ser.powerOn (cfg : Config) : Ser where
  cfg := 0
  clkRun := false
  fifo := []
  insPend := 0
  ie := if cfg.legacyIe then cfg.legacyMask else 0#32
  st := 0#32
  handler := false

/-- Power-on of an instance (70_reset_and_hazards R310): registries EMPTY, contexts not inited, handlers
detached, FAULTS, REFUSED and HIST initial, no memory listed. -/
def State.powerOn (cfg : Config) : State where
  cfg := cfg
  mem := []
  gpio := []
  fifo := []
  regGpio := List.replicate cfg.maxCtxGpio none
  regFifo := List.replicate cfg.maxCtxFifo none
  tmr := Tmr.powerOn
  ser := Ser.powerOn cfg
  faults := []
  refused := false
  hist := []
  ret := .none
  draws := 0
  schedule := []

/-- The machine right after reset: power-on of the common instance (log 2). -/
def State.reset : State := State.powerOn Config.common

end Sys2Proof.Machine
end

