-- ==== Sys2Proof/Machine/Ops.lean ====
section
/-! DEFINITION. The shared operations over State: tables with a canonical form, pixel memory, contexts, control
registers with the event history, ports, draws, and raising a fault or a refusal. -/

namespace Sys2Proof.Machine

/-! ### Tables: keys strictly rising -/

/-- The value at a key, if listed. -/
def lookup {α : Type} : List (Nat × α) → Nat → Option α
  | [], _ => none
  | (k, v) :: rest, a => if a = k then some v else lookup rest a

/-- The table with `x` at key `a`, in its place. -/
def insert {α : Type} : List (Nat × α) → Nat → α → List (Nat × α)
  | [], a, x => [(a, x)]
  | (k, v) :: rest, a, x =>
    if a < k then (a, x) :: (k, v) :: rest
    else if a = k then (a, x) :: rest
    else (k, v) :: insert rest a x

/-- The table without key `a`. -/
def erase {α : Type} : List (Nat × α) → Nat → List (Nat × α)
  | [], _ => []
  | (k, v) :: rest, a => if a = k then erase rest a else (k, v) :: erase rest a

/-- Every key is above `lo` and the keys rise strictly. -/
def risingAbove {α : Type} : Nat → List (Nat × α) → Bool
  | _, [] => true
  | lo, (k, _) :: rest => decide (lo < k) && risingAbove k rest

/-- The keys rise strictly. -/
def rising {α : Type} : List (Nat × α) → Bool
  | [] => true
  | (k, _) :: rest => risingAbove k rest

/-- The value at a key of a table in which an unlisted key `k` has the value `dflt k`. -/
def fetch {α : Type} (dflt : Nat → α) (t : List (Nat × α)) (k : Nat) : α := (lookup t k).getD (dflt k)

/-- The table with `v` at `k`; a key `k` that has the value `dflt k` is not listed. -/
def put {α : Type} [DecidableEq α] (dflt : Nat → α) (t : List (Nat × α)) (k : Nat) (v : α) : List (Nat × α) :=
  if v = dflt k then erase t k else insert t k v

/-- Canonical form: keys strictly rising, no entry equal to what an unlisted key has. -/
def canonical {α : Type} [DecidableEq α] (dflt : Nat → α) (t : List (Nat × α)) : Bool :=
  rising t && t.all fun e => decide (e.2 ≠ dflt e.1)

/-! ### Pixel memory (20_memory) -/

/-- The canonical form of the launch memory. An unlisted byte has no value (R67), so no entry can equal it. -/
def Memory.wf (m : List Host.Cell) : Bool := rising m

/-- One byte of memory, if the launch memory admits it (R67). -/
def readByte (m : List Host.Cell) (a : Nat) : Option Byte := lookup m a

/-- Memory with one byte written. -/
def writeByte (m : List Host.Cell) (a : Nat) (b : Byte) : List Host.Cell := insert m a b

/-- `n` bytes from address `a` up, if all are admitted. -/
def readBytes (m : List Host.Cell) : Nat → Nat → Option (List Byte)
  | _, 0 => some []
  | a, n + 1 =>
    match readByte m a, readBytes m (a + 1) n with
    | some b, some bs => some (b :: bs)
    | _, _ => none

/-- Memory with bytes written from address `a` up. -/
def writeBytes (m : List Host.Cell) : Nat → List Byte → List Host.Cell
  | _, [] => m
  | a, b :: bs => writeBytes (writeByte m a b) (a + 1) bs

/-- Bytes in address order, as `leValue` takes them (R63 `MEM_ENDIAN`). -/
def orderBytes (e : Endian) (bs : List Byte) : List Byte :=
  match e with
  | .little => bs
  | .big => bs.reverse

/-- `MemRead(addr, n)` (00_scope R11): the `8n`-bit value, or `none` where the launch memory does not admit it or the
access leaves the `ADDR_BITS`-bit address space (R60, R67). -/
def memRead (cfg : Config) (m : List Host.Cell) (addr n : Nat) : Option Nat :=
  if addr + n ≤ 2 ^ cfg.addrBits then
    (readBytes m addr n).map fun bs => leValue (orderBytes cfg.memEndian bs)
  else none

/-- `MemWrite(addr, n, v)` (R11): "defined for completeness and never issued by the block". It builds launch
memories in tests; no operation calls it. -/
def memWrite (cfg : Config) (m : List Host.Cell) (addr n v : Nat) : Option (List Host.Cell) :=
  if addr + n ≤ 2 ^ cfg.addrBits then some (writeBytes m addr (orderBytes cfg.memEndian (leBytes n v))) else none

/-- The byte address of pixel word `i` of a buffer (R61). -/
def pixelAddr (buf i : Nat) : Nat := buf + 4 * i

/-- `P(i)`, the pixel word at index `i` (R61), if admitted. -/
def pixelWord (cfg : Config) (m : List Host.Cell) (buf i : Nat) : Option Word :=
  (memRead cfg m (pixelAddr buf i) 4).map (BitVec.ofNat 32)

/-! ### The event history (10_state R37) -/

/-- HIST with one more event. -/
def State.log (s : State) (e : Event) : State := { s with hist := s.hist ++ [e] }

/-- Reads pixel word `i` of a buffer and records the read (R62, R66). DESIGN CHOICE (log 31): the event holds the byte address and
the whole word, its ignored bits [31:BPP] (R61) included; the spec says only that the access is recorded. -/
def readPixel (buf i : Nat) (s : State) : Option (Word × State) :=
  match pixelWord s.cfg s.mem buf i with
  | some w => some (w, s.log (.memRead (pixelAddr buf i) w))
  | none => none

/-! ### Contexts -/

/-- The GPIO context `c` before any init: its order is the configured one (10_state R24). -/
def gpioAtPowerOn (cfg : Config) (c : Nat) : GpioCtx := GpioCtx.powerOn (cfg.gpioOrder c)

/-- The FIFO context `c` before any init (10_state R27). -/
def fifoAtPowerOn (_c : Nat) : FifoCtx := FifoCtx.powerOn

/-- The GPIO context `c` (log 17). -/
def State.gpioCtx (s : State) (c : Nat) : GpioCtx := fetch (gpioAtPowerOn s.cfg) s.gpio c

/-- The FIFO context `c` (log 17). -/
def State.fifoCtx (s : State) (c : Nat) : FifoCtx := fetch fifoAtPowerOn s.fifo c

/-- Writes the GPIO context `c`. -/
def State.setGpio (s : State) (c : Nat) (x : GpioCtx) : State :=
  { s with gpio := put (gpioAtPowerOn s.cfg) s.gpio c x }

/-- Writes the FIFO context `c`. -/
def State.setFifo (s : State) (c : Nat) (x : FifoCtx) : State :=
  { s with fifo := put fifoAtPowerOn s.fifo c x }

/-! ### Control registers (10_state R32, R34) -/

/-- `SER_ST`/`SER_IE` bit NEED (R91). -/
def needBit : Word := 1#32

/-- `SER_ST`/`SER_IE` bit EMPTY (R91). -/
def emptyBit : Word := 2#32

/-- The bits of `SER_ST` and `SER_IE` that exist: `{0, 1} ∪ LEGACY_MASK`; the others "read 0 and ignore writes"
(R34). -/
def validBits (cfg : Config) : Word := needBit ||| emptyBit ||| cfg.legacyMask

/-- A word with the bits of `bit` set or cleared. -/
def withBit (w bit : Word) (b : Bool) : Word := if b then w ||| bit else w &&& ~~~bit

/-- What one register write does to `TMR` (R32). -/
def tmrEffect (w : RegWrite) (t : Tmr) : Tmr :=
  match w with
  | .tmrLoad n => { t with load := n }
  | .tmrAuto b => { t with auto := b }
  | .tmrEn b => { t with en := b }
  | .tmrIe b => { t with ie := b }
  | .tmrPend b => { t with pend := b }
  | .tmrHandler b => { t with handler := b }
  | _ => t

/-- What one register write does to `SER`, `SER_IE`, `SER_ST` (R34). Bits that do not exist stay 0. -/
def serEffect (cfg : Config) (w : RegWrite) (r : Ser) : Ser :=
  match w with
  | .serCfg v => { r with cfg := v }
  | .serClkRun b => { r with clkRun := b }
  | .serFifoReset => { r with fifo := [] }
  | .serFifoPop => { r with fifo := r.fifo.tail }
  | .serInsPend n => { r with insPend := n }
  | .serIeNeed b => { r with ie := withBit r.ie needBit b &&& validBits cfg }
  | .serIeEmpty b => { r with ie := withBit r.ie emptyBit b &&& validBits cfg }
  | .serClr v => { r with st := (r.st &&& ~~~v) &&& validBits cfg }
  | .serStNeed b => { r with st := withBit r.st needBit b &&& validBits cfg }
  | .serStEmpty b => { r with st := withBit r.st emptyBit b &&& validBits cfg }
  | .serStLegacy bits => { r with st := (r.st ||| bits) &&& validBits cfg }
  | .serHandler b => { r with handler := b }
  | _ => r

/-- `REG.F <- v` (R10): the one operation that writes a control register, and records it (R11, R66, log 15). -/
def writeReg (w : RegWrite) (s : State) : State :=
  { s with tmr := tmrEffect w s.tmr, ser := serEffect s.cfg w s.ser, hist := s.hist ++ [.regWrite w] }

/-- `SER_ST` as it reads (R34). -/
def State.serSt (s : State) : Word := s.ser.st &&& validBits s.cfg

/-- `SER_IE` as it reads (R34). -/
def State.serIe (s : State) : Word := s.ser.ie &&& validBits s.cfg

/-- `level = length(SER.FIFO)` (R34). -/
def State.level (s : State) : Nat := s.ser.fifo.length

/-- A read of `SER_ST` that the rule performs: the value read is recorded (20_memory R66, log 15). -/
def readStatus (s : State) : State := s.log (.statusRead s.serSt)

/-! ### Ports (00_scope R11) -/

/-- `GpioWrite(line, b)` of the context `c`: drives the line and records it. -/
def gpioWrite (c : Nat) (line : Line) (b : Bool) (s : State) : State :=
  let x := s.gpioCtx c
  (s.setGpio c (match line with
    | .clk => { x with clk := b }
    | .data => { x with data := b })).log (.gpioWrite c line b)

/-- `FifoPush(w)`: appends one word to the serializer FIFO and records it. -/
def fifoPush (w : Word) (s : State) : State :=
  { s with ser := { s.ser with fifo := s.ser.fifo ++ [w] }, hist := s.hist ++ [.fifoPush w] }

/-- `Emit(frame)`: records one frame leaving the serializer. -/
def emitFrame (frame : Word) (s : State) : State := s.log (.emit frame)

/-! ### Draws (R12) -/

/-- Counts one draw: the next draw is another free value. -/
def State.countDraw (s : State) : State := { s with draws := s.draws + 1 }

/-! ### Results -/

/-- The operation returns `r` to its caller (30_encoding R90, log 16). -/
def returns (r : Ret) (s : State) : State := { s with ret := r }

/-! ### Faults and refusals (60_exceptions R270 to R272, R279)

Interrupt entry saves nothing and interrupt return restores nothing (R292, R293): an interrupt is taken by performing
its handler step, and the return is the end of that step, so neither needs an operation here. -/

/-- The fault code (R272). -/
def FaultKind.code : FaultKind → Nat
  | .initHardwareFailure _ => 1
  | .ticksOutOfRange _ => 2
  | .bitDeadlineMissed _ => 3
  | .fifoUnderrun _ _ _ => 4
  | .sendRefillRace _ => 5
  | .unreachableState _ => 6

/-- The fault's name (R272). -/
def FaultKind.name : FaultKind → String
  | .initHardwareFailure _ => "InitHardwareFailure"
  | .ticksOutOfRange _ => "TicksOutOfRange"
  | .bitDeadlineMissed _ => "BitDeadlineMissed"
  | .fifoUnderrun _ _ _ => "FifoUnderrun"
  | .sendRefillRace _ => "SendRefillRace"
  | .unreachableState _ => "UnreachableState"

/-- `raise F(info)` by an agent (R270): the record is added to FAULTS; the writes made before remain. The caller ends
the step here. -/
def raise (a : Agent) (k : FaultKind) (s : State) : State :=
  { s with faults := if ⟨a, k⟩ ∈ s.faults then s.faults else s.faults ++ [⟨a, k⟩] }

/-- The agent has raised a fault: it "takes no further step" (R270). -/
def State.halted (s : State) (a : Agent) : Bool := s.faults.any fun r => r.agent == a

/-- `refuse R` (R271): REFUSED is set, and the operation has no other effect. -/
def refuse (r : Reason) (s : State) : State := { s with refused := true, ret := .refused r }

/-- A step that may have ended in a fault on the way: the state it leaves either way (R270). -/
def settle (r : Except State State) : State :=
  match r with
  | .ok s => s
  | .error s => s

end Sys2Proof.Machine
end

