-- ==== Sys2Proof/Machine/Operands.lean ====
section
/-! DEFINITION. Operand checks that depend on the instance (30_encoding R93, R96; opcode_table.json), the
admissibility of an instance (00_scope R8), the buffer rule (20_memory R65), the GPIO cursor (10_state R26), and the
byte and bit operands of the two engines (30_encoding R88, R89). -/

namespace Sys2Proof.Machine

/-! ### The instance -/

/-- 00_scope R8, with the domains of R7 (log 19). -/
def admissible (cfg : Config) : Bool :=
  (cfg.bpp == 8 || cfg.bpp == 16 || cfg.bpp == 24 || cfg.bpp == 32)
    && cfg.maxCtxGpio == 1 && cfg.maxCtxFifo == 1
    && decide (0 < cfg.clkHz) && decide (0 < cfg.timerDiv) && cfg.clkHz % cfg.timerDiv == 0
    && decide (1 ≤ cfg.timerBits) && decide (cfg.timerBits ≤ 32)
    && decide (0 < cfg.bitPeriodNs) && decide (0 < cfg.sampleNs)
    && decide (2 ≤ cfg.fifoDepth) && decide (cfg.lowWatermark < cfg.fifoDepth)
    && decide (cfg.advanceFrames < cfg.fifoDepth)
    && decide (cfg.legacyMask ≠ 0#32) && decide (cfg.legacyMask &&& (needBit ||| emptyBit) = 0#32)

/-! ### Operand types (R93): a record that breaks one is refused `UnknownOperation` (R280, log 18) -/

/-- `buf` is an `ADDR_BITS`-bit byte address, `len` a 32-bit pixel count. -/
def sendTyped (cfg : Config) (buf len : Nat) : Bool :=
  decide (buf < 2 ^ cfg.addrBits) && decide (len < 2 ^ 32)

/-- `duration_ns` is a 32-bit natural, `divisor` a natural at least 1 dividing `CLK_HZ` (40_tick_converter R110). -/
def ticksTyped (cfg : Config) (t d : Nat) : Bool :=
  decide (t < 2 ^ 32) && decide (1 ≤ d) && cfg.clkHz % d == 0

/-- A `pwm_nibble` operand is 0..15 (R96). -/
def nibbleTyped (v : Nat) : Bool := decide (v < 16)

/-- A `pack_byte` operand is 0..255 (R96). -/
def byteTyped (b : Nat) : Bool := decide (b < 256)

/-- A `trailer_len` operand is a 32-bit natural above 0 (opcode_table.json). -/
def nbytesTyped (n : Nat) : Bool := decide (0 < n) && decide (n < 2 ^ 32)

/-- A `legacy.raise` operand is a non-empty subset of `LEGACY_MASK` (44_fifo_engine R234). -/
def legacyTyped (cfg : Config) (bits : Word) : Bool :=
  decide (bits ≠ 0#32) && decide (bits &&& ~~~cfg.legacyMask = 0#32)

/-! ### Buffers (20_memory R65) -/

/-- `buffer_ok` of the GPIO engine: 4-aligned, and the buffer does not wrap the address space. -/
def gpioBufferOk (cfg : Config) (buf len : Nat) : Bool :=
  buf % 4 == 0 && decide (buf + 4 * len ≤ 2 ^ cfg.addrBits)

/-- `buffer_ok` of the FIFO engine: also `len * (BPP/8) < 2^32`. -/
def fifoBufferOk (cfg : Config) (buf len : Nat) : Bool :=
  gpioBufferOk cfg buf len && decide (len * (cfg.bpp / 8) < 2 ^ 32)

/-! ### The GPIO cursor (10_state R26) -/

/-- The one-hot word of the colour's most significant bit, `1 << (BPP − 1)`. -/
def topBit (cfg : Config) : Word := 1#32 <<< (cfg.bpp - 1)

/-- `first(order)`. -/
def firstMask (cfg : Config) : Order → Word
  | .msb => topBit cfg
  | .lsb => 1#32

/-- `last(order)`. -/
def lastMask (cfg : Config) : Order → Word
  | .msb => 1#32
  | .lsb => topBit cfg

/-- `next(order, m)`. -/
def nextMask (o : Order) (m : Word) : Word :=
  match o with
  | .msb => m >>> 1
  | .lsb => m <<< 1

/-- The bit operand: `(P(pix) & mask) ≠ 0` (30_encoding R89). -/
def maskedBit (w m : Word) : Bool := decide (w &&& m ≠ 0#32)

/-! ### The FIFO byte operand (30_encoding R88) -/

/-- `byte(i, k) = P(i)[BPP−1−8k : BPP−8−8k]`; `k = 0` is the most significant colour byte. -/
def colourByte (cfg : Config) (w : Word) (k : Nat) : Nat := w.toNat / 2 ^ (cfg.bpp - 8 - 8 * k) % 256

/-! ### Registry slots (10_state R30) -/

/-- The context in slot 0 of a registry, if that slot is not `EMPTY` (42_registry R150). -/
def slotZero (r : List (Option Nat)) : Option Nat :=
  match r with
  | some c :: _ => some c
  | _ => none

end Sys2Proof.Machine
end

