-- ==== Sys2Proof/Machine/Flags.lean ====
section
/-! DEFINITION. The block's flags (10_state R31): `is_sending`, the serializer line and its status bits, and
`raise_status` (44_fifo_engine R231). There are no condition codes. -/

namespace Sys2Proof.Machine

/-- `is_sending(ctx) = (ctx.state ≠ IDLE)` of a GPIO context (R31). -/
def GpioCtx.isSending (c : GpioCtx) : Bool := decide (c.state ≠ .idle)

/-- `is_sending(ctx)` of a FIFO context (R31). -/
def FifoCtx.isSending (c : FifoCtx) : Bool := decide (c.state ≠ .idle)

/-- The numeric value of a GPIO state (10_state R25). -/
def GpioState.code : GpioState → Nat
  | .idle => 0
  | .sending => 1
  | .finish => 2
  | .reset => 3

/-- The numeric value of a FIFO state (R28). -/
def FifoState.code : FifoState → Nat
  | .idle => 0
  | .sending => 1
  | .reset => 2
  | .trailer => 3

/-- The numeric value of an init status (30_encoding R90). -/
def InitStatus.code : InitStatus → Nat
  | .ok => 0
  | .noCapacity => 1

/-- `SER_ST.NEED` as it reads. -/
def State.stNeed (s : State) : Bool := decide (s.serSt &&& needBit ≠ 0#32)

/-- `SER_ST.EMPTY` as it reads. -/
def State.stEmpty (s : State) : Bool := decide (s.serSt &&& emptyBit ≠ 0#32)

/-- `SER_IE.NEED` as it reads. -/
def State.ieNeed (s : State) : Bool := decide (s.serIe &&& needBit ≠ 0#32)

/-- `SER_IE.EMPTY` as it reads. -/
def State.ieEmpty (s : State) : Bool := decide (s.serIe &&& emptyBit ≠ 0#32)

/-- `SER_IRQ = ((SER_ST & SER_IE) ≠ 0)` (10_state R34). -/
def State.serIrqLine (s : State) : Bool := decide (s.serSt &&& s.serIe ≠ 0#32)

/-- The enabled engine conditions in a status word: `snap & SER_IE & {NEED, EMPTY}` (44_fifo_engine R222). -/
def State.ownConditions (s : State) (snap : Word) : Word := snap &&& s.serIe &&& (needBit ||| emptyBit)

/-- `raise_status()` (44_fifo_engine R231). -/
def raiseStatus (s : State) : State :=
  let s₁ := if s.level ≤ s.cfg.lowWatermark then writeReg (.serStNeed true) s else s
  if s₁.level ≤ s₁.cfg.advanceFrames then writeReg (.serStEmpty true) s₁ else s₁

end Sys2Proof.Machine
end

