-- ==== Sys2Proof/Machine/Registry.lean ====
section
/-! DEFINITION. The context registry (42_registry). -/

namespace Sys2Proof.Machine

/-- The linear scan of `register(R, ctx)` (R145): the first `EMPTY` slot, lowest index first, and the registry with
`ctx` in it; `none` is `FULL`. -/
def registerIn : List (Option Nat) → Nat → Option (Nat × List (Option Nat))
  | [], _ => none
  | none :: rest, c => some (0, some c :: rest)
  | some x :: rest, c =>
    match registerIn rest c with
    | some (i, r) => some (i + 1, some x :: r)
    | none => none

/-- The registry of an engine (10_state R30). -/
def State.registry (s : State) : Engine → List (Option Nat)
  | .gpio => s.regGpio
  | .fifo => s.regFifo

/-- Writes an engine's registry. -/
def State.setRegistry (s : State) (e : Engine) (r : List (Option Nat)) : State :=
  match e with
  | .gpio => { s with regGpio := r }
  | .fifo => { s with regFifo := r }

/-- `register` (op 0x25, R145): the slot index, or `FULL` with nothing written (R147). The inits run it for its effect; no
step performs it alone (R81, log 14). -/
def execRegister (e : Engine) (c : Nat) (s : State) : Host.Outcome State Fault Refusal :=
  .next (match registerIn (s.registry e) c with
    | some (i, r) => returns (.slot i) (s.setRegistry e r)
    | none => returns .full s)

end Sys2Proof.Machine
end

