-- ==== Sys2Proof/Machine/Tick.lean ====
section
/-! DEFINITION. The tick converter (40_tick_converter): `ticks_for` and the engine's two constants. -/

namespace Sys2Proof.Machine

/-- `per_part(t, F)` (R112), the literal decomposition of the source; used only in `per_part` mode. -/
def perPart (t f : Nat) : Nat :=
  if t * f ≤ 2 ^ 32 - 1 then t * f / 10 ^ 9
  else
    let q := t / 1024
    let r := t % 1024
    let m := r / 64
    let k := r % 64
    q * f * 1024 / 10 ^ 9 + m * f * 64 / 10 ^ 9 + k * f / 10 ^ 9

/-- `ticks_for(t, d)` (R110, R111, R113), on unbounded naturals. -/
def ticksFor (cfg : Config) (t d : Nat) : Nat :=
  let f := cfg.clkHz / d
  if t = 0 then 0
  else
    match cfg.ticksMode with
    | .exact => t * f / 10 ^ 9
    | .perPart => perPart t f

/-- `BIT_TICKS` (R117, 43_gpio_engine R162). A period of `2^32` ns or more: log 29. -/
def bitTicks (cfg : Config) : Nat := ticksFor cfg cfg.bitPeriodNs cfg.timerDiv

/-- `RESET_TICKS` (R117, 43_gpio_engine R162). A duration of `2^32` ns or more: log 29. -/
def resetTicks (cfg : Config) : Nat := ticksFor cfg cfg.resetNs cfg.timerDiv

/-- `ticks_for` (op 0x21, R110): the ticks are the result; no state, no event, no fault. -/
def execTicksFor (t d : Nat) (s : State) : Host.Outcome State Fault Refusal :=
  .next (if ticksTyped s.cfg t d then returns (.ticks (ticksFor s.cfg t d)) s else refuse .unknownOperation s)

end Sys2Proof.Machine
end

