-- ==== Sys2Proof/Machine/Gpio.lean ====
section
/-! DEFINITION. The GPIO/timer transmission engine (43_gpio_engine): init, send, is_sending, the NMI handler and the
timer's step. -/

namespace Sys2Proof.Machine

/-! ### Init (R164) -/

/-- The slot-0 setup's register writes: "clearing control registers" (R164, 42_registry R149). -/
def gpioClearTimer (s : State) : State :=
  writeReg (.tmrPend false) (writeReg (.tmrLoad 0) (writeReg (.tmrAuto false) (writeReg (.tmrIe false)
    (writeReg (.tmrEn false) s))))

/-- The slot-0 setup (R164, R149): clear, draw the platform's attach result (R273), attach. -/
def gpioSetup (s : State) : Except State State :=
  let ok := Config.freeAttach s.draws
  let s₁ := (gpioClearTimer s).countDraw
  if ok then .ok (writeReg (.tmrHandler true) s₁) else .error (raise .host (.initHardwareFailure .gpio) s₁)

/-- The rest of a successful init: configuration, lines low, `IDLE`, `inited` (R164). -/
def gpioConfigure (c clkLine dataLine : Nat) (order : Order) (s : State) : State :=
  let s₁ := s.setGpio c { s.gpioCtx c with clkLine := clkLine, dataLine := dataLine, order := order }
  let s₂ := gpioWrite c .data false (gpioWrite c .clk false s₁)
  returns (.status .ok) (s₂.setGpio c { s₂.gpioCtx c with state := .idle, inited := true })

/-- `gpio.init` (R164). -/
def gpioInit (c clkLine dataLine : Nat) (order : Order) (s : State) : State :=
  if (s.gpioCtx c).inited then refuse .reInit s
  else if !admissible s.cfg || clkLine == dataLine then refuse .unsupportedConfig s
  else
    match registerIn s.regGpio c with
    | none => returns (.status .noCapacity) s
    | some (slot, reg) =>
      let s₁ := s.setRegistry .gpio reg
      if slot = 0 then
        match gpioSetup s₁ with
        | .error s₂ => s₂
        | .ok s₂ => gpioConfigure c clkLine dataLine order s₂
      else gpioConfigure c clkLine dataLine order s₁

/-- `gpio.init` (op 0x01, R164). -/
def execGpioInit (c clkLine dataLine : Nat) (order : Order) (s : State) : Host.Outcome State Fault Refusal :=
  .next (gpioInit c clkLine dataLine order s)

/-! ### Send (R165 to R168) -/

/-- `TMR.LOAD <- n` with the range check of R166: out of range, the write does not happen and the step raises
`TicksOutOfRange(n)`. -/
def loadTimer (a : Agent) (n : Nat) (s : State) : Except State State :=
  if 1 ≤ n ∧ n ≤ 2 ^ s.cfg.timerBits - 1 then .ok (writeReg (.tmrLoad n) s)
  else .error (raise a (.ticksOutOfRange n) s)

/-- The context of an accepted send (R165). -/
def gpioStarted (cfg : Config) (buf len : Nat) (x : GpioCtx) : GpioCtx :=
  { x with buf := buf, len := len, pix := 0, mask := firstMask cfg x.order, state := .sending }

/-- The timer of an accepted send: load, auto-reload, enable, and last the interrupt enable (R165). -/
def gpioArm (s : State) : Except State State :=
  match loadTimer .host (bitTicks s.cfg) s with
  | .error s₁ => .error s₁
  | .ok s₁ => .ok (writeReg (.tmrIe true) (writeReg (.tmrEn true) (writeReg (.tmrAuto true) s₁)))

/-- `gpio.send` (R165), checks in the order of R286. -/
def gpioSend (c buf len : Nat) (s : State) : State :=
  if !sendTyped s.cfg buf len then refuse .unknownOperation s
  else if !(s.gpioCtx c).inited then refuse .uninitialisedContext s
  else if (s.gpioCtx c).isSending then returns .void s
  else if len = 0 then returns .void s
  else if !gpioBufferOk s.cfg buf len then refuse .badBuffer s
  else
    match gpioArm (s.setGpio c (gpioStarted s.cfg buf len (s.gpioCtx c))) with
    | .error s₁ => s₁
    | .ok s₁ => returns .void s₁

/-- `gpio.send` (op 0x02, R165). -/
def execGpioSend (c buf len : Nat) (s : State) : Host.Outcome State Fault Refusal :=
  .next (gpioSend c buf len s)

/-- `gpio.is_sending` (op 0x03, R171): no state change and no event. -/
def execGpioIsSending (c : Nat) (s : State) : Host.Outcome State Fault Refusal :=
  .next (if (s.gpioCtx c).inited then returns (.bool (s.gpioCtx c).isSending) s
    else refuse .uninitialisedContext s)

/-! ### The NMI handler (R172 to R176) -/

/-- The cursor after one bit (R174). -/
def gpioAdvance (cfg : Config) (x : GpioCtx) : GpioCtx :=
  let y := if x.mask = lastMask cfg x.order then { x with pix := x.pix + 1, mask := firstMask cfg x.order }
    else { x with mask := nextMask x.order x.mask }
  if y.pix = y.len then { y with state := .finish } else y

/-- The line writes of one bit (R174): clock low, data, clock high. -/
def gpioPulse (c : Nat) (b : Bool) (s : State) : State :=
  gpioWrite c .clk true (gpioWrite c .data b (gpioWrite c .clk false s))

/-- `step_sending(c)` (R174). A read that is not admitted leaves the handler stuck (20_memory R67). -/
def stepSending (c : Nat) (s : State) : Host.Outcome State Fault Refusal :=
  let x := s.gpioCtx c
  match readPixel x.buf x.pix s with
  | none => .fault (.readNotAdmitted (pixelAddr x.buf x.pix))
  | some (w, s₁) =>
    let s₂ := gpioPulse c (maskedBit w x.mask) s₁
    .next (s₂.setGpio c (gpioAdvance s₂.cfg (s₂.gpioCtx c)))

/-- `step_finish(c)` (R173). -/
def stepFinish (c : Nat) (s : State) : State :=
  let s₁ := gpioWrite c .data false (gpioWrite c .clk false s)
  match loadTimer .nmiHandler (resetTicks s₁.cfg) s₁ with
  | .error s₂ => s₂
  | .ok s₂ => s₂.setGpio c { s₂.gpioCtx c with state := .reset }

/-- `step_reset(c)` (R175), also the step in `IDLE` (R176). -/
def stepReset (c : Nat) (s : State) : State :=
  let s₁ := writeReg (.tmrEn false) (writeReg (.tmrIe false) s)
  s₁.setGpio c { s₁.gpioCtx c with state := .idle }

/-- The guard of `gpio.nmi` (R172). -/
def nmiGuard (s : State) : Bool := s.tmr.pend && s.tmr.handler

/-- `gpio.nmi()` (R172): take the request, then step the context in slot 0 (42_registry R150). -/
def gpioNmi (s : State) : Host.Outcome State Fault Refusal :=
  let s₁ := writeReg (.tmrPend false) s
  match slotZero s₁.regGpio with
  | none => .next s₁
  | some c =>
    match (s₁.gpioCtx c).state with
    | .sending => stepSending c s₁
    | .finish => .next (stepFinish c s₁)
    | .reset => .next (stepReset c s₁)
    | .idle => .next (stepReset c s₁)

/-- `gpio.nmi` (op 0x04, R172). Its guard false, it is not a step (30_encoding R81, log 12). -/
def execGpioNmi (s : State) : Host.Outcome State Fault Refusal :=
  if nmiGuard s then gpioNmi s else .refused (.guardFalse .nmiHandler)

/-! ### The timer (R178) -/

/-- The guard of `tmr.expire` (R178, 70_reset_and_hazards R312). -/
def expireGuard (s : State) : Bool := s.tmr.en && s.tmr.handler

/-- One-shot: stop after this expiry (R178). -/
def stopOneShot (s : State) : State := if s.tmr.auto then s else writeReg (.tmrEn false) s

/-- `tmr.expire()` (R178). -/
def tmrExpire (s : State) : State :=
  let s₁ := s.log (.expire s.tmr.load)
  if s₁.tmr.ie then
    if s₁.tmr.pend then raise .timer (.bitDeadlineMissed s₁.tmr.load) s₁
    else stopOneShot (writeReg (.tmrPend true) s₁)
  else stopOneShot s₁

/-- `tmr.expire` (op 0x05, R178). -/
def execTmrExpire (s : State) : Host.Outcome State Fault Refusal :=
  if expireGuard s then .next (tmrExpire s) else .refused (.guardFalse .timer)

end Sys2Proof.Machine
end

