-- ==== Sys2Proof/Machine/Pwm.lean ====
section
/-! DEFINITION. The PWM nibble table and byte packing (41_pwm_table). The table is a constant (10_state R39):
`PWM[v]` is `pwmNibble v`. -/

namespace Sys2Proof.Machine

/-- `SLOT(1) = 6 = 0b110`, `SLOT(0) = 4 = 0b100` (R130). -/
def slotPattern (b : Bool) : BitVec 12 := if b then 6#12 else 4#12

/-- `pwm_nibble(v)` (R130): nibble bit `j` in bits `[3j+2:3j]`. -/
def pwmNibble (v : Nat) : BitVec 12 :=
  slotPattern (v.testBit 3) <<< 9 ||| slotPattern (v.testBit 2) <<< 6 ||| slotPattern (v.testBit 1) <<< 3
    ||| slotPattern (v.testBit 0)

/-- `pack_byte(b)` (R133): `PWM[b[7:4]]` in the upper half, `PWM[b[3:0]]` in the lower. -/
def packByte (b : Nat) : Word :=
  (pwmNibble (b / 16 % 16)).setWidth 32 <<< 16 ||| (pwmNibble (b % 16)).setWidth 32

/-- `pwm_nibble` (op 0x22, R130). -/
def execPwmNibble (v : Nat) (s : State) : Host.Outcome State Fault Refusal :=
  .next (if nibbleTyped v then returns (.pattern (pwmNibble v)) s else refuse .unknownOperation s)

/-- `pack_byte` (op 0x23, R133). -/
def execPackByte (b : Nat) (s : State) : Host.Outcome State Fault Refusal :=
  .next (if byteTyped b then returns (.word (packByte b)) s else refuse .unknownOperation s)

end Sys2Proof.Machine
end

