-- ==== Sys2Proof/Machine/Fifo.lean ====
section
/-! DEFINITION. The FIFO/serial transmission engine (44_fifo_engine): trailer length, init, the fill routine, send,
is_sending. -/

namespace Sys2Proof.Machine

/-! ### Trailer length (R206) -/

/-- `ceil_div(a, b)` (00_scope R9). -/
def ceilDiv (a b : Nat) : Nat := (a + b - 1) / b

/-- `trailer_len(nbytes)` (R206). -/
def trailerLen (cfg : Config) (nbytes : Nat) : Nat :=
  let t := ceilDiv cfg.resetNs cfg.sampleNs + cfg.advanceFrames
  if (cfg.insertedFrames + nbytes + t) % 2 = 1 then t + 1 else t

/-- `trailer_len` (op 0x24, R206). -/
def execTrailerLen (n : Nat) (s : State) : Host.Outcome State Fault Refusal :=
  .next (if nbytesTyped n then returns (.trailerWords (trailerLen s.cfg n)) s else refuse .unknownOperation s)

/-! ### Init (R203) -/

/-- The slot-0 setup's register writes up to the draw (R203). -/
def fifoClearSerializer (serCfg : Nat) (s : State) : State :=
  let s₁ := writeReg (.serIeEmpty false) (writeReg (.serIeNeed false) (writeReg (.serClkRun false) s))
  let s₂ := writeReg (.serClr 0xFFFFFFFF#32) s₁
  writeReg (.serCfg serCfg) (writeReg (.serInsPend 0) (writeReg .serFifoReset s₂))

/-- The slot-0 setup (R203, 42_registry R149): clear, draw the platform's attach result (R273), attach. -/
def fifoSetup (serCfg : Nat) (s : State) : Except State State :=
  let ok := Config.freeAttach s.draws
  let s₁ := (fifoClearSerializer serCfg s).countDraw
  if ok then .ok (writeReg (.serHandler true) s₁) else .error (raise .host (.initHardwareFailure .fifo) s₁)

/-- The rest of a successful init (R203). -/
def fifoConfigure (c : Nat) (s : State) : State :=
  returns (.status .ok) (s.setFifo c { s.fifoCtx c with order := .msb, state := .idle, inited := true })

/-- `fifo.init` (R203). -/
def fifoInit (c serCfg : Nat) (order : Order) (s : State) : State :=
  if (s.fifoCtx c).inited then refuse .reInit s
  else if !admissible s.cfg || order != .msb then refuse .unsupportedConfig s
  else
    match registerIn s.regFifo c with
    | none => returns (.status .noCapacity) s
    | some (slot, reg) =>
      let s₁ := s.setRegistry .fifo reg
      if slot = 0 then
        match fifoSetup serCfg s₁ with
        | .error s₂ => s₂
        | .ok s₂ => fifoConfigure c s₂
      else fifoConfigure c s₁

/-- `fifo.init` (op 0x11, R203). -/
def execFifoInit (c serCfg : Nat) (order : Order) (s : State) : Host.Outcome State Fault Refusal :=
  .next (fifoInit c serCfg order s)

/-! ### The fill routine (R212) -/

/-- The cursor after one byte (R212). -/
def fifoAdvance (cfg : Config) (x : FifoCtx) : FifoCtx :=
  if x.byteIdx + 1 = cfg.bpp / 8 then { x with pix := x.pix + 1, byteIdx := 0 }
  else { x with byteIdx := x.byteIdx + 1 }

/-- One data word (R212): read the pixel, push the packed byte, advance. An unadmitted read gives its address. -/
def pushData (c : Nat) (s : State) : Except Nat State :=
  let x := s.fifoCtx c
  match readPixel x.buf x.pix s with
  | none => .error (pixelAddr x.buf x.pix)
  | some (w, s₁) =>
    let s₂ := fifoPush (packByte (colourByte s.cfg w x.byteIdx)) s₁
    .ok (s₂.setFifo c (fifoAdvance s₂.cfg (s₂.fifoCtx c)))

/-- The data loop (R212): while the FIFO has room and pixel bytes remain. `room` bounds the passes: each pushes one
word, and the loop starts with `room = FIFO_DEPTH − level`. -/
def fillData (c : Nat) : Nat → State → Except Nat State
  | 0, s => .ok s
  | room + 1, s =>
    if (s.fifoCtx c).pix < (s.fifoCtx c).len then
      match pushData c s with
      | .error a => .error a
      | .ok s₁ => fillData c room s₁
    else .ok s

/-- One trailer word (R212, 30_encoding R86). -/
def pushTrailer (c : Nat) (s : State) : State :=
  let s₁ := fifoPush 0#32 s
  s₁.setFifo c { s₁.fifoCtx c with trailer := (s₁.fifoCtx c).trailer - 1 }

/-- The trailer loop (R212), bounded as the data loop is. -/
def fillTrailer (c : Nat) : Nat → State → State
  | 0, s => s
  | room + 1, s =>
    if (s.fifoCtx c).pix = (s.fifoCtx c).len ∧ 0 < (s.fifoCtx c).trailer then fillTrailer c room (pushTrailer c s)
    else s

/-- The exhaustion test at the end of a fill (R212). -/
def fillExhausted (c : Nat) (s : State) : State :=
  if (s.fifoCtx c).pix = (s.fifoCtx c).len ∧ (s.fifoCtx c).trailer = 0 then
    let s₁ := writeReg (.serIeEmpty true) (writeReg (.serIeNeed false) s)
    s₁.setFifo c { s₁.fifoCtx c with state := .reset }
  else s

/-- The room in the serializer FIFO. -/
def State.room (s : State) : Nat := s.cfg.fifoDepth - s.level

/-- `fill(c)` (R212). -/
def fill (c : Nat) (s : State) : Except Nat State :=
  match fillData c s.room s with
  | .error a => .error a
  | .ok s₁ => .ok (fillExhausted c (fillTrailer c s₁.room s₁))

/-- `fifo.fill` (op 0x14, R212): the effect that `fifo.send` and `ser.irq` run it for. No step performs it alone (R81,
log 14). -/
def execFifoFill (c : Nat) (s : State) : Host.Outcome State Fault Refusal :=
  match fill c s with
  | .error a => .fault (.readNotAdmitted a)
  | .ok s₁ => .next (returns .void s₁)

/-! ### Send (R204, R205) -/

/-- What the 32-bit field `trailer` (10_state R27) holds after `c.trailer <- n`: `n` where it fits, else a free value
(log 30). -/
def trailerField (n : Nat) : Nat := if n < 2 ^ 32 then n else (Config.freeTrailer n).toNat

/-- The context of an accepted send (R204). -/
def fifoStarted (cfg : Config) (buf len : Nat) (x : FifoCtx) : FifoCtx :=
  { x with
    buf := buf, len := len, pix := 0, byteIdx := 0
    trailer := trailerField (trailerLen cfg (len * (cfg.bpp / 8)))
    state := .sending }

/-- An accepted send up to the race check: the context written, the FIFO reset (R204). -/
def fifoStart (c buf len : Nat) (s : State) : State :=
  let s₁ := s.setFifo c (fifoStarted s.cfg buf len (s.fifoCtx c))
  writeReg (.serInsPend 0) (writeReg .serFifoReset s₁)

/-- The end of an accepted send: flags cleared, the inserted frame loaded, the clock started last (R204). -/
def fifoLaunch (s : State) : State :=
  let s₁ := writeReg (.serClr (needBit ||| emptyBit)) s
  writeReg (.serClkRun true) (writeReg (.serInsPend s₁.cfg.insertedFrames) s₁)

/-- An accepted `fifo.send` (R204), with the refill race check (R241), which reads `SER_ST` (20_memory R66). -/
def fifoAccepted (c buf len : Nat) (s : State) : Host.Outcome State Fault Refusal :=
  let s₁ := readStatus (fifoStart c buf len s)
  if s₁.stNeed then .next (raise .host (.sendRefillRace s₁.serSt) s₁)
  else
    match fill c (writeReg (.serIeNeed true) s₁) with
    | .error a => .fault (.readNotAdmitted a)
    | .ok s₂ => .next (returns .void (fifoLaunch s₂))

/-- `fifo.send` (op 0x12, R204), checks in the order of R286. -/
def execFifoSend (c buf len : Nat) (s : State) : Host.Outcome State Fault Refusal :=
  if !sendTyped s.cfg buf len then .next (refuse .unknownOperation s)
  else if !(s.fifoCtx c).inited then .next (refuse .uninitialisedContext s)
  else if (s.fifoCtx c).isSending then .next (returns .void s)
  else if len = 0 then .next (returns .void s)
  else if !fifoBufferOk s.cfg buf len then .next (refuse .badBuffer s)
  else fifoAccepted c buf len s

/-- `fifo.is_sending` (op 0x13, R221). -/
def execFifoIsSending (c : Nat) (s : State) : Host.Outcome State Fault Refusal :=
  .next (if (s.fifoCtx c).inited then returns (.bool (s.fifoCtx c).isSending) s
    else refuse .uninitialisedContext s)

end Sys2Proof.Machine
end

