-- ==== Sys2Proof/Machine/Serial.lean ====
section
/-! DEFINITION. The serializer interrupt with its shared-line dispatcher (44_fifo_engine R222 to R226), the serializer
drain (R230 to R232), the legacy logic (R234) and the derived waveform (R238). -/

namespace Sys2Proof.Machine

/-! ### The serializer handler -/

/-- The engine step in `RESET` (R225): the words in the FIFO stay there (R233). -/
def fifoStepReset (c : Nat) (s : State) : State :=
  let s₁ := writeReg (.serClkRun false) (writeReg (.serIeEmpty false) s)
  s₁.setFifo c { s₁.fifoCtx c with state := .idle }

/-- `fifo_step(c)` (R224 to R226). -/
def fifoStep (c : Nat) (s : State) : Host.Outcome State Fault Refusal :=
  match (s.fifoCtx c).state with
  | .sending =>
    match fill c s with
    | .error a => .fault (.readNotAdmitted a)
    | .ok s₁ => .next s₁
  | .reset => .next (fifoStepReset c s)
  | .idle => .next s
  | .trailer => .next (raise .serHandler (.unreachableState (FifoState.code .trailer)) s)

/-- The guard of `ser.irq` (R222). -/
def irqGuard (s : State) : Bool := s.serIrqLine && s.ser.handler

/-- The entry of the handler: read the shared status register and acknowledge every set bit (R222). -/
def irqAcknowledge (s : State) : State := writeReg (.serClr s.serSt) (readStatus s)

/-- `ser.irq()` (R222). -/
def serIrq (s : State) : Host.Outcome State Fault Refusal :=
  let snap := s.serSt
  let s₁ := irqAcknowledge s
  if s₁.ownConditions snap = 0#32 then .next s₁
  else
    match slotZero s₁.regFifo with
    | none => .next s₁
    | some c => fifoStep c s₁

/-- `ser.irq` (op 0x15, R222). Its guard false, it is not a step (30_encoding R81, log 12). -/
def execSerIrq (s : State) : Host.Outcome State Fault Refusal :=
  if irqGuard s then serIrq s else .refused (.guardFalse .serHandler)

/-! ### The drain -/

/-- The guard of `ser.drain` (R230, 70_reset_and_hazards R312). -/
def drainGuard (s : State) : Bool := s.ser.clkRun && s.ser.handler

/-- A drawn frame leaves the serializer and the underrun is recorded (R230, R232; free value, log 9). -/
def drainFree (s : State) : State :=
  (emitFrame (Config.freeFrame s.draws) s.countDraw).log .underrun

/-- The underrun of a drain (R230, R232): a fault in `TRAILER` or `SENDING`, a drawn frame otherwise. -/
def drainUnderrun (s : State) : Except State State :=
  match slotZero s.regFifo with
  | none => .ok (drainFree s)
  | some c =>
    match (s.fifoCtx c).state with
    | .trailer => .error (raise .serializer (.unreachableState (FifoState.code .trailer)) s)
    | .sending => .error (raise .serializer
        (.fifoUnderrun (s.fifoCtx c).pix (s.fifoCtx c).byteIdx (s.fifoCtx c).trailer) s)
    | .reset => .ok (drainFree s)
    | .idle => .ok (drainFree s)

/-- The frame of one drain (R230): the inserted frame (30_encoding R87), the head of the FIFO, or an underrun. -/
def drainFrame (s : State) : Except State State :=
  if 0 < s.ser.insPend then .ok (writeReg (.serInsPend (s.ser.insPend - 1)) (emitFrame 0#32 s))
  else
    match s.ser.fifo with
    | w :: _ => .ok (emitFrame w (writeReg .serFifoPop s))
    | [] => drainUnderrun s

/-- `ser.drain()` (R230): the frame, then `raise_status()` (R231) unless the step ended in a fault. -/
def serDrain (s : State) : State :=
  match drainFrame s with
  | .error s₁ => s₁
  | .ok s₁ => raiseStatus s₁

/-- `ser.drain` (op 0x16, R230). -/
def execSerDrain (s : State) : Host.Outcome State Fault Refusal :=
  if drainGuard s then .next (serDrain s) else .refused (.guardFalse .serializer)

/-! ### The legacy logic -/

/-- `legacy.raise` (op 0x17, R234): always enabled; `SER_ST <- SER_ST | bits`. DESIGN CHOICE (log 31): the `SER_ST` on the right is
no recorded read of the register (R66); HIST gets the write alone. -/
def execLegacyRaise (bits : Word) (s : State) : Host.Outcome State Fault Refusal :=
  .next (if legacyTyped s.cfg bits then writeReg (.serStLegacy bits) s else refuse .unknownOperation s)

/-! ### The derived waveform (R238, not normative; no step reads it) -/

/-- The output bits of an emitted frame in time order, for frame widths up to the word's 32 bits; the spec says nothing
about a wider frame (log 27). -/
def waveform (cfg : Config) (frame : Word) : Option (List Bool) :=
  if cfg.serBitsPerFrame ≤ 32 then
    some ((List.range cfg.serBitsPerFrame).map fun k =>
      frame.getLsbD (if cfg.serShiftMsbFirst then 31 - k else k))
  else none

end Sys2Proof.Machine
end

