-- ==== Sys2Proof/Machine/Dispatch.lean ====
section
/-! DEFINITION. One arm per operation of `LEDSER-OPS v1` (30_encoding R81). -/

namespace Sys2Proof.Machine

def exec (i : Instr) (s : State) : Host.Outcome State Fault Refusal :=
  match i with
  -- group 0: the GPIO engine and its timer
  | .gpioInit c k d o => Sys2Proof.Machine.execGpioInit c k d o s
  | .gpioSend c b n => Sys2Proof.Machine.execGpioSend c b n s
  | .gpioIsSending c => Sys2Proof.Machine.execGpioIsSending c s
  | .gpioNmi => Sys2Proof.Machine.execGpioNmi s
  | .tmrExpire => Sys2Proof.Machine.execTmrExpire s
  -- group 1: the FIFO engine, its serializer and the legacy logic
  | .fifoInit c g o => Sys2Proof.Machine.execFifoInit c g o s
  | .fifoSend c b n => Sys2Proof.Machine.execFifoSend c b n s
  | .fifoIsSending c => Sys2Proof.Machine.execFifoIsSending c s
  | .fifoFill c => Sys2Proof.Machine.execFifoFill c s
  | .serIrq => Sys2Proof.Machine.execSerIrq s
  | .serDrain => Sys2Proof.Machine.execSerDrain s
  | .legacyRaise bits => Sys2Proof.Machine.execLegacyRaise bits s
  -- group 2: pure functions and the registry
  | .ticksFor t d => Sys2Proof.Machine.execTicksFor t d s
  | .pwmNibble v => Sys2Proof.Machine.execPwmNibble v s
  | .packByte b => Sys2Proof.Machine.execPackByte b s
  | .trailerLen n => Sys2Proof.Machine.execTrailerLen n s
  | .register e c => Sys2Proof.Machine.execRegister e c s

end Sys2Proof.Machine
end

