-- ==== Sys2Proof/Machine/Schedule.lean ====
section
/-! DEFINITION. Which agent may take which step, and when (00_scope R15, 30_encoding R81, 60_exceptions R270, R290). -/

namespace Sys2Proof.Machine

/-- An operation has a next state. -/
def hasStep (o : Host.Outcome State Fault Refusal) : Bool :=
  match o with
  | .next _ => true
  | .fault _ => false
  | .refused _ => false

/-- `gpio.nmi` is enabled: its guard holds, its handler has not faulted (R270) and is not stuck (00_scope R12: "`stuck`
means the agent has no enabled step"). Log 13. -/
def nmiEnabled (s : State) : Bool := hasStep (execGpioNmi s) && !s.halted .nmiHandler

/-- `ser.irq` is enabled. Log 13. -/
def irqEnabled (s : State) : Bool := hasStep (execSerIrq s) && !s.halted .serHandler

/-- The scheduler rule of R290: while `gpio.nmi` is enabled no `ser.irq` step and no host step is taken; while `ser.irq`
is enabled no host step is taken; hardware agents are never held back. -/
def held (s : State) (a : Agent) : Bool :=
  match a with
  | .host => nmiEnabled s || irqEnabled s
  | .serHandler => nmiEnabled s
  | .nmiHandler => false
  | .timer => false
  | .serializer => false
  | .legacy => false

/-- Whose step an operation is (R81); `none` for the subroutines and for the pure functions, which are no agent's own. -/
def ownAgent (i : Instr) : Option Agent :=
  match i with
  | .gpioInit _ _ _ _ => some .host
  | .gpioSend _ _ _ => some .host
  | .gpioIsSending _ => some .host
  | .gpioNmi => some .nmiHandler
  | .tmrExpire => some .timer
  | .fifoInit _ _ _ => some .host
  | .fifoSend _ _ _ => some .host
  | .fifoIsSending _ => some .host
  | .fifoFill _ => none
  | .serIrq => some .serHandler
  | .serDrain => some .serializer
  | .legacyRaise _ => some .legacy
  | .ticksFor _ _ => none
  | .pwmNibble _ => none
  | .packByte _ => none
  | .trailerLen _ => none
  | .register _ _ => none

/-- The pure functions, which "may be evaluated by anyone" (R81, kind `fn`). -/
def isFn (i : Instr) : Bool :=
  match i with
  | .ticksFor _ _ => true
  | .pwmNibble _ => true
  | .packByte _ => true
  | .trailerLen _ => true
  | _ => false

/-- What the scheduler makes of a decoded entry. -/
inductive Admission where
  /-- The step is taken: it is `exec` of the operation. -/
  | taken
  /-- A host record naming an operation that is not the host's (R81, R280): refused `UnknownOperation`. -/
  | unknown
  /-- Not a step of the model, for this reason (R81, R257). -/
  | noStep (r : Refusal)
deriving DecidableEq, Repr

/-- Whether the agent of an entry may take the operation (R15, R81, R257, R280). A subroutine is no agent's step: it runs
inside the operation that calls it (R81, log 14). -/
def admission (a : Agent) (i : Instr) : Admission :=
  if isFn i || ownAgent i == some a then .taken
  else if a = .host then .unknown
  else .noStep (.notItsStep a)

/-- One scheduled entry, at a state whose schedule is the rest (log 1): a halted agent takes no step (R270), a held one
waits (R290), an invalid record is refused `UnknownOperation` (R93, R280), and an admitted operation runs. -/
def perform (e : Entry) (s : State) : Host.Outcome State Fault Refusal :=
  if s.halted e.agent then .refused (.agentHalted e.agent)
  else if held s e.agent then .refused (.heldByPriority e.agent)
  else
    match decode e.record with
    | .error _ => .next (refuse .unknownOperation s)
    | .ok i =>
      match admission e.agent i with
      | .taken => exec i s
      | .unknown => .next (refuse .unknownOperation s)
      | .noStep r => .refused r

/-- The agent that issues a record placed from outside (log 1): the one whose step its operation is; the host issues the
pure functions, and the subroutines and invalid records, which it is refused (R81, R280). -/
def placedAgent (record : List Byte) : Agent :=
  match decode record with
  | .error _ => .host
  | .ok i =>
    match ownAgent i with
    | some a => a
    | none => .host

/-- An entry for a record placed from outside (log 1). -/
def placedEntry (record : List Byte) : Entry := { agent := placedAgent record, record := record }

end Sys2Proof.Machine
end

