-- ==== Sys2Proof/Machine/Step.lean ====
section
/-! DEFINITION. One step of the machine: the head of the schedule is performed (log 1). -/

namespace Sys2Proof.Machine

/-- Performs the next entry of the schedule. -/
def step (s : State) : Host.Outcome State Fault Refusal :=
  match s.schedule with
  | [] => .refused .nothingScheduled
  | e :: rest => perform e { s with schedule := rest }

/-- `s` with the record of the table's bits `w` as the very next entry of the schedule, issued by the agent whose step
it is (log 1); a subroutine's is issued by the host, which is refused it (log 14). -/
def State.withFetchWord (s : State) (nbits w : Nat) : State :=
  { s with schedule := placedEntry (tableRecord nbits w) :: s.schedule }

end Sys2Proof.Machine
end

