-- ==== Sys2Proof/Safety.lean ====
section
/-! DEFINITION. What counts as a good state and a good run: the end of a run (45_driver_api R259), the scheduling
premises (70_reset_and_hazards R320 to R323), the invariants of the two engines, and the history replayed.

No step reads anything of this file. -/

namespace Sys2Proof.Machine

/-! ### The end of a run (R259) -/

/-- A final state: the host has no further operation, every inited context is `IDLE`, the timer and the serializer
clock are stopped or not owned, no engine condition is pending, FAULTS is empty and REFUSED false. -/
def State.final (s : State) : Bool :=
  s.schedule.all (fun e => e.agent != .host)
    && s.gpio.all (fun e => !e.2.inited || e.2.state == .idle)
    && s.fifo.all (fun e => !e.2.inited || e.2.state == .idle)
    && (!s.tmr.en || !s.tmr.handler) && (!s.ser.clkRun || !s.ser.handler)
    && (s.ownConditions s.serSt == 0#32 || !s.ser.handler)
    && s.faults.isEmpty && !s.refused

/-! ### Runs and the scheduling premises (R320 to R323) -/

/-- Agent `a` takes operation `i` from `s` to `t`: the operation is its own or a pure function, it has not faulted, no
higher level holds it, and the operation has that next state (00_scope R15, 60 R270, R290). -/
def Takes (a : Agent) (i : Instr) (s t : State) : Prop :=
  (ownAgent i = some a ∨ isFn i = true) ∧ s.halted a = false ∧ held s a = false ∧ exec i s = .next t

/-- Some step of agent `a` by operation `i` is enabled. -/
def Enabled (a : Agent) (i : Instr) (s : State) : Prop := ∃ t, Takes a i s t

/-- A run as the scheduler makes it: at each moment some agent takes a step, or nothing happens. -/
structure Run where
  state : Nat → State
  move : Nat → Option (Agent × Instr)

/-- Every move of the run is a step of its agent. -/
def Run.Valid (r : Run) : Prop :=
  ∀ n, match r.move n with
    | some (a, i) => Takes a i (r.state n) (r.state (n + 1))
    | none => r.state (n + 1) = r.state n

/-- `NMI_DEADLINE` (R320, 43_gpio_engine R181): between two `tmr.expire` steps with `TMR.IE = 1`, a `gpio.nmi` step
occurs. -/
def Run.NmiDeadline (r : Run) : Prop :=
  ∀ m n, m < n → r.move m = some (.timer, .tmrExpire) → (r.state m).tmr.ie = true →
    r.move n = some (.timer, .tmrExpire) → (r.state n).tmr.ie = true →
    ∃ k, m < k ∧ k < n ∧ r.move k = some (.nmiHandler, .gpioNmi)

/-- `SER_DEADLINE` (R321, 44_fifo_engine R239): whenever `SER_IRQ = 1`, a `ser.irq` step occurs before any `ser.drain`
step that finds no inserted frame pending and an empty FIFO. -/
def Run.SerDeadline (r : Run) : Prop :=
  ∀ m n, m ≤ n → (r.state m).serIrqLine = true → r.move n = some (.serializer, .serDrain) →
    (r.state n).ser.insPend = 0 → (r.state n).level = 0 →
    ∃ k, m ≤ k ∧ k < n ∧ r.move k = some (.serHandler, .serIrq)

/-- `FAIR` (R322): a handler step or hardware step that stays enabled is eventually taken. The legacy logic is an
environment agent and gets no fairness (R234, R323). A handler step that R290 holds back does not count as enabled here:
DESIGN CHOICE, log 26. -/
def Run.Fair (r : Run) : Prop :=
  ∀ p ∈ [(Agent.nmiHandler, Instr.gpioNmi), (.timer, .tmrExpire), (.serHandler, .serIrq), (.serializer, .serDrain)],
    ∀ m, (∀ n, m ≤ n → Enabled p.1 p.2 (r.state n)) → ∃ n, m ≤ n ∧ r.move n = some p

/-- `LEGACY_FINITE` (R323): the legacy logic raises bits finitely often. -/
def Run.LegacyFinite (r : Run) : Prop :=
  ∃ m, ∀ n, m ≤ n → ∀ bits, r.move n ≠ some (.legacy, .legacyRaise bits)

/-! ### Invariants -/

/-- Memory and the context tables are in canonical form. -/
def Canonical (s : State) : Prop :=
  Memory.wf s.mem = true ∧ canonical (gpioAtPowerOn s.cfg) s.gpio = true ∧ canonical fifoAtPowerOn s.fifo = true

/-- A word with exactly one bit set, below bit `n`. -/
def OneHotBelow (n : Nat) (m : Word) : Prop := ∃ k, k < n ∧ m = 1#32 <<< k

/-- What holds of the GPIO engine in every run: 10_state R26, 42_registry R149, 43_gpio_engine R170, 20_memory R65. -/
structure GpioInv (s : State) : Prop where
  /-- The registry has MAX_CTX_GPIO slots (R30). -/
  capacity : s.regGpio.length = s.cfg.maxCtxGpio
  /-- An inited context is the one in slot 0, of an admitted instance, with the handler attached. -/
  inited : ∀ c, (s.gpioCtx c).inited = true →
    slotZero s.regGpio = some c ∧ admissible s.cfg = true ∧ s.tmr.handler = true
  /-- The handler is attached only for an inited context (R288). -/
  attached : s.tmr.handler = true → ∃ c, slotZero s.regGpio = some c ∧ (s.gpioCtx c).inited = true
  /-- A transmission in progress has a buffer that R65 accepts. -/
  buffer : ∀ c, (s.gpioCtx c).inited = true → (s.gpioCtx c).state ≠ .idle →
    gpioBufferOk s.cfg (s.gpioCtx c).buf (s.gpioCtx c).len = true ∧ (s.gpioCtx c).len < 2 ^ 32
  /-- R26: in `SENDING`, `pix < len` and `mask` is one-hot in `[BPP−1:0]`. -/
  cursor : ∀ c, (s.gpioCtx c).inited = true → (s.gpioCtx c).state = .sending →
    (s.gpioCtx c).pix < (s.gpioCtx c).len ∧ OneHotBelow s.cfg.bpp (s.gpioCtx c).mask
  /-- After the last bit, every pixel is sent (R174). -/
  sent : ∀ c, (s.gpioCtx c).inited = true → (s.gpioCtx c).state = .finish ∨ (s.gpioCtx c).state = .reset →
    (s.gpioCtx c).pix = (s.gpioCtx c).len
  /-- R170: while `IDLE`, the timer is stopped and no NMI is pending. -/
  idle : ∀ c, (s.gpioCtx c).inited = true → (s.gpioCtx c).state = .idle →
    s.tmr.en = false ∧ s.tmr.ie = false ∧ s.tmr.pend = false
  /-- The timer and its interrupt are enabled together, with auto-reload; a pending request has them enabled. -/
  armed : s.tmr.handler = true →
    s.tmr.ie = s.tmr.en ∧ (s.tmr.en = true → s.tmr.auto = true) ∧ (s.tmr.pend = true → s.tmr.en = true)
  /-- The field widths of R24 (log 20). -/
  widths : ∀ c, (s.gpioCtx c).buf < 2 ^ s.cfg.addrBits ∧ (s.gpioCtx c).len < 2 ^ 32 ∧ (s.gpioCtx c).pix < 2 ^ 32
  /-- The width of `TMR.LOAD` (R32, log 20). -/
  load : s.tmr.load < 2 ^ s.cfg.timerBits

/-- What holds of the FIFO engine in every run: 10_state R28, R29, R34, 44_fifo_engine R226, R241. -/
structure FifoInv (s : State) : Prop where
  /-- The registry has MAX_CTX_FIFO slots (R30). -/
  capacity : s.regFifo.length = s.cfg.maxCtxFifo
  /-- An inited context is the one in slot 0, of an admitted instance, with the handler attached. -/
  inited : ∀ c, (s.fifoCtx c).inited = true →
    slotZero s.regFifo = some c ∧ admissible s.cfg = true ∧ s.ser.handler = true
  /-- The handler is attached only for an inited context (R288). -/
  attached : s.ser.handler = true → ∃ c, slotZero s.regFifo = some c ∧ (s.fifoCtx c).inited = true
  /-- R278: no run enters `TRAILER`. -/
  noTrailer : ∀ c, (s.fifoCtx c).inited = true → (s.fifoCtx c).state ≠ .trailer
  /-- A transmission in progress has a buffer that R65 accepts. -/
  buffer : ∀ c, (s.fifoCtx c).inited = true → (s.fifoCtx c).state ≠ .idle →
    fifoBufferOk s.cfg (s.fifoCtx c).buf (s.fifoCtx c).len = true ∧ (s.fifoCtx c).len < 2 ^ 32
  /-- R29: the cursor of `SENDING` and `RESET`. -/
  cursor : ∀ c, (s.fifoCtx c).inited = true → (s.fifoCtx c).state = .sending ∨ (s.fifoCtx c).state = .reset →
    (s.fifoCtx c).pix ≤ (s.fifoCtx c).len ∧ (s.fifoCtx c).byteIdx < s.cfg.bpp / 8 ∧
      ((s.fifoCtx c).pix = (s.fifoCtx c).len → (s.fifoCtx c).byteIdx = 0)
  /-- `SENDING` has words left; only NEED is enabled and the clock runs (R204, R212). -/
  sending : ∀ c, (s.fifoCtx c).inited = true → (s.fifoCtx c).state = .sending →
    ¬((s.fifoCtx c).pix = (s.fifoCtx c).len ∧ (s.fifoCtx c).trailer = 0) ∧
      s.ieNeed = true ∧ s.ieEmpty = false ∧ s.ser.clkRun = true
  /-- `RESET` has nothing left (R29); only EMPTY is enabled and the clock runs (R212). -/
  reset : ∀ c, (s.fifoCtx c).inited = true → (s.fifoCtx c).state = .reset →
    (s.fifoCtx c).pix = (s.fifoCtx c).len ∧ (s.fifoCtx c).trailer = 0 ∧
      s.ieNeed = false ∧ s.ieEmpty = true ∧ s.ser.clkRun = true
  /-- R226, R241: in `IDLE` no engine condition is enabled, NEED and EMPTY are clear, the clock is stopped. -/
  idle : ∀ c, (s.fifoCtx c).inited = true → (s.fifoCtx c).state = .idle →
    s.ieNeed = false ∧ s.ieEmpty = false ∧ s.stNeed = false ∧ s.stEmpty = false ∧ s.ser.clkRun = false
  /-- R34: at most FIFO_DEPTH words are queued. -/
  level : s.ser.handler = true → s.level ≤ s.cfg.fifoDepth
  /-- R34: at most INSERTED_FRAMES inserted frames are pending. -/
  inserted : s.ser.handler = true → s.ser.insPend ≤ s.cfg.insertedFrames
  /-- R34: the block never changes the legacy enables. -/
  legacyEnables :
    s.serIe &&& s.cfg.legacyMask = if s.cfg.legacyIe then s.cfg.legacyMask else 0#32
  /-- The field widths of R27 (log 20). -/
  widths : ∀ c, (s.fifoCtx c).buf < 2 ^ s.cfg.addrBits ∧ (s.fifoCtx c).len < 2 ^ 32 ∧ (s.fifoCtx c).pix < 2 ^ 32 ∧
    (s.fifoCtx c).byteIdx < 2 ^ 8 ∧ (s.fifoCtx c).trailer < 2 ^ 32

/-! ### What a step leaves as it was -/

/-- The parameters, every byte of memory and the rest of the schedule are as before. -/
def SameWorld (s t : State) : Prop :=
  t.cfg = s.cfg ∧ (∀ a, readByte t.mem a = readByte s.mem a) ∧ t.schedule = s.schedule

/-- The GPIO engine's side of the state is as before: contexts and lines, registry, timer. -/
def SameGpioSide (s t : State) : Prop :=
  (∀ c, t.gpioCtx c = s.gpioCtx c) ∧ t.regGpio = s.regGpio ∧ t.tmr = s.tmr

/-- The FIFO engine's side of the state is as before: contexts, registry, serializer. -/
def SameFifoSide (s t : State) : Prop :=
  (∀ c, t.fifoCtx c = s.fifoCtx c) ∧ t.regFifo = s.regFifo ∧ t.ser = s.ser

/-- Of the GPIO contexts only `c` changed, and it is now `x`. -/
def OnlyGpioCtx (s t : State) (c : Nat) (x : GpioCtx) : Prop :=
  t.gpioCtx c = x ∧ ∀ c', c' ≠ c → t.gpioCtx c' = s.gpioCtx c'

/-- Of the FIFO contexts only `c` changed, and it is now `x`. -/
def OnlyFifoCtx (s t : State) (c : Nat) (x : FifoCtx) : Prop :=
  t.fifoCtx c = x ∧ ∀ c', c' ≠ c → t.fifoCtx c' = s.fifoCtx c'

/-- No fault, refusal or draw happened. -/
def NoFaultOrDraw (s t : State) : Prop := t.faults = s.faults ∧ t.refused = s.refused ∧ t.draws = s.draws

/-- The fault record `r` has been added to the set FAULTS and nothing was refused or drawn. -/
def Raised (s t : State) (r : FaultRecord) : Prop :=
  t.faults = (if r ∈ s.faults then s.faults else s.faults ++ [r]) ∧ t.refused = s.refused ∧ t.draws = s.draws

/-! ### The history replayed -/

/-- The control registers after one event: every change of `TMR` and `SER` is an event of HIST (R37, R66). -/
def replayEvent (cfg : Config) (r : Tmr × Ser) (e : Event) : Tmr × Ser :=
  match e with
  | .regWrite w => (tmrEffect w r.1, serEffect cfg w r.2)
  | .fifoPush w => (r.1, { r.2 with fifo := r.2.fifo ++ [w] })
  | _ => r

/-- The control registers a history leaves, from power-on (log 5, log 6). -/
def replay (cfg : Config) (h : List Event) : Tmr × Ser :=
  h.foldl (replayEvent cfg) (Tmr.powerOn, Ser.powerOn cfg)

/-- The control registers are exactly what HIST says was written. -/
def HistoryComplete (s : State) : Prop := (s.tmr, s.ser) = replay s.cfg s.hist

/-! ### The word stream of a FIFO transmission (44_fifo_engine R213, R235) -/

/-- `byte(i, k)` of the pixel word `w = P(i)`: its bits `[BPP−1−8k : BPP−8−8k]` (30_encoding R88). -/
def byteOf (cfg : Config) (w : Word) (k : Nat) : Nat := (w.extractLsb' (cfg.bpp - 8 - 8 * k) 8).toNat

/-- Word `q` of the stream of a buffer of `len` pixels: the packed byte `q mod n` of pixel `q div n` with `n = BPP/8`, or
`none` where that pixel's read is not admitted; after the data, the zero trailer (R86). -/
def streamWord (cfg : Config) (m : List Host.Cell) (buf len q : Nat) : Option Word :=
  if q / (cfg.bpp / 8) < len then
    (pixelWord cfg m buf (q / (cfg.bpp / 8))).map fun w => packByte (byteOf cfg w (q % (cfg.bpp / 8)))
  else some 0#32

/-- Where the cursor of a FIFO context stands in its stream. -/
def FifoCtx.position (cfg : Config) (x : FifoCtx) : Nat := x.pix * (cfg.bpp / 8) + x.byteIdx

/-- How many data words a FIFO context has still to push. -/
def FifoCtx.dataLeft (cfg : Config) (x : FifoCtx) : Nat := (x.len - x.pix) * (cfg.bpp / 8) - x.byteIdx

/-- How many words a FIFO context has still to push: the data, then the trailer. -/
def FifoCtx.wordsLeft (cfg : Config) (x : FifoCtx) : Nat := x.dataLeft cfg + x.trailer

/-- The word that the context `c` pushes as its `j`-th from now, or `none` where its read is not admitted. -/
def nextWord (s : State) (c j : Nat) : Option Word :=
  streamWord s.cfg s.mem (s.fifoCtx c).buf (s.fifoCtx c).len ((s.fifoCtx c).position s.cfg + j)

/-! ### A GPIO transmission, step by step (43_gpio_engine R177) -/

/-- One bit period: the timer expires and the handler takes the request. -/
def bitPeriod (s : State) : Host.Outcome State Fault Refusal :=
  match exec .tmrExpire s with
  | .next t => exec .gpioNmi t
  | .fault r => .fault r
  | .refused r => .refused r

/-- `k` bit periods, stopping where one has no next state. -/
def bitPeriods : Nat → State → Host.Outcome State Fault Refusal
  | 0, s => .next s
  | k + 1, s =>
    match bitPeriod s with
    | .next t => bitPeriods k t
    | .fault r => .fault r
    | .refused r => .refused r

/-- The data-line levels a history wrote while the clock was low just before a clock rise, in order: the bits the GPIO
engine sent (R180). -/
def sentBits (c : Nat) : List Event → List Bool
  | .gpioWrite c₁ .data b :: .gpioWrite c₂ .clk true :: rest =>
    if c₁ = c ∧ c₂ = c then b :: sentBits c rest else sentBits c rest
  | _ :: rest => sentBits c rest
  | [] => []

/-- A write of an output line. -/
def isLineWrite (e : Event) : Bool :=
  match e with
  | .gpioWrite _ _ _ => true
  | _ => false

/-- A read of the pixel buffer. -/
def isMemRead (e : Event) : Bool :=
  match e with
  | .memRead _ _ => true
  | _ => false

/-- The bits of `n` pixels from index `i` on, in transmission order (20_memory R64), if all are admitted. -/
def bufferBits (cfg : Config) (m : List Host.Cell) (order : Order) (buf : Nat) : Nat → Nat → Option (List Bool)
  | _, 0 => some []
  | i, n + 1 =>
    match pixelWord cfg m buf i, bufferBits cfg m order buf (i + 1) n with
    | some w, some rest =>
      some ((List.range cfg.bpp).map (fun j =>
        w.getLsbD (match order with
          | .msb => cfg.bpp - 1 - j
          | .lsb => j)) ++ rest)
    | _, _ => none

end Sys2Proof.Machine
end

