-- ==== Sys2Proof/Certificates/Slice0/Obligations.lean ====
section
/-! DEFINITION. The statements about the model, for the provers. Each docstring says which rule of spec/ it formalises.
Every statement holds for every instance (the parameters are the field `cfg` of State, log 2) and for every value of the
free values (logs 8, 9 and 30). -/

open Sys2Proof Sys2Proof.Machine

/-! ### Encoding (30_encoding) -/

/-- R81, R82: each of the table's seventeen ids selects its operation. The records are written out byte by byte in the layout of
log 3 (33 bytes: the id, then four operand slots of 8 bytes, least significant byte first), which is the model's choice. -/
def Obligations.TableWordsDecodeToTheirOperations : Prop :=
  let slot (lo hi : Byte) : List Byte := [lo, hi, 0#8, 0#8, 0#8, 0#8, 0#8, 0#8]
  let record (op : Byte) (a b c d : List Byte) : List Byte := op :: (a ++ b ++ c ++ d)
  let z : List Byte := slot 0#8 0#8
  decode (record 0x01#8 (slot 7#8 0#8) (slot 4#8 0#8) (slot 5#8 0#8) (slot 1#8 0#8)) = .ok (.gpioInit 7 4 5 .lsb) ∧
  decode (record 0x02#8 (slot 1#8 0#8) (slot 0x34#8 0x12#8) (slot 3#8 0#8) z) = .ok (.gpioSend 1 0x1234 3) ∧
  decode (record 0x03#8 (slot 9#8 0#8) z z z) = .ok (.gpioIsSending 9) ∧
  decode (record 0x04#8 z z z z) = .ok .gpioNmi ∧
  decode (record 0x05#8 z z z z) = .ok .tmrExpire ∧
  decode (record 0x11#8 (slot 2#8 0#8) (slot 0x78#8 0x56#8) (slot 1#8 0#8) z) = .ok (.fifoInit 2 0x5678 .lsb) ∧
  decode (record 0x12#8 (slot 1#8 0#8) (slot 0x00#8 0x20#8) (slot 5#8 0#8) z) = .ok (.fifoSend 1 0x2000 5) ∧
  decode (record 0x13#8 (slot 3#8 0#8) z z z) = .ok (.fifoIsSending 3) ∧
  decode (record 0x14#8 (slot 6#8 0#8) z z z) = .ok (.fifoFill 6) ∧
  decode (record 0x15#8 z z z z) = .ok .serIrq ∧
  decode (record 0x16#8 z z z z) = .ok .serDrain ∧
  decode (record 0x17#8 (slot 4#8 1#8) z z z) = .ok (.legacyRaise 0x104#32) ∧
  decode (record 0x21#8 (slot 0xE2#8 0x04#8) (slot 16#8 0#8) z z) = .ok (.ticksFor 1250 16) ∧
  decode (record 0x22#8 (slot 10#8 0#8) z z z) = .ok (.pwmNibble 10) ∧
  decode (record 0x23#8 (slot 0xA5#8 0#8) z z z) = .ok (.packByte 0xA5) ∧
  decode (record 0x24#8 (slot 0#8 1#8) z z z) = .ok (.trailerLen 256) ∧
  decode (record 0x25#8 (slot 1#8 0#8) (slot 3#8 0#8) z z) = .ok (.register .fifo 3)

/-- The record of every operation with operands of their types decodes to that operation: no operand value is lost. -/
def Obligations.DecodeOfEncodeIsTheOperation : Prop :=
  ∀ i : Instr, i.wf = true → decode (encode i) = .ok i

/-- Each record has at most one meaning, and each operation one record: what decodes is the record the encoder writes, with
operands of their types (R93). -/
def Obligations.EncodeOfDecodeIsTheRecord : Prop :=
  ∀ (bytes : List Byte) (i : Instr), decode bytes = .ok i → encode i = bytes ∧ i.wf = true

/-- R94: an id decodes with some operands exactly when it is not one of the reserved ids `0x00`, `0x06` to `0x10`, `0x18` to
`0x20`, `0x26` to `0xFF`. -/
def Obligations.ExactlyTheReservedIdsAreInvalid : Prop :=
  ∀ op : Byte, (∀ (operands : List Byte) (i : Instr), decode (op :: operands) ≠ .ok i) ↔
    (op = 0x00#8 ∨ (0x06 ≤ op.toNat ∧ op.toNat ≤ 0x10) ∨ (0x18 ≤ op.toNat ∧ op.toNat ≤ 0x20) ∨ 0x26 ≤ op.toNat)

/-! ### Pixel memory (20_memory) -/

/-- R61, R63, R67: pixel word `i` of a buffer is the 32-bit value of the four bytes at `buf + 4·i`, in the order MEM_ENDIAN says; it
is not admitted where one of the bytes is not (an unlisted byte, log 7) or the address space ends before its last byte. -/
def Obligations.PixelWordIsItsFourBytes : Prop :=
  ∀ (cfg : Config) (m : List Host.Cell) (buf i : Nat),
    (∀ b₀ b₁ b₂ b₃ : Byte, buf + 4 * i + 4 ≤ 2 ^ cfg.addrBits →
      readByte m (buf + 4 * i) = some b₀ → readByte m (buf + 4 * i + 1) = some b₁ →
      readByte m (buf + 4 * i + 2) = some b₂ → readByte m (buf + 4 * i + 3) = some b₃ →
      pixelWord cfg m buf i = some (match cfg.memEndian with
        | .little => b₃ ++ b₂ ++ b₁ ++ b₀
        | .big => b₀ ++ b₁ ++ b₂ ++ b₃)) ∧
    (2 ^ cfg.addrBits < buf + 4 * i + 4 ∨ (∃ k, k < 4 ∧ readByte m (buf + 4 * i + k) = none) →
      pixelWord cfg m buf i = none)

/-! ### Scheduling (00_scope R15, 30 R81, 60 R270, R290) -/

/-- A step runs the decoded operation: where the next entry's agent has not faulted, no higher level holds it, its record
decodes to `i` and the agent may take `i`, the step is `exec i` at the state with the entry taken off the schedule. -/
def Obligations.StepRunsTheDecodedOperation : Prop :=
  ∀ (s : State) (e : Entry) (rest : List Entry) (i : Instr), s.schedule = e :: rest →
    s.halted e.agent = false → held { s with schedule := rest } e.agent = false →
    decode e.record = .ok i → admission e.agent i = .taken →
    step s = exec i { s with schedule := rest }

/-- R15, R81 (the column `agent` spelled out), R280: where the next entry's agent has not faulted and no higher level holds it, the
decoded operation is performed if it is the agent's own or a pure function, which anyone may evaluate. Any other operation is not:
a host record naming it is refused `UnknownOperation`, and any other agent's entry is not a step (log 12). A subroutine is no
agent's step (log 14). -/
def Obligations.AgentsTakeExactlyTheirOwnOperations : Prop :=
  ∀ (s : State) (e : Entry) (rest : List Entry) (i : Instr), s.schedule = e :: rest →
    s.halted e.agent = false → held { s with schedule := rest } e.agent = false → decode e.record = .ok i →
    let own : Prop := match i with
      | .gpioInit _ _ _ _ | .gpioSend _ _ _ | .gpioIsSending _ | .fifoInit _ _ _ | .fifoSend _ _ _ | .fifoIsSending _ =>
        e.agent = .host
      | .gpioNmi => e.agent = .nmiHandler
      | .tmrExpire => e.agent = .timer
      | .serIrq => e.agent = .serHandler
      | .serDrain => e.agent = .serializer
      | .legacyRaise _ => e.agent = .legacy
      | .ticksFor _ _ | .pwmNibble _ | .packByte _ | .trailerLen _ => True
      | .fifoFill _ | .register _ _ => False
    (own → admission e.agent i = .taken ∧ step s = exec i { s with schedule := rest }) ∧
    (¬own → e.agent = .host →
      step s = .next { s with schedule := rest, refused := true, ret := .refused .unknownOperation }) ∧
    (¬own → e.agent ≠ .host → step s = .refused (.notItsStep e.agent))

/-- R81 (quoted sentence), with what a refusal does (R271): a host record naming an interrupt step, a hardware step or a
subroutine sets REFUSED and does nothing else. -/
def Obligations.HostRecordOfAnotherAgentIsRefused : Prop :=
  ∀ (s : State) (e : Entry) (rest : List Entry) (i : Instr), s.schedule = e :: rest →
    e.agent = .host → s.halted .host = false → held { s with schedule := rest } .host = false →
    decode e.record = .ok i →
    (i = .gpioNmi ∨ i = .tmrExpire ∨ i = .serIrq ∨ i = .serDrain ∨ (∃ b, i = .legacyRaise b) ∨ (∃ c, i = .fifoFill c) ∨
      ∃ r c, i = .register r c) →
    step s = .next { s with schedule := rest, refused := true, ret := .refused .unknownOperation }

/-- R93: a record that is invalid is refused `UnknownOperation`: REFUSED is set and nothing else happens. -/
def Obligations.InvalidRecordIsRefused : Prop :=
  ∀ (s : State) (e : Entry) (rest : List Entry) (err : DecodeError), s.schedule = e :: rest →
    s.halted e.agent = false → held { s with schedule := rest } e.agent = false → decode e.record = .error err →
    step s = .next { s with schedule := rest, refused := true, ret := .refused .unknownOperation }

/-- R290, exactly: an entry whose agent has not faulted is held back if and only if it is the host's or the serializer handler's
while `gpio.nmi` is enabled, or the host's while `ser.irq` is enabled; so the NMI handler and the hardware agents are never held
back. A handler's step is enabled when it has a next state and its agent has not faulted, as log 13 reads the rule. -/
def Obligations.HigherLevelsHoldLowerLevels : Prop :=
  ∀ (s : State) (e : Entry) (rest : List Entry), s.schedule = e :: rest →
    (∀ k, (⟨e.agent, k⟩ : FaultRecord) ∉ s.faults) →
    let nmi : Prop := (∃ t, exec .gpioNmi { s with schedule := rest } = .next t) ∧
      ∀ k, (⟨.nmiHandler, k⟩ : FaultRecord) ∉ s.faults
    let irq : Prop := (∃ t, exec .serIrq { s with schedule := rest } = .next t) ∧
      ∀ k, (⟨.serHandler, k⟩ : FaultRecord) ∉ s.faults
    (step s = .refused (.heldByPriority e.agent) ↔
      (nmi ∧ (e.agent = .host ∨ e.agent = .serHandler)) ∨ (irq ∧ e.agent = .host))

/-- R270: an agent that has raised a fault takes no further step. -/
def Obligations.HaltedAgentTakesNoStep : Prop :=
  ∀ (s : State) (e : Entry) (rest : List Entry) (k : FaultKind), s.schedule = e :: rest →
    (⟨e.agent, k⟩ : FaultRecord) ∈ s.faults → step s = .refused (.agentHalted e.agent)

/-- R172, R178, R222, R230 and log 12: the timer's and the serializer's steps, and the two handlers' steps but for a read
that is not admitted, exist exactly where their guards hold. -/
def Obligations.AgentStepsExistExactlyWhereTheirGuardsHold : Prop :=
  ∀ s : State,
    ((∃ t, exec .tmrExpire s = .next t) ↔ s.tmr.en = true ∧ s.tmr.handler = true) ∧
    ((∃ t, exec .serDrain s = .next t) ↔ s.ser.clkRun = true ∧ s.ser.handler = true) ∧
    (exec .gpioNmi s = .refused (.guardFalse .nmiHandler) ↔ ¬(s.tmr.pend = true ∧ s.tmr.handler = true)) ∧
    (exec .serIrq s = .refused (.guardFalse .serHandler) ↔ ¬(s.serSt &&& s.serIe ≠ 0#32 ∧ s.ser.handler = true))

/-! ### Whole-machine rules -/

/-- R60, R20: no step changes a parameter or a byte of memory. -/
def Obligations.NoStepWritesMemoryOrParameters : Prop :=
  ∀ s t : State, step s = .next t → t.cfg = s.cfg ∧ ∀ a, readByte t.mem a = readByte s.mem a

/-- R37, R270, R271, R286: over a step HIST only grows at its end, REFUSED is never cleared, and FAULTS keeps every record and gains
at most one, of the agent that took the step. The schedule, and that a step takes one entry off it, is the model's (log 1,
DESIGN CHOICE), and so is FAULTS as a list that grows at its end (log 22, DESIGN CHOICE): the spec has a set. -/
def Obligations.BookkeepingOnlyGrows : Prop :=
  ∀ s t : State, step s = .next t →
    ∃ e rest, s.schedule = e :: rest ∧ t.schedule = rest ∧ (∃ events, t.hist = s.hist ++ events) ∧
      (s.refused = true → t.refused = true) ∧
      (t.faults = s.faults ∨ ∃ k, t.faults = s.faults ++ [⟨e.agent, k⟩])

/-- R148: no operation writes `EMPTY` into a slot; a slot that refers to a context refers to it after every step. -/
def Obligations.RegistrySlotsAreNeverEmptied : Prop :=
  ∀ s t : State, step s = .next t → ∀ k c : Nat,
    (s.regGpio[k]? = some (some c) → t.regGpio[k]? = some (some c)) ∧
    (s.regFifo[k]? = some (some c) → t.regFifo[k]? = some (some c))

/-- Every step keeps memory and the context tables in canonical form. -/
def Obligations.StepKeepsCanonicalForm : Prop :=
  ∀ s t : State, Canonical s → step s = .next t → Canonical t

/-- R37, R66: every step keeps HIST a complete account of the control registers: replaying it from power-on gives exactly the
timer and the serializer. (What is recorded is log 15; the power-on values are logs 5 and 6.) -/
def Obligations.StepKeepsHistoryComplete : Prop :=
  ∀ s t : State, HistoryComplete s → step s = .next t → HistoryComplete t

/-- Every step keeps the invariant of the GPIO engine (R26, R65, R170, R288), with the widths of its fields (R24, R32). -/
def Obligations.StepKeepsGpioInvariant : Prop :=
  ∀ s t : State, GpioInv s → step s = .next t → GpioInv t

/-- Every step keeps the invariant of the FIFO engine (R28, R29, R34, R226, R241, R278), with the widths of its fields
(R27). -/
def Obligations.StepKeepsFifoInvariant : Prop :=
  ∀ s t : State, FifoInv s → step s = .next t → FifoInv t

/-- The invariants hold at power-on of every instance, and at reset. -/
def Obligations.PowerOnMeetsTheInvariants : Prop :=
  (∀ cfg : Config, Canonical (State.powerOn cfg) ∧ HistoryComplete (State.powerOn cfg) ∧ GpioInv (State.powerOn cfg) ∧
    FifoInv (State.powerOn cfg)) ∧
  Canonical State.reset ∧ HistoryComplete State.reset ∧ GpioInv State.reset ∧ FifoInv State.reset

/-- R310, the values the spec gives at power-on: every slot `EMPTY`, no context inited, every context's order the configured one
(the configuration's form is log 28), both handlers detached, the legacy enables LEGACY_IE, FAULTS, REFUSED and HIST initial. -/
def Obligations.PowerOnHasTheSpecifiedValues : Prop :=
  ∀ cfg : Config,
    (State.powerOn cfg).cfg = cfg ∧
    (State.powerOn cfg).regGpio = List.replicate cfg.maxCtxGpio none ∧
    (State.powerOn cfg).regFifo = List.replicate cfg.maxCtxFifo none ∧
    (∀ c, ((State.powerOn cfg).gpioCtx c).inited = false ∧ ((State.powerOn cfg).fifoCtx c).inited = false) ∧
    (∀ c, ((State.powerOn cfg).gpioCtx c).order = (if c ∈ cfg.gpioLsb then .lsb else .msb) ∧
      ((State.powerOn cfg).fifoCtx c).order = .msb) ∧
    (State.powerOn cfg).tmr.handler = false ∧ (State.powerOn cfg).ser.handler = false ∧
    (State.powerOn cfg).serIe &&& cfg.legacyMask = (if cfg.legacyIe then cfg.legacyMask else 0#32) ∧
    (State.powerOn cfg).faults = [] ∧ (State.powerOn cfg).refused = false ∧ (State.powerOn cfg).hist = []

/-- R300: no operation of one engine (with its peripheral, its registry, and the legacy logic on the FIFO's side) changes the
other engine's side of the state. -/
def Obligations.EnginesTouchDisjointState : Prop :=
  ∀ (i : Instr) (s t : State), exec i s = .next t →
    ((match i with
      | .gpioInit _ _ _ _ | .gpioSend _ _ _ | .gpioIsSending _ | .gpioNmi | .tmrExpire | .register .gpio _ => True
      | _ => False) → SameFifoSide s t) ∧
    ((match i with
      | .fifoInit _ _ _ | .fifoSend _ _ _ | .fifoIsSending _ | .fifoFill _ | .serIrq | .serDrain | .legacyRaise _
      | .register .fifo _ => True
      | _ => False) → SameGpioSide s t) ∧
    SameWorld s t

/-- R291: an NMI step commutes with every step of the FIFO engine and of the host's FIFO operations: from the same state, both
orders end in the same state, with the same events in HIST in another order and the same records in FAULTS (which log 22 holds as
a list; that a set has no order is R37's). -/
def Obligations.NmiCommutesWithTheFifoEngine : Prop :=
  ∀ (i : Instr) (s t u v w : State),
    (match i with
      | .fifoInit _ _ _ | .fifoSend _ _ _ | .fifoIsSending _ | .fifoFill _ | .serIrq | .serDrain | .legacyRaise _
      | .register .fifo _ => True
      | _ => False) →
    exec .gpioNmi s = .next t → exec i t = .next u → exec i s = .next v → exec .gpioNmi v = .next w →
    { u with hist := [], faults := [] } = { w with hist := [], faults := [] } ∧ u.hist.Perm w.hist ∧
      ∀ r, r ∈ u.faults ↔ r ∈ w.faults

/-! ### Init (43 R164, 44 R203, 42 R147, R149) -/

/-- R164: `gpio.init` of a context that takes slot 0 runs the global setup. If the platform's attach succeeds (a free value,
log 8) the handler is attached, the context configured, both lines driven low and `OK` returned; if not, the fault
`InitHardwareFailure` is raised after the registers are cleared, the slot stays taken and the handler is not attached. -/
def Obligations.GpioInitOfSlotZero : Prop :=
  ∀ (s : State) (c clkLine dataLine : Nat) (order : Order) (rest : List (Option Nat)),
    (s.gpioCtx c).inited = false → admissible s.cfg = true → clkLine ≠ dataLine → s.regGpio = none :: rest →
    ∃ t, exec (.gpioInit c clkLine dataLine order) s = .next t ∧ t.regGpio = some c :: rest ∧
      SameFifoSide s t ∧ SameWorld s t ∧ t.draws = s.draws + 1 ∧ t.refused = s.refused ∧
      (Config.freeAttach s.draws = true →
        OnlyGpioCtx s t c { s.gpioCtx c with
          clkLine := clkLine, dataLine := dataLine, order := order, clk := false, data := false
          state := .idle, inited := true } ∧
        t.tmr = { load := 0, auto := false, en := false, ie := false, pend := false, handler := true } ∧
        t.ret = .status .ok ∧ t.faults = s.faults ∧
        t.hist = s.hist ++ [.regWrite (.tmrEn false), .regWrite (.tmrIe false), .regWrite (.tmrAuto false),
          .regWrite (.tmrLoad 0), .regWrite (.tmrPend false), .regWrite (.tmrHandler true),
          .gpioWrite c .clk false, .gpioWrite c .data false]) ∧
      (Config.freeAttach s.draws = false →
        (∀ c', t.gpioCtx c' = s.gpioCtx c') ∧
        t.tmr = { load := 0, auto := false, en := false, ie := false, pend := false, handler := s.tmr.handler } ∧
        t.ret = s.ret ∧
        t.faults = (if ⟨.host, .initHardwareFailure .gpio⟩ ∈ s.faults then s.faults
          else s.faults ++ [⟨.host, .initHardwareFailure .gpio⟩]) ∧
        t.hist = s.hist ++ [.regWrite (.tmrEn false), .regWrite (.tmrIe false), .regWrite (.tmrAuto false),
          .regWrite (.tmrLoad 0), .regWrite (.tmrPend false)])

/-- R203: `fifo.init` of a context that takes slot 0, as `GpioInitOfSlotZero` says it of the other engine. -/
def Obligations.FifoInitOfSlotZero : Prop :=
  ∀ (s : State) (c serCfg : Nat) (rest : List (Option Nat)),
    (s.fifoCtx c).inited = false → admissible s.cfg = true → s.regFifo = none :: rest →
    ∃ t, exec (.fifoInit c serCfg .msb) s = .next t ∧ t.regFifo = some c :: rest ∧
      SameGpioSide s t ∧ SameWorld s t ∧ t.draws = s.draws + 1 ∧ t.refused = s.refused ∧
      t.ser.clkRun = false ∧ t.ser.fifo = [] ∧ t.ser.insPend = 0 ∧ t.ser.cfg = serCfg ∧ t.serSt = 0#32 ∧
      t.ieNeed = false ∧ t.ieEmpty = false ∧ t.serIe &&& t.cfg.legacyMask = s.serIe &&& s.cfg.legacyMask ∧
      (Config.freeAttach s.draws = true →
        OnlyFifoCtx s t c { s.fifoCtx c with order := .msb, state := .idle, inited := true } ∧
        t.ser.handler = true ∧ t.ret = .status .ok ∧ t.faults = s.faults ∧
        t.hist = s.hist ++ [.regWrite (.serClkRun false), .regWrite (.serIeNeed false), .regWrite (.serIeEmpty false),
          .regWrite (.serClr 0xFFFFFFFF#32), .regWrite .serFifoReset, .regWrite (.serInsPend 0),
          .regWrite (.serCfg serCfg), .regWrite (.serHandler true)]) ∧
      (Config.freeAttach s.draws = false →
        (∀ c', t.fifoCtx c' = s.fifoCtx c') ∧ t.ser.handler = s.ser.handler ∧ t.ret = s.ret ∧
        t.faults = (if ⟨.host, .initHardwareFailure .fifo⟩ ∈ s.faults then s.faults
          else s.faults ++ [⟨.host, .initHardwareFailure .fifo⟩]) ∧
        t.hist = s.hist ++ [.regWrite (.serClkRun false), .regWrite (.serIeNeed false), .regWrite (.serIeEmpty false),
          .regWrite (.serClr 0xFFFFFFFF#32), .regWrite .serFifoReset, .regWrite (.serInsPend 0),
          .regWrite (.serCfg serCfg)])

/-- R281: an init on a context with `inited = true` is refused, with no effect but REFUSED. -/
def Obligations.InitOfAnInitedContextIsRefused : Prop :=
  ∀ (s : State) (c : Nat),
    ((s.gpioCtx c).inited = true → ∀ k d o,
      exec (.gpioInit c k d o) s = .next { s with refused := true, ret := .refused .reInit }) ∧
    ((s.fifoCtx c).inited = true → ∀ g o,
      exec (.fifoInit c g o) s = .next { s with refused := true, ret := .refused .reInit })

/-- R283: an init in an instance that breaks R8, or with equal GPIO pins, or a FIFO init with order LSB, is refused. -/
def Obligations.UnsupportedConfigurationIsRefused : Prop :=
  ∀ (s : State) (c : Nat),
    let breaks : Prop := (s.cfg.bpp ≠ 8 ∧ s.cfg.bpp ≠ 16 ∧ s.cfg.bpp ≠ 24 ∧ s.cfg.bpp ≠ 32) ∨ s.cfg.maxCtxGpio ≠ 1 ∨
      s.cfg.maxCtxFifo ≠ 1 ∨ s.cfg.clkHz % s.cfg.timerDiv ≠ 0 ∨ s.cfg.fifoDepth < 2 ∨
      s.cfg.fifoDepth ≤ s.cfg.lowWatermark ∨ s.cfg.fifoDepth ≤ s.cfg.advanceFrames
    ((s.gpioCtx c).inited = false → ∀ k d o, breaks ∨ k = d →
      exec (.gpioInit c k d o) s = .next { s with refused := true, ret := .refused .unsupportedConfig }) ∧
    ((s.fifoCtx c).inited = false → ∀ g o, breaks ∨ o = .lsb →
      exec (.fifoInit c g o) s = .next { s with refused := true, ret := .refused .unsupportedConfig })

/-- R147: with no slot empty, `register` writes nothing and returns `FULL`, and an admitted init returns `NO_CAPACITY` and
changes nothing else; the context stays not inited, and a later operation on it is refused `UninitialisedContext`. -/
def Obligations.FullRegistryGivesNoCapacity : Prop :=
  ∀ (s : State) (c k d g buf len : Nat) (o : Order),
    (none ∉ s.regGpio →
      exec (.register .gpio c) s = .next { s with ret := .full } ∧
      ((s.gpioCtx c).inited = false → admissible s.cfg = true → k ≠ d →
        exec (.gpioInit c k d o) s = .next { s with ret := .status .noCapacity } ∧
        exec (.gpioIsSending c) { s with ret := .status .noCapacity }
          = .next { s with refused := true, ret := .refused .uninitialisedContext } ∧
        (buf < 2 ^ s.cfg.addrBits → len < 2 ^ 32 →
          exec (.gpioSend c buf len) { s with ret := .status .noCapacity }
            = .next { s with refused := true, ret := .refused .uninitialisedContext }))) ∧
    (none ∉ s.regFifo →
      exec (.register .fifo c) s = .next { s with ret := .full } ∧
      ((s.fifoCtx c).inited = false → admissible s.cfg = true →
        exec (.fifoInit c g .msb) s = .next { s with ret := .status .noCapacity } ∧
        exec (.fifoIsSending c) { s with ret := .status .noCapacity }
          = .next { s with refused := true, ret := .refused .uninitialisedContext } ∧
        (buf < 2 ^ s.cfg.addrBits → len < 2 ^ 32 →
          exec (.fifoSend c buf len) { s with ret := .status .noCapacity }
            = .next { s with refused := true, ret := .refused .uninitialisedContext })))

/-- R145, R146: `register` takes the first empty slot, in ascending order, and returns its index; nothing else changes. -/
def Obligations.RegisterTakesTheFirstEmptySlot : Prop :=
  ∀ (s : State) (c : Nat) (taken rest : List (Option Nat)), none ∉ taken →
    (s.regGpio = taken ++ none :: rest →
      exec (.register .gpio c) s = .next { s with regGpio := taken ++ some c :: rest, ret := .slot taken.length }) ∧
    (s.regFifo = taken ++ none :: rest →
      exec (.register .fifo c) s = .next { s with regFifo := taken ++ some c :: rest, ret := .slot taken.length })

/-! ### Sends that do nothing or are refused (43 R165 to R168, 44 R204, R205, 60 R282, R284, R286) -/

/-- R167, R168, R205: a send on a busy context, or with length 0, changes nothing and records no event; it returns as every
send does (log 16). -/
def Obligations.BusyOrEmptySendChangesNothing : Prop :=
  ∀ (s : State) (c buf len : Nat), buf < 2 ^ s.cfg.addrBits → len < 2 ^ 32 →
    ((s.gpioCtx c).inited = true → (s.gpioCtx c).state ≠ .idle ∨ len = 0 →
      exec (.gpioSend c buf len) s = .next { s with ret := .void }) ∧
    ((s.fifoCtx c).inited = true → (s.fifoCtx c).state ≠ .idle ∨ len = 0 →
      exec (.fifoSend c buf len) s = .next { s with ret := .void })

/-- R282: a send or is_sending on a context with `inited = false` is refused. -/
def Obligations.UninitialisedContextIsRefused : Prop :=
  ∀ (s : State) (c buf len : Nat), buf < 2 ^ s.cfg.addrBits → len < 2 ^ 32 →
    ((s.gpioCtx c).inited = false →
      exec (.gpioSend c buf len) s = .next { s with refused := true, ret := .refused .uninitialisedContext } ∧
      exec (.gpioIsSending c) s = .next { s with refused := true, ret := .refused .uninitialisedContext }) ∧
    ((s.fifoCtx c).inited = false →
      exec (.fifoSend c buf len) s = .next { s with refused := true, ret := .refused .uninitialisedContext } ∧
      exec (.fifoIsSending c) s = .next { s with refused := true, ret := .refused .uninitialisedContext })

/-- R284, R65: a send on an inited, idle context with `len > 0` and a buffer that is misaligned, wraps the address space or,
for the FIFO engine, has `len * (BPP/8)` of `2^32` or more, is refused `BadBuffer`. -/
def Obligations.BadBufferIsRefused : Prop :=
  ∀ (s : State) (c buf len : Nat), buf < 2 ^ s.cfg.addrBits → len < 2 ^ 32 → 0 < len →
    ((s.gpioCtx c).inited = true → (s.gpioCtx c).state = .idle →
      buf % 4 ≠ 0 ∨ 2 ^ s.cfg.addrBits < buf + 4 * len →
      exec (.gpioSend c buf len) s = .next { s with refused := true, ret := .refused .badBuffer }) ∧
    ((s.fifoCtx c).inited = true → (s.fifoCtx c).state = .idle →
      buf % 4 ≠ 0 ∨ 2 ^ s.cfg.addrBits < buf + 4 * len ∨ 2 ^ 32 ≤ len * (s.cfg.bpp / 8) →
      exec (.fifoSend c buf len) s = .next { s with refused := true, ret := .refused .badBuffer })

/-- R171, R221: `is_sending` answers whether the state differs from `IDLE`, with no state change and no event; on a context that
is not inited it is refused. -/
def Obligations.IsSendingAnswersNotIdle : Prop :=
  ∀ (s : State) (c : Nat),
    exec (.gpioIsSending c) s = (if (s.gpioCtx c).inited = true
      then .next { s with ret := .bool (decide ((s.gpioCtx c).state ≠ .idle)) }
      else .next { s with refused := true, ret := .refused .uninitialisedContext }) ∧
    exec (.fifoIsSending c) s = (if (s.fifoCtx c).inited = true
      then .next { s with ret := .bool (decide ((s.fifoCtx c).state ≠ .idle)) }
      else .next { s with refused := true, ret := .refused .uninitialisedContext })

/-- R93, R96, R280: operands outside their types are refused `UnknownOperation`. The types of `buf` and `nbytes` are read as log
18 says. -/
def Obligations.OperandsOutsideTheirTypesAreRefused : Prop :=
  ∀ (s : State),
    let refused : Host.Outcome State Fault Refusal :=
      .next { s with refused := true, ret := .refused .unknownOperation }
    (∀ v, 16 ≤ v → exec (.pwmNibble v) s = refused) ∧
    (∀ b, 256 ≤ b → exec (.packByte b) s = refused) ∧
    (∀ t d, 2 ^ 32 ≤ t ∨ d = 0 ∨ s.cfg.clkHz % d ≠ 0 → exec (.ticksFor t d) s = refused) ∧
    (∀ n, n = 0 ∨ 2 ^ 32 ≤ n → exec (.trailerLen n) s = refused) ∧
    (∀ b, b = 0#32 ∨ b &&& ~~~s.cfg.legacyMask ≠ 0#32 → exec (.legacyRaise b) s = refused) ∧
    (∀ c buf len, 2 ^ s.cfg.addrBits ≤ buf ∨ 2 ^ 32 ≤ len →
      exec (.gpioSend c buf len) s = refused ∧ exec (.fifoSend c buf len) s = refused)

/-! ### The GPIO engine (43_gpio_engine) -/

/-- R165, R72: an accepted `gpio.send` writes the context, then arms the timer at BIT_TICKS with auto-reload, and enables the
interrupt last. -/
def Obligations.GpioSendStartsATransmission : Prop :=
  ∀ (s : State) (c buf len : Nat),
    let bitTicks := ticksFor s.cfg s.cfg.bitPeriodNs s.cfg.timerDiv
    buf < 2 ^ s.cfg.addrBits → len < 2 ^ 32 →
    (s.gpioCtx c).inited = true → (s.gpioCtx c).state = .idle → 0 < len →
    buf % 4 = 0 → buf + 4 * len ≤ 2 ^ s.cfg.addrBits →
    1 ≤ bitTicks → bitTicks ≤ 2 ^ s.cfg.timerBits - 1 →
    ∃ t, exec (.gpioSend c buf len) s = .next t ∧
      OnlyGpioCtx s t c { s.gpioCtx c with
        buf := buf, len := len, pix := 0, state := .sending
        mask := match (s.gpioCtx c).order with
          | .msb => 1#32 <<< (s.cfg.bpp - 1)
          | .lsb => 1#32 } ∧
      t.tmr = { s.tmr with load := bitTicks, auto := true, en := true, ie := true } ∧
      t.hist = s.hist ++ [.regWrite (.tmrLoad bitTicks), .regWrite (.tmrAuto true), .regWrite (.tmrEn true),
        .regWrite (.tmrIe true)] ∧
      t.ret = .void ∧ t.regGpio = s.regGpio ∧ NoFaultOrDraw s t ∧ SameFifoSide s t ∧ SameWorld s t

/-- R166, R274: where BIT_TICKS is 0 or does not fit the timer, an accepted `gpio.send` has written the context, does not write
the load, arms nothing, and raises `TicksOutOfRange` (vector V-G16). -/
def Obligations.GpioSendFaultsOnTicksOutOfRange : Prop :=
  ∀ (s : State) (c buf len : Nat),
    let bitTicks := ticksFor s.cfg s.cfg.bitPeriodNs s.cfg.timerDiv
    buf < 2 ^ s.cfg.addrBits → len < 2 ^ 32 →
    (s.gpioCtx c).inited = true → (s.gpioCtx c).state = .idle → 0 < len →
    buf % 4 = 0 → buf + 4 * len ≤ 2 ^ s.cfg.addrBits →
    bitTicks = 0 ∨ 2 ^ s.cfg.timerBits ≤ bitTicks →
    ∃ t, exec (.gpioSend c buf len) s = .next t ∧
      OnlyGpioCtx s t c { s.gpioCtx c with
        buf := buf, len := len, pix := 0, state := .sending
        mask := match (s.gpioCtx c).order with
          | .msb => 1#32 <<< (s.cfg.bpp - 1)
          | .lsb => 1#32 } ∧
      Raised s t ⟨.host, .ticksOutOfRange bitTicks⟩ ∧
      t.tmr = s.tmr ∧ t.hist = s.hist ∧ t.ret = s.ret ∧ t.regGpio = s.regGpio ∧ SameFifoSide s t ∧ SameWorld s t

/-- R174, R89, R26: `gpio.nmi` in `SENDING` reads the pixel word, writes clock low, the selected bit, clock high, and advances
the cursor; the last bit of the last pixel enters `FINISH` in the same step. That HIST records the whole word read is the model's
choice (log 31). -/
def Obligations.NmiSendsOneBit : Prop :=
  ∀ (s : State) (c : Nat) (w : Word), s.tmr.pend = true → s.tmr.handler = true → slotZero s.regGpio = some c →
    (s.gpioCtx c).state = .sending → pixelWord s.cfg s.mem (s.gpioCtx c).buf (s.gpioCtx c).pix = some w →
    let x := s.gpioCtx c
    let bit := decide (w &&& x.mask ≠ 0#32)
    let first : Word := match x.order with
      | .msb => 1#32 <<< (s.cfg.bpp - 1)
      | .lsb => 1#32
    let last : Word := match x.order with
      | .msb => 1#32
      | .lsb => 1#32 <<< (s.cfg.bpp - 1)
    let next : Word := match x.order with
      | .msb => x.mask >>> 1
      | .lsb => x.mask <<< 1
    let pix := if x.mask = last then x.pix + 1 else x.pix
    ∃ t, exec .gpioNmi s = .next t ∧
      OnlyGpioCtx s t c { x with
        clk := true, data := bit, pix := pix, mask := if x.mask = last then first else next
        state := if pix = x.len then .finish else .sending } ∧
      t.tmr = { s.tmr with pend := false } ∧
      t.hist = s.hist ++ [.regWrite (.tmrPend false), .memRead (x.buf + 4 * x.pix) w, .gpioWrite c .clk false,
        .gpioWrite c .data bit, .gpioWrite c .clk true] ∧
      t.ret = s.ret ∧ t.regGpio = s.regGpio ∧ NoFaultOrDraw s t ∧ SameFifoSide s t ∧ SameWorld s t

/-- R173: `gpio.nmi` in `FINISH` drops both lines, reprograms the timer to RESET_TICKS and moves to `RESET`; where RESET_TICKS
does not fit the timer (R166, vector V-G15) the lines are dropped, `TicksOutOfRange` is raised and the state stays. -/
def Obligations.NmiFinishStep : Prop :=
  ∀ (s : State) (c : Nat),
    let resetTicks := ticksFor s.cfg s.cfg.resetNs s.cfg.timerDiv
    s.tmr.pend = true → s.tmr.handler = true → slotZero s.regGpio = some c →
    (s.gpioCtx c).state = .finish →
    ∃ t, exec .gpioNmi s = .next t ∧ t.ret = s.ret ∧ t.regGpio = s.regGpio ∧ SameFifoSide s t ∧ SameWorld s t ∧
      (1 ≤ resetTicks ∧ resetTicks ≤ 2 ^ s.cfg.timerBits - 1 →
        OnlyGpioCtx s t c { s.gpioCtx c with clk := false, data := false, state := .reset } ∧
        t.tmr = { s.tmr with pend := false, load := resetTicks } ∧ NoFaultOrDraw s t ∧
        t.hist = s.hist ++ [.regWrite (.tmrPend false), .gpioWrite c .clk false, .gpioWrite c .data false,
          .regWrite (.tmrLoad resetTicks)]) ∧
      (resetTicks = 0 ∨ 2 ^ s.cfg.timerBits ≤ resetTicks →
        OnlyGpioCtx s t c { s.gpioCtx c with clk := false, data := false } ∧
        t.tmr = { s.tmr with pend := false } ∧ Raised s t ⟨.nmiHandler, .ticksOutOfRange resetTicks⟩ ∧
        t.hist = s.hist ++ [.regWrite (.tmrPend false), .gpioWrite c .clk false, .gpioWrite c .data false])

/-- R172, R175, R176: `gpio.nmi` in `RESET`, and in `IDLE`, takes the request, disables the interrupt, stops the timer and leaves
`IDLE`; LOAD and AUTO keep their values. -/
def Obligations.NmiResetOrIdleStep : Prop :=
  ∀ (s : State) (c : Nat), s.tmr.pend = true → s.tmr.handler = true → slotZero s.regGpio = some c →
    (s.gpioCtx c).state = .reset ∨ (s.gpioCtx c).state = .idle →
    ∃ t, exec .gpioNmi s = .next t ∧ OnlyGpioCtx s t c { s.gpioCtx c with state := .idle } ∧
      t.tmr = { s.tmr with pend := false, ie := false, en := false } ∧
      t.hist = s.hist ++ [.regWrite (.tmrPend false), .regWrite (.tmrIe false), .regWrite (.tmrEn false)] ∧
      t.ret = s.ret ∧ t.regGpio = s.regGpio ∧ NoFaultOrDraw s t ∧ SameFifoSide s t ∧ SameWorld s t

/-- R172, R150: with slot 0 `EMPTY`, `gpio.nmi` takes the request and does nothing else. -/
def Obligations.NmiSkipsAnEmptySlot : Prop :=
  ∀ (s : State) (rest : List (Option Nat)), s.tmr.pend = true → s.tmr.handler = true → s.regGpio = none :: rest →
    exec .gpioNmi s
      = .next { s with tmr := { s.tmr with pend := false }, hist := s.hist ++ [.regWrite (.tmrPend false)] }

/-- R67: a pixel read that the launch memory does not admit leaves the reader stuck, at the address of the pixel it read: the NMI
handler in `SENDING`; a fill, by itself or in `ser.irq`, at the first word within the FIFO's room whose read is not admitted; and
an accepted `fifo.send` at the first such word of its synchronous fill. The stop is log 11; a fill by itself is log 14. -/
def Obligations.UnadmittedReadLeavesTheReaderStuck : Prop :=
  ∀ (s : State) (c : Nat),
    (s.tmr.pend = true → s.tmr.handler = true → slotZero s.regGpio = some c → (s.gpioCtx c).state = .sending →
      pixelWord s.cfg s.mem (s.gpioCtx c).buf (s.gpioCtx c).pix = none →
      exec .gpioNmi s = .fault (.readNotAdmitted ((s.gpioCtx c).buf + 4 * (s.gpioCtx c).pix))) ∧
    (∀ j : Nat, j < s.cfg.fifoDepth - s.level →
      (s.fifoCtx c).pix ≤ (s.fifoCtx c).len → (s.fifoCtx c).byteIdx < s.cfg.bpp / 8 →
      ((s.fifoCtx c).pix = (s.fifoCtx c).len → (s.fifoCtx c).byteIdx = 0) →
      (∀ i, i < j → nextWord s c i ≠ none) → nextWord s c j = none →
      let pixel := ((s.fifoCtx c).pix * (s.cfg.bpp / 8) + (s.fifoCtx c).byteIdx + j) / (s.cfg.bpp / 8)
      exec (.fifoFill c) s = .fault (.readNotAdmitted ((s.fifoCtx c).buf + 4 * pixel)) ∧
      (s.ser.handler = true → s.serSt &&& s.serIe &&& 3#32 ≠ 0#32 → slotZero s.regFifo = some c →
        (s.fifoCtx c).state = .sending →
        exec .serIrq s = .fault (.readNotAdmitted ((s.fifoCtx c).buf + 4 * pixel)))) ∧
    (∀ buf len j : Nat, buf < 2 ^ s.cfg.addrBits → len < 2 ^ 32 →
      admissible s.cfg = true → (s.fifoCtx c).inited = true → (s.fifoCtx c).state = .idle → 0 < len →
      buf % 4 = 0 → buf + 4 * len ≤ 2 ^ s.cfg.addrBits → len * (s.cfg.bpp / 8) < 2 ^ 32 → s.stNeed = false →
      j < s.cfg.fifoDepth → (∀ i, i < j → streamWord s.cfg s.mem buf len i ≠ none) →
      streamWord s.cfg s.mem buf len j = none →
      exec (.fifoSend c buf len) s = .fault (.readNotAdmitted (buf + 4 * (j / (s.cfg.bpp / 8)))))

/-- R178: an expiry is recorded; with the interrupt enabled it requests the NMI, or, where a request is still pending, raises
`BitDeadlineMissed`; with the interrupt disabled it requests nothing; without auto-reload the timer stops. -/
def Obligations.TimerExpiry : Prop :=
  ∀ (s : State), s.tmr.en = true → s.tmr.handler = true →
    ∃ t, exec .tmrExpire s = .next t ∧ SameFifoSide s t ∧ SameWorld s t ∧ t.ret = s.ret ∧ t.regGpio = s.regGpio ∧
      (∀ c, t.gpioCtx c = s.gpioCtx c) ∧
      (s.tmr.ie = true → s.tmr.pend = true →
        t.tmr = s.tmr ∧ t.hist = s.hist ++ [.expire s.tmr.load] ∧
        Raised s t ⟨.timer, .bitDeadlineMissed s.tmr.load⟩) ∧
      (s.tmr.ie = true → s.tmr.pend = false →
        NoFaultOrDraw s t ∧ t.tmr = { s.tmr with pend := true, en := s.tmr.auto } ∧
        t.hist = s.hist ++ ([.expire s.tmr.load, .regWrite (.tmrPend true)]
          ++ if s.tmr.auto = true then [] else [.regWrite (.tmrEn false)])) ∧
      (s.tmr.ie = false →
        NoFaultOrDraw s t ∧ t.tmr = { s.tmr with en := s.tmr.auto } ∧
        t.hist = s.hist ++ (.expire s.tmr.load :: if s.tmr.auto = true then [] else [.regWrite (.tmrEn false)]))

/-- R177, R64, R180: an accepted `gpio.send` of `len` pixels is done after exactly `len·BPP + 2` bit periods: `len·BPP` `SENDING`
steps of which the last enters `FINISH`, one `FINISH` step, one `RESET` step. The bits sent are the buffer's bits in
transmission order, with `3·len·BPP + 2` line writes and `len·BPP` buffer reads. -/
def Obligations.GpioTransmissionStepCount : Prop :=
  ∀ (s : State) (c buf len : Nat) (bits : List Bool),
    let bitTicks := ticksFor s.cfg s.cfg.bitPeriodNs s.cfg.timerDiv
    let resetTicks := ticksFor s.cfg s.cfg.resetNs s.cfg.timerDiv
    buf < 2 ^ s.cfg.addrBits → len < 2 ^ 32 → 0 < len →
    admissible s.cfg = true → slotZero s.regGpio = some c → s.tmr.handler = true → s.tmr.pend = false →
    (s.gpioCtx c).inited = true → (s.gpioCtx c).state = .idle →
    buf % 4 = 0 → buf + 4 * len ≤ 2 ^ s.cfg.addrBits →
    1 ≤ bitTicks → bitTicks ≤ 2 ^ s.cfg.timerBits - 1 →
    1 ≤ resetTicks → resetTicks ≤ 2 ^ s.cfg.timerBits - 1 →
    bufferBits s.cfg s.mem (s.gpioCtx c).order buf 0 len = some bits →
    ∃ t, exec (.gpioSend c buf len) s = .next t ∧
      (∀ k, k < len * s.cfg.bpp → ∃ u, bitPeriods k t = .next u ∧ (u.gpioCtx c).state = .sending) ∧
      (∃ u, bitPeriods (len * s.cfg.bpp) t = .next u ∧ (u.gpioCtx c).state = .finish) ∧
      (∃ u, bitPeriods (len * s.cfg.bpp + 1) t = .next u ∧ (u.gpioCtx c).state = .reset) ∧
      ∃ u, bitPeriods (len * s.cfg.bpp + 2) t = .next u ∧ (u.gpioCtx c).state = .idle ∧
        (u.gpioCtx c).clk = false ∧ (u.gpioCtx c).data = false ∧
        u.tmr.en = false ∧ u.tmr.ie = false ∧ u.tmr.pend = false ∧
        ∃ events, u.hist = t.hist ++ events ∧ sentBits c events = bits ∧
          events.countP isLineWrite = 3 * (len * s.cfg.bpp) + 2 ∧ events.countP isMemRead = len * s.cfg.bpp

/-! ### The FIFO engine (44_fifo_engine) -/

/-- R212, R213, R235, R88: a fill pushes the next words of the stream, in order, as far as the FIFO has room and words are left, if
the reads of those words are admitted (whatever lies beyond them); the cursor moves on by them and the rest is left for later.
When none is left it disables NEED, enables EMPTY and enters `RESET`, and otherwise changes neither. (The fill by itself is log
14, its return log 16.) -/
def Obligations.FillPushesTheStreamInOrder : Prop :=
  ∀ (s : State) (c : Nat) (words : List Word), admissible s.cfg = true →
    (s.fifoCtx c).pix ≤ (s.fifoCtx c).len → (s.fifoCtx c).byteIdx < s.cfg.bpp / 8 →
    ((s.fifoCtx c).pix = (s.fifoCtx c).len → (s.fifoCtx c).byteIdx = 0) →
    words.length = min (s.cfg.fifoDepth - s.level) ((s.fifoCtx c).wordsLeft s.cfg) →
    (∀ j, j < words.length → nextWord s c j = words[j]?) →
    let done : Bool := decide (words.length = (s.fifoCtx c).wordsLeft s.cfg)
    ∃ t, exec (.fifoFill c) s = .next t ∧
      t.ser.fifo = s.ser.fifo ++ words ∧
      (t.fifoCtx c).position s.cfg = (s.fifoCtx c).position s.cfg + min words.length ((s.fifoCtx c).dataLeft s.cfg) ∧
      (t.fifoCtx c).byteIdx < s.cfg.bpp / 8 ∧
      (t.fifoCtx c).trailer = (s.fifoCtx c).trailer - (words.length - (s.fifoCtx c).dataLeft s.cfg) ∧
      (t.fifoCtx c).wordsLeft s.cfg = (s.fifoCtx c).wordsLeft s.cfg - words.length ∧
      (∀ j, nextWord t c j = nextWord s c (words.length + j)) ∧
      (t.fifoCtx c).state = (if done then .reset else (s.fifoCtx c).state) ∧
      t.ieNeed = (if done then false else s.ieNeed) ∧ t.ieEmpty = (if done then true else s.ieEmpty) ∧
      (t.fifoCtx c).buf = (s.fifoCtx c).buf ∧ (t.fifoCtx c).len = (s.fifoCtx c).len ∧
      (t.fifoCtx c).order = (s.fifoCtx c).order ∧ (t.fifoCtx c).inited = (s.fifoCtx c).inited ∧
      (∀ c', c' ≠ c → t.fifoCtx c' = s.fifoCtx c') ∧
      t.serSt = s.serSt ∧ t.serIe &&& s.cfg.legacyMask = s.serIe &&& s.cfg.legacyMask ∧
      t.ser.clkRun = s.ser.clkRun ∧ t.ser.insPend = s.ser.insPend ∧ t.ser.cfg = s.ser.cfg ∧
      t.ser.handler = s.ser.handler ∧ t.regFifo = s.regFifo ∧ t.ret = .void ∧
      NoFaultOrDraw s t ∧ SameGpioSide s t ∧ SameWorld s t

/-- R214: one fill reads at most as many pixel words as it pushes words, and pushes at most `FIFO_DEPTH − level`. -/
def Obligations.FillDoesBoundedWork : Prop :=
  ∀ (s t : State) (c : Nat), exec (.fifoFill c) s = .next t →
    ∃ events pushed, t.hist = s.hist ++ events ∧ t.ser.fifo = s.ser.fifo ++ pushed ∧
      pushed.length ≤ s.cfg.fifoDepth - s.level ∧ events.countP isMemRead ≤ pushed.length

/-- R204, R213, R72, R88: an accepted `fifo.send` queues the first words of the transmission's stream (data words in buffer order,
then the zero trailer of R206) as far as the FIFO has room, if the reads of those words are admitted (whatever lies beyond them),
leaves `RESET` if they are all and `SENDING` if not, clears NEED and EMPTY, loads the inserted frame, and starts the serializer
clock as its last effect. A trailer length that does not fit its 32-bit field is log 30. -/
def Obligations.FifoSendStartsATransmission : Prop :=
  ∀ (s : State) (c buf len : Nat) (words : List Word), buf < 2 ^ s.cfg.addrBits → len < 2 ^ 32 →
    admissible s.cfg = true → (s.fifoCtx c).inited = true → (s.fifoCtx c).state = .idle → 0 < len →
    buf % 4 = 0 → buf + 4 * len ≤ 2 ^ s.cfg.addrBits → len * (s.cfg.bpp / 8) < 2 ^ 32 → s.stNeed = false →
    let data := len * (s.cfg.bpp / 8)
    let trailer := trailerField (trailerLen s.cfg data)
    words.length = min s.cfg.fifoDepth (data + trailer) →
    (∀ j, j < words.length → streamWord s.cfg s.mem buf len j = words[j]?) →
    let done : Bool := decide (words.length = data + trailer)
    ∃ t, exec (.fifoSend c buf len) s = .next t ∧
      trailer < 2 ^ 32 ∧ (trailerLen s.cfg data < 2 ^ 32 → trailer = trailerLen s.cfg data) ∧
      t.ser.fifo = words ∧
      (t.fifoCtx c).position s.cfg = min words.length data ∧ (t.fifoCtx c).byteIdx < s.cfg.bpp / 8 ∧
      (t.fifoCtx c).trailer = trailer - (words.length - data) ∧
      (t.fifoCtx c).wordsLeft s.cfg = data + trailer - words.length ∧
      (∀ j, nextWord t c j = streamWord s.cfg s.mem buf len (words.length + j)) ∧
      (t.fifoCtx c).state = (if done then .reset else .sending) ∧
      (t.fifoCtx c).buf = buf ∧ (t.fifoCtx c).len = len ∧ (t.fifoCtx c).inited = true ∧
      (t.fifoCtx c).order = (s.fifoCtx c).order ∧ (∀ c', c' ≠ c → t.fifoCtx c' = s.fifoCtx c') ∧
      t.ieNeed = !done ∧ t.ieEmpty = (if done then true else s.ieEmpty) ∧
      t.stNeed = false ∧ t.stEmpty = false ∧ t.serSt &&& s.cfg.legacyMask = s.serSt &&& s.cfg.legacyMask ∧
      t.serIe &&& s.cfg.legacyMask = s.serIe &&& s.cfg.legacyMask ∧
      t.ser.insPend = s.cfg.insertedFrames ∧ t.ser.clkRun = true ∧ t.ser.cfg = s.ser.cfg ∧
      t.ser.handler = s.ser.handler ∧ t.hist.getLast? = some (.regWrite (.serClkRun true)) ∧
      t.regFifo = s.regFifo ∧ t.ret = .void ∧ NoFaultOrDraw s t ∧ SameGpioSide s t ∧ SameWorld s t

/-- R241, R277: an accepted `fifo.send` that finds `SER_ST.NEED` pending has written the context and reset the FIFO, and raises
`SendRefillRace` with the status word instead of enabling the interrupt (vector V-F19). HIST records the read of SER_ST (R66,
log 15); a trailer length that does not fit its 32-bit field is log 30. -/
def Obligations.FifoSendFaultsOnARefillRace : Prop :=
  ∀ (s : State) (c buf len : Nat), buf < 2 ^ s.cfg.addrBits → len < 2 ^ 32 →
    (s.fifoCtx c).inited = true → (s.fifoCtx c).state = .idle → 0 < len →
    buf % 4 = 0 → buf + 4 * len ≤ 2 ^ s.cfg.addrBits → len * (s.cfg.bpp / 8) < 2 ^ 32 → s.stNeed = true →
    ∃ t, exec (.fifoSend c buf len) s = .next t ∧
      OnlyFifoCtx s t c { s.fifoCtx c with
        buf := buf, len := len, pix := 0, byteIdx := 0, state := .sending
        trailer := trailerField (trailerLen s.cfg (len * (s.cfg.bpp / 8))) } ∧
      t.ser = { s.ser with fifo := [], insPend := 0 } ∧
      t.hist = s.hist ++ [.regWrite .serFifoReset, .regWrite (.serInsPend 0), .statusRead s.serSt] ∧
      Raised s t ⟨.host, .sendRefillRace s.serSt⟩ ∧ t.ret = s.ret ∧ t.regFifo = s.regFifo ∧
      SameGpioSide s t ∧ SameWorld s t

/-- R222, R223: one `ser.irq` acknowledges every status bit set at its entry (none is set after it), and steps the engine exactly
when an enabled engine condition was set at its entry, whatever legacy bits were set with it (a slot 0 that is `EMPTY` is
skipped, R150). -/
def Obligations.IrqAcknowledgesAllAndStepsTheEngine : Prop :=
  ∀ (s : State), s.serSt &&& s.serIe ≠ 0#32 → s.ser.handler = true →
    (∀ t, exec .serIrq s = .next t → t.serSt = 0#32) ∧
    (s.serSt &&& s.serIe &&& 3#32 = 0#32 →
      ∃ t, exec .serIrq s = .next t ∧ (∀ c, t.fifoCtx c = s.fifoCtx c) ∧ t.regFifo = s.regFifo ∧
        t.ser = { s.ser with st := 0#32 } ∧
        t.hist = s.hist ++ [.statusRead s.serSt, .regWrite (.serClr s.serSt)] ∧
        t.ret = s.ret ∧ NoFaultOrDraw s t ∧ SameGpioSide s t ∧ SameWorld s t) ∧
    (s.serSt &&& s.serIe &&& 3#32 ≠ 0#32 → slotZero s.regFifo = none →
      exec .serIrq s = .next { s with
        ser := { s.ser with st := 0#32 }
        hist := s.hist ++ [.statusRead s.serSt, .regWrite (.serClr s.serSt)] }) ∧
    (s.serSt &&& s.serIe &&& 3#32 ≠ 0#32 → ∀ c, slotZero s.regFifo = some c →
      exec .serIrq s = fifoStep c { s with
        ser := { s.ser with st := 0#32 }
        hist := s.hist ++ [.statusRead s.serSt, .regWrite (.serClr s.serSt)] })

/-- R224, R222, R212, R88: in `SENDING`, a `ser.irq` with an enabled engine condition acknowledges every status bit and runs the
fill: it does all that `FillPushesTheStreamInOrder` says. -/
def Obligations.IrqInSendingFills : Prop :=
  ∀ (s : State) (c : Nat) (words : List Word), admissible s.cfg = true → s.ser.handler = true →
    s.serSt &&& s.serIe &&& 3#32 ≠ 0#32 → slotZero s.regFifo = some c → (s.fifoCtx c).state = .sending →
    (s.fifoCtx c).pix ≤ (s.fifoCtx c).len → (s.fifoCtx c).byteIdx < s.cfg.bpp / 8 →
    ((s.fifoCtx c).pix = (s.fifoCtx c).len → (s.fifoCtx c).byteIdx = 0) →
    words.length = min (s.cfg.fifoDepth - s.level) ((s.fifoCtx c).wordsLeft s.cfg) →
    (∀ j, j < words.length → nextWord s c j = words[j]?) →
    let done : Bool := decide (words.length = (s.fifoCtx c).wordsLeft s.cfg)
    ∃ t, exec .serIrq s = .next t ∧
      t.ser.fifo = s.ser.fifo ++ words ∧
      (t.fifoCtx c).position s.cfg = (s.fifoCtx c).position s.cfg + min words.length ((s.fifoCtx c).dataLeft s.cfg) ∧
      (t.fifoCtx c).byteIdx < s.cfg.bpp / 8 ∧
      (t.fifoCtx c).trailer = (s.fifoCtx c).trailer - (words.length - (s.fifoCtx c).dataLeft s.cfg) ∧
      (t.fifoCtx c).wordsLeft s.cfg = (s.fifoCtx c).wordsLeft s.cfg - words.length ∧
      (∀ j, nextWord t c j = nextWord s c (words.length + j)) ∧
      (t.fifoCtx c).state = (if done then .reset else .sending) ∧
      t.ieNeed = (if done then false else s.ieNeed) ∧ t.ieEmpty = (if done then true else s.ieEmpty) ∧
      (t.fifoCtx c).buf = (s.fifoCtx c).buf ∧ (t.fifoCtx c).len = (s.fifoCtx c).len ∧
      (t.fifoCtx c).order = (s.fifoCtx c).order ∧ (t.fifoCtx c).inited = (s.fifoCtx c).inited ∧
      (∀ c', c' ≠ c → t.fifoCtx c' = s.fifoCtx c') ∧
      t.serSt = 0#32 ∧ t.serIe &&& s.cfg.legacyMask = s.serIe &&& s.cfg.legacyMask ∧
      t.ser.clkRun = s.ser.clkRun ∧ t.ser.insPend = s.ser.insPend ∧ t.ser.cfg = s.ser.cfg ∧
      t.ser.handler = s.ser.handler ∧ t.regFifo = s.regFifo ∧ t.ret = s.ret ∧
      NoFaultOrDraw s t ∧ SameGpioSide s t ∧ SameWorld s t

/-- R225, R226, R233, R278: with an enabled engine condition, `ser.irq` in `RESET` disables EMPTY, stops the clock and leaves
`IDLE` with the FIFO's words in place; in `IDLE` it only acknowledges; in `TRAILER` it acknowledges and raises `UnreachableState`.
HIST gains exactly these accesses, the read of SER_ST at the entry among them (log 15). -/
def Obligations.IrqInResetIdleOrTrailer : Prop :=
  ∀ (s : State) (c : Nat), s.ser.handler = true → s.serSt &&& s.serIe &&& 3#32 ≠ 0#32 →
    slotZero s.regFifo = some c → (s.fifoCtx c).state ≠ .sending →
    ∃ t, exec .serIrq s = .next t ∧ t.serSt = 0#32 ∧ t.ser.fifo = s.ser.fifo ∧ t.ser.insPend = s.ser.insPend ∧
      t.ser.cfg = s.ser.cfg ∧ t.ser.handler = s.ser.handler ∧ t.regFifo = s.regFifo ∧ t.ret = s.ret ∧
      SameGpioSide s t ∧ SameWorld s t ∧
      ((s.fifoCtx c).state = .reset →
        OnlyFifoCtx s t c { s.fifoCtx c with state := .idle } ∧ t.ser.clkRun = false ∧
        t.serIe = s.serIe &&& ~~~(2#32) ∧ NoFaultOrDraw s t ∧
        t.hist = s.hist ++ [.statusRead s.serSt, .regWrite (.serClr s.serSt), .regWrite (.serIeEmpty false),
          .regWrite (.serClkRun false)]) ∧
      ((s.fifoCtx c).state = .idle →
        (∀ c', t.fifoCtx c' = s.fifoCtx c') ∧ t.ser.clkRun = s.ser.clkRun ∧ t.serIe = s.serIe ∧ NoFaultOrDraw s t ∧
        t.hist = s.hist ++ [.statusRead s.serSt, .regWrite (.serClr s.serSt)]) ∧
      ((s.fifoCtx c).state = .trailer →
        (∀ c', t.fifoCtx c' = s.fifoCtx c') ∧ t.ser.clkRun = s.ser.clkRun ∧ t.serIe = s.serIe ∧
        Raised s t ⟨.serHandler, .unreachableState 3⟩ ∧
        t.hist = s.hist ++ [.statusRead s.serSt, .regWrite (.serClr s.serSt)])

/-- R230, R231, R87: with an inserted frame pending or a word queued, a drain emits exactly one frame, the inserted zero frame or
the head of the FIFO, and then raises NEED and EMPTY where the level it leaves meets their conditions; HIST gains exactly these
events, in this order (log 15). The bits it does not raise stay as they were. -/
def Obligations.DrainEmitsOneFrame : Prop :=
  ∀ (s : State), s.ser.clkRun = true → s.ser.handler = true → 0 < s.ser.insPend ∨ s.ser.fifo ≠ [] →
    ∃ t, exec .serDrain s = .next t ∧
      let raised : List Event :=
        (if t.ser.fifo.length ≤ s.cfg.lowWatermark then [.regWrite (.serStNeed true)] else []) ++
          (if t.ser.fifo.length ≤ s.cfg.advanceFrames then [.regWrite (.serStEmpty true)] else [])
      (0 < s.ser.insPend → t.ser.insPend = s.ser.insPend - 1 ∧ t.ser.fifo = s.ser.fifo ∧
        t.hist = s.hist ++ [.emit 0#32, .regWrite (.serInsPend (s.ser.insPend - 1))] ++ raised) ∧
      (s.ser.insPend = 0 → t.ser.insPend = 0 ∧
        ∃ w, s.ser.fifo = w :: t.ser.fifo ∧ t.hist = s.hist ++ [.regWrite .serFifoPop, .emit w] ++ raised) ∧
      t.stNeed = (s.stNeed || decide (t.ser.fifo.length ≤ s.cfg.lowWatermark)) ∧
      t.stEmpty = (s.stEmpty || decide (t.ser.fifo.length ≤ s.cfg.advanceFrames)) ∧
      t.serSt &&& ~~~(3#32) = s.serSt &&& ~~~(3#32) ∧ t.serIe = s.serIe ∧ t.ser.clkRun = true ∧
      t.ser.handler = true ∧ t.ser.cfg = s.ser.cfg ∧ (∀ c, t.fifoCtx c = s.fifoCtx c) ∧ t.regFifo = s.regFifo ∧
      t.ret = s.ret ∧ NoFaultOrDraw s t ∧ SameGpioSide s t ∧ SameWorld s t

/-- R230, R232, R276, R278: a drain with no inserted frame pending and an empty FIFO raises `FifoUnderrun` where the context in
slot 0 is in `SENDING` and `UnreachableState` where it is in `TRAILER`; where it is in `RESET` or `IDLE`, and where slot 0 is
`EMPTY` (log 21), the drain emits a drawn frame (a free value, log 9), records the underrun and raises both conditions. -/
def Obligations.DrainUnderrun : Prop :=
  ∀ (s : State), s.ser.clkRun = true → s.ser.handler = true → s.ser.insPend = 0 → s.ser.fifo = [] →
    ∃ t, exec .serDrain s = .next t ∧ (∀ c, t.fifoCtx c = s.fifoCtx c) ∧ t.regFifo = s.regFifo ∧ t.ret = s.ret ∧
      t.refused = s.refused ∧ SameGpioSide s t ∧ SameWorld s t ∧
      (∀ c, slotZero s.regFifo = some c → (s.fifoCtx c).state = .sending → t.ser = s.ser ∧ t.hist = s.hist ∧
        Raised s t ⟨.serializer, .fifoUnderrun (s.fifoCtx c).pix (s.fifoCtx c).byteIdx (s.fifoCtx c).trailer⟩) ∧
      (∀ c, slotZero s.regFifo = some c → (s.fifoCtx c).state = .trailer → t.ser = s.ser ∧ t.hist = s.hist ∧
        Raised s t ⟨.serializer, .unreachableState 3⟩) ∧
      (slotZero s.regFifo = none ∨
          (∃ c, slotZero s.regFifo = some c ∧ ((s.fifoCtx c).state = .reset ∨ (s.fifoCtx c).state = .idle)) →
        t.faults = s.faults ∧ t.draws = s.draws + 1 ∧ t.ser.fifo = [] ∧ t.ser.insPend = 0 ∧
        t.stNeed = true ∧ t.stEmpty = true ∧ t.serSt &&& ~~~(3#32) = s.serSt &&& ~~~(3#32) ∧ t.serIe = s.serIe ∧
        t.ser.clkRun = true ∧ t.ser.handler = true ∧ t.ser.cfg = s.ser.cfg ∧
        t.hist = s.hist ++ [.emit (Config.freeFrame s.draws), .underrun, .regWrite (.serStNeed true),
          .regWrite (.serStEmpty true)])

/-- R234: `legacy.raise` of a non-empty subset of LEGACY_MASK, in every state, sets those bits of SER_ST and does nothing else to
the engine; with the legacy bits enabled it asserts the shared line. That HIST records the write of SER_ST is log 15 (DEDUCED), that it
records no read of SER_ST is log 31 (DESIGN CHOICE). -/
def Obligations.LegacyRaiseSetsItsBits : Prop :=
  ∀ (s : State) (bits : Word), bits ≠ 0#32 → bits &&& ~~~s.cfg.legacyMask = 0#32 →
    ∃ t, exec (.legacyRaise bits) s = .next t ∧ t.serSt = s.serSt ||| bits ∧ t.serIe = s.serIe ∧
      (s.serIe &&& s.cfg.legacyMask = s.cfg.legacyMask → t.serIrqLine = true) ∧
      t.ser = { s.ser with st := t.ser.st } ∧ t.hist = s.hist ++ [.regWrite (.serStLegacy bits)] ∧
      (∀ c, t.fifoCtx c = s.fifoCtx c) ∧ t.regFifo = s.regFifo ∧ t.ret = s.ret ∧ NoFaultOrDraw s t ∧
      SameGpioSide s t ∧ SameWorld s t

/-- R206, R207: `trailer_len` of a byte count returns the trailer words and changes nothing else; the count covers the reset gap
and the advance notice with at most one word more, and the total sample count is even; with one inserted frame the trailer
is even exactly when the byte count is odd. -/
def Obligations.TrailerCoversTheGapWithEvenTotal : Prop :=
  ∀ (s : State) (n : Nat), 0 < n → n < 2 ^ 32 →
    ∃ t, exec (.trailerLen n) s = .next { s with ret := .trailerWords t } ∧
      (s.cfg.resetNs + s.cfg.sampleNs - 1) / s.cfg.sampleNs + s.cfg.advanceFrames ≤ t ∧
      t ≤ (s.cfg.resetNs + s.cfg.sampleNs - 1) / s.cfg.sampleNs + s.cfg.advanceFrames + 1 ∧
      (s.cfg.insertedFrames + n + t) % 2 = 0 ∧
      (s.cfg.insertedFrames = 1 → (t % 2 = 0 ↔ n % 2 = 1))

/-! ### The pure functions (40_tick_converter, 41_pwm_table) -/

/-- R111: in exact mode `ticks_for(t, d)` returns `floor(t · CLK_HZ / (d · 10^9))`, which is `(t · F) div 10^9` with
`F = CLK_HZ / d`, and changes nothing else. -/
def Obligations.TicksForIsExact : Prop :=
  ∀ (s : State) (t d : Nat), t < 2 ^ 32 → 1 ≤ d → s.cfg.clkHz % d = 0 → s.cfg.ticksMode = .exact →
    exec (.ticksFor t d) s = .next { s with ret := .ticks (t * s.cfg.clkHz / (d * 10 ^ 9)) } ∧
    t * s.cfg.clkHz / (d * 10 ^ 9) = t * (s.cfg.clkHz / d) / 10 ^ 9

/-- R113: a duration of 0 ns yields exactly 0 ticks for every admissible divisor, in both modes. -/
def Obligations.TicksForZeroIsZero : Prop :=
  ∀ (s : State) (d : Nat), 1 ≤ d → s.cfg.clkHz % d = 0 →
    exec (.ticksFor 0 d) s = .next { s with ret := .ticks 0 }

/-- R114 (its first sentence, in exact mode): `ticks_for` is monotonically non-decreasing in the duration. -/
def Obligations.TicksForIsMonotone : Prop :=
  ∀ (cfg : Config) (t u d : Nat), cfg.ticksMode = .exact → t ≤ u → ticksFor cfg t d ≤ ticksFor cfg u d

/-- R112, R115: in per-part mode `ticks_for` returns the literal decomposition (0 for 0 ns, as R113 says), and changes nothing
else; what it returns is at most the direct value and at least the direct value minus 2. -/
def Obligations.PerPartLosesAtMostTwoTicks : Prop :=
  ∀ (s : State) (t d : Nat), t < 2 ^ 32 → 1 ≤ d → s.cfg.clkHz % d = 0 → s.cfg.ticksMode = .perPart →
    let f := s.cfg.clkHz / d
    let n := if t * f ≤ 2 ^ 32 - 1 then t * f / 10 ^ 9
      else t / 1024 * f * 1024 / 10 ^ 9 + t % 1024 / 64 * f * 64 / 10 ^ 9 + t % 1024 % 64 * f / 10 ^ 9
    exec (.ticksFor t d) s = .next { s with ret := .ticks n } ∧
      n ≤ t * f / 10 ^ 9 ∧ t * f / 10 ^ 9 ≤ n + 2

/-- R131, R132: `pwm_nibble` returns the table's sixteen entries, and changes nothing else. -/
def Obligations.PwmNibbleIsTheTable : Prop :=
  ∀ (s : State) (v : Nat) (p : BitVec 12),
    ([0x924#12, 0x926#12, 0x934#12, 0x936#12, 0x9A4#12, 0x9A6#12, 0x9B4#12, 0x9B6#12, 0xD24#12, 0xD26#12, 0xD34#12,
      0xD36#12, 0xDA4#12, 0xDA6#12, 0xDB4#12, 0xDB6#12] : List (BitVec 12))[v]? = some p →
    exec (.pwmNibble v) s = .next { s with ret := .pattern p }

/-- R133, R85, R84: `pack_byte` returns the word whose upper half holds the high nibble's pattern and whose lower half the low
nibble's, each bit of the byte in its 3-bit slot as `110` or `100`, with bits [31:28] and [15:12] clear; it changes nothing
else. -/
def Obligations.PackByteLaysOutEveryBit : Prop :=
  ∀ (s : State) (b : Nat), b < 256 →
    ∃ w : Word, exec (.packByte b) s = .next { s with ret := .word w } ∧
      (∀ j, j < 8 → w.getLsbD (3 * j + 4 * (j / 4) + 2) = true ∧ w.getLsbD (3 * j + 4 * (j / 4) + 1) = b.testBit j ∧
        w.getLsbD (3 * j + 4 * (j / 4)) = false) ∧
      w &&& 0xF000F000#32 = 0#32
end

