-- ==== Sys2Proof/Laws/Encoding.lean ====
section
/-! SUPPORT. Numbers and their little-endian bytes, and the operand slots of a record: the lemmas that encoding facts are
proved from. -/

namespace Sys2Proof

@[simp] theorem leBytes_length (k n : Nat) : (leBytes k n).length = k := by
  induction k generalizing n with
  | zero => rfl
  | succ k ih => simp [leBytes, ih]

/-- The bytes of a number stand for the number, as far as they reach. -/
theorem leValue_leBytes (k n : Nat) : leValue (leBytes k n) = n % 256 ^ k := by
  induction k generalizing n with
  | zero => simp [leBytes, leValue, Nat.mod_one]
  | succ k ih =>
    rw [pow_succ, Nat.mul_comm (256 ^ k) 256, Nat.mod_mul, leBytes, leValue, ih, BitVec.toNat_ofNat]

/-- The number that bytes stand for has those bytes. -/
theorem leBytes_leValue (bs : List Byte) : leBytes bs.length (leValue bs) = bs := by
  induction bs with
  | nil => rfl
  | cons b bs ih =>
    have hb : b.toNat < 256 := b.isLt
    simp only [List.length_cons, leBytes, leValue]
    rw [show (b.toNat + 256 * leValue bs) / 256 = leValue bs by omega, ih]
    congr 1
    apply BitVec.eq_of_toNat_eq
    simp only [BitVec.toNat_ofNat]
    omega

theorem leValue_lt (bs : List Byte) : leValue bs < 256 ^ bs.length := by
  induction bs with
  | nil => simp [leValue]
  | cons b bs ih =>
    have hb : b.toNat < 256 := b.isLt
    simp only [leValue, List.length_cons, Nat.pow_succ]
    omega

/-- The four slots of four encoded values are those values. -/
theorem slots_of_leBytes (a b c d : Nat) (ha : a < 2 ^ 64) (hb : b < 2 ^ 64) (hc : c < 2 ^ 64) (hd : d < 2 ^ 64) :
    (leBytes 8 a ++ (leBytes 8 b ++ (leBytes 8 c ++ leBytes 8 d))).length = 32 ∧
      slot 0 (leBytes 8 a ++ (leBytes 8 b ++ (leBytes 8 c ++ leBytes 8 d))) = a ∧
      slot 1 (leBytes 8 a ++ (leBytes 8 b ++ (leBytes 8 c ++ leBytes 8 d))) = b ∧
      slot 2 (leBytes 8 a ++ (leBytes 8 b ++ (leBytes 8 c ++ leBytes 8 d))) = c ∧
      slot 3 (leBytes 8 a ++ (leBytes 8 b ++ (leBytes 8 c ++ leBytes 8 d))) = d := by
  have h (n : Nat) (hn : n < 2 ^ 64) : leValue (leBytes 8 n) = n := by
    rw [leValue_leBytes]; exact Nat.mod_eq_of_lt (by norm_num at hn ⊢; exact hn)
  have e (k n : Nat) (hk : 8 ≤ k) : (leBytes 8 n).drop k = [] := List.drop_eq_nil_of_le (by simp [hk])
  refine ⟨by simp, ?_, ?_, ?_, ?_⟩
  · simp [slot, h a ha]
  · simp [slot, h b hb]
  · simp [slot, h c hc, List.drop_append, e]
  · simp [slot, h d hd, List.drop_append, e, List.take_of_length_le]

/-- Four slots determine the 32 operand bytes. -/
theorem leBytes_of_slots (bs : List Byte) (h : bs.length = 32) :
    leBytes 8 (slot 0 bs) ++ (leBytes 8 (slot 1 bs) ++ (leBytes 8 (slot 2 bs) ++ leBytes 8 (slot 3 bs))) = bs := by
  have hs (k : Nat) (hk : k < 4) : leBytes 8 (slot k bs) = (bs.drop (8 * k)).take 8 := by
    have hl : ((bs.drop (8 * k)).take 8).length = 8 := by simp [h]; omega
    have := leBytes_leValue ((bs.drop (8 * k)).take 8)
    rwa [hl] at this
  rw [hs 0 (by omega), hs 1 (by omega), hs 2 (by omega), hs 3 (by omega)]
  have e3 : (bs.drop 24).take 8 = bs.drop 24 := List.take_of_length_le (by simp [h])
  have split8 (k : Nat) : (bs.drop k).take 8 ++ bs.drop (k + 8) = bs.drop k := by
    rw [← List.drop_drop, List.take_append_drop]
  rw [show 8 * 3 = 24 from rfl, e3, split8 16, split8 8]
  exact split8 0

theorem slot_lt (k : Nat) (bs : List Byte) : slot k bs < 2 ^ 64 := by
  have h := leValue_lt ((bs.drop (8 * k)).take 8)
  have hl : ((bs.drop (8 * k)).take 8).length ≤ 8 := by simp
  calc slot k bs < 256 ^ _ := h
    _ ≤ 256 ^ 8 := Nat.pow_le_pow_right (by omega) hl
    _ = 2 ^ 64 := by norm_num

/-- Operands of their types fit their slots. -/
theorem operandSlots_lt (i : Instr) (h : i.wf = true) :
    (operandSlots i).1 < 2 ^ 64 ∧ (operandSlots i).2.1 < 2 ^ 64 ∧ (operandSlots i).2.2.1 < 2 ^ 64 ∧
      (operandSlots i).2.2.2 < 2 ^ 64 := by
  cases i <;> simp only [Instr.wf, fitsSlot, fits32, Bool.and_eq_true, decide_eq_true_eq] at h <;>
    simp only [operandSlots]
  case gpioInit o => cases o <;> simp [orderCode] <;> omega
  case fifoInit o => cases o <;> simp [orderCode] <;> omega
  case register r c => cases r <;> simp [engineCode] <;> omega
  case legacyRaise b => have := b.isLt; omega
  all_goals omega

end Sys2Proof
end

