-- ==== Sys2Proof/Laws/State.lean ====
section
/-! SUPPORT. What each update of State leaves in each field: one lemma per field per update, true by rfl. The derived
views (contexts, status words, level) follow. -/

namespace Sys2Proof.Machine

/-! ### log -/

@[simp] theorem log_cfg (s : State) (e : Event) : (s.log e).cfg = s.cfg := rfl
@[simp] theorem log_mem (s : State) (e : Event) : (s.log e).mem = s.mem := rfl
@[simp] theorem log_gpio (s : State) (e : Event) : (s.log e).gpio = s.gpio := rfl
@[simp] theorem log_fifo (s : State) (e : Event) : (s.log e).fifo = s.fifo := rfl
@[simp] theorem log_regGpio (s : State) (e : Event) : (s.log e).regGpio = s.regGpio := rfl
@[simp] theorem log_regFifo (s : State) (e : Event) : (s.log e).regFifo = s.regFifo := rfl
@[simp] theorem log_tmr (s : State) (e : Event) : (s.log e).tmr = s.tmr := rfl
@[simp] theorem log_ser (s : State) (e : Event) : (s.log e).ser = s.ser := rfl
@[simp] theorem log_faults (s : State) (e : Event) : (s.log e).faults = s.faults := rfl
@[simp] theorem log_refused (s : State) (e : Event) : (s.log e).refused = s.refused := rfl
@[simp] theorem log_hist (s : State) (e : Event) : (s.log e).hist = s.hist ++ [e] := rfl
@[simp] theorem log_ret (s : State) (e : Event) : (s.log e).ret = s.ret := rfl
@[simp] theorem log_draws (s : State) (e : Event) : (s.log e).draws = s.draws := rfl
@[simp] theorem log_schedule (s : State) (e : Event) : (s.log e).schedule = s.schedule := rfl

/-! ### setGpio -/

@[simp] theorem setGpio_cfg (s : State) (c : Nat) (x : GpioCtx) : (s.setGpio c x).cfg = s.cfg := rfl
@[simp] theorem setGpio_mem (s : State) (c : Nat) (x : GpioCtx) : (s.setGpio c x).mem = s.mem := rfl
@[simp] theorem setGpio_gpio (s : State) (c : Nat) (x : GpioCtx) : (s.setGpio c x).gpio = put (gpioAtPowerOn s.cfg) s.gpio c x := rfl
@[simp] theorem setGpio_fifo (s : State) (c : Nat) (x : GpioCtx) : (s.setGpio c x).fifo = s.fifo := rfl
@[simp] theorem setGpio_regGpio (s : State) (c : Nat) (x : GpioCtx) : (s.setGpio c x).regGpio = s.regGpio := rfl
@[simp] theorem setGpio_regFifo (s : State) (c : Nat) (x : GpioCtx) : (s.setGpio c x).regFifo = s.regFifo := rfl
@[simp] theorem setGpio_tmr (s : State) (c : Nat) (x : GpioCtx) : (s.setGpio c x).tmr = s.tmr := rfl
@[simp] theorem setGpio_ser (s : State) (c : Nat) (x : GpioCtx) : (s.setGpio c x).ser = s.ser := rfl
@[simp] theorem setGpio_faults (s : State) (c : Nat) (x : GpioCtx) : (s.setGpio c x).faults = s.faults := rfl
@[simp] theorem setGpio_refused (s : State) (c : Nat) (x : GpioCtx) : (s.setGpio c x).refused = s.refused := rfl
@[simp] theorem setGpio_hist (s : State) (c : Nat) (x : GpioCtx) : (s.setGpio c x).hist = s.hist := rfl
@[simp] theorem setGpio_ret (s : State) (c : Nat) (x : GpioCtx) : (s.setGpio c x).ret = s.ret := rfl
@[simp] theorem setGpio_draws (s : State) (c : Nat) (x : GpioCtx) : (s.setGpio c x).draws = s.draws := rfl
@[simp] theorem setGpio_schedule (s : State) (c : Nat) (x : GpioCtx) : (s.setGpio c x).schedule = s.schedule := rfl

/-! ### setFifo -/

@[simp] theorem setFifo_cfg (s : State) (c : Nat) (x : FifoCtx) : (s.setFifo c x).cfg = s.cfg := rfl
@[simp] theorem setFifo_mem (s : State) (c : Nat) (x : FifoCtx) : (s.setFifo c x).mem = s.mem := rfl
@[simp] theorem setFifo_gpio (s : State) (c : Nat) (x : FifoCtx) : (s.setFifo c x).gpio = s.gpio := rfl
@[simp] theorem setFifo_fifo (s : State) (c : Nat) (x : FifoCtx) : (s.setFifo c x).fifo = put fifoAtPowerOn s.fifo c x := rfl
@[simp] theorem setFifo_regGpio (s : State) (c : Nat) (x : FifoCtx) : (s.setFifo c x).regGpio = s.regGpio := rfl
@[simp] theorem setFifo_regFifo (s : State) (c : Nat) (x : FifoCtx) : (s.setFifo c x).regFifo = s.regFifo := rfl
@[simp] theorem setFifo_tmr (s : State) (c : Nat) (x : FifoCtx) : (s.setFifo c x).tmr = s.tmr := rfl
@[simp] theorem setFifo_ser (s : State) (c : Nat) (x : FifoCtx) : (s.setFifo c x).ser = s.ser := rfl
@[simp] theorem setFifo_faults (s : State) (c : Nat) (x : FifoCtx) : (s.setFifo c x).faults = s.faults := rfl
@[simp] theorem setFifo_refused (s : State) (c : Nat) (x : FifoCtx) : (s.setFifo c x).refused = s.refused := rfl
@[simp] theorem setFifo_hist (s : State) (c : Nat) (x : FifoCtx) : (s.setFifo c x).hist = s.hist := rfl
@[simp] theorem setFifo_ret (s : State) (c : Nat) (x : FifoCtx) : (s.setFifo c x).ret = s.ret := rfl
@[simp] theorem setFifo_draws (s : State) (c : Nat) (x : FifoCtx) : (s.setFifo c x).draws = s.draws := rfl
@[simp] theorem setFifo_schedule (s : State) (c : Nat) (x : FifoCtx) : (s.setFifo c x).schedule = s.schedule := rfl

/-! ### readStatus -/

@[simp] theorem readStatus_cfg (s : State) : (readStatus s).cfg = s.cfg := rfl
@[simp] theorem readStatus_mem (s : State) : (readStatus s).mem = s.mem := rfl
@[simp] theorem readStatus_gpio (s : State) : (readStatus s).gpio = s.gpio := rfl
@[simp] theorem readStatus_fifo (s : State) : (readStatus s).fifo = s.fifo := rfl
@[simp] theorem readStatus_regGpio (s : State) : (readStatus s).regGpio = s.regGpio := rfl
@[simp] theorem readStatus_regFifo (s : State) : (readStatus s).regFifo = s.regFifo := rfl
@[simp] theorem readStatus_tmr (s : State) : (readStatus s).tmr = s.tmr := rfl
@[simp] theorem readStatus_ser (s : State) : (readStatus s).ser = s.ser := rfl
@[simp] theorem readStatus_faults (s : State) : (readStatus s).faults = s.faults := rfl
@[simp] theorem readStatus_refused (s : State) : (readStatus s).refused = s.refused := rfl
@[simp] theorem readStatus_hist (s : State) : (readStatus s).hist = s.hist ++ [.statusRead s.serSt] := rfl
@[simp] theorem readStatus_ret (s : State) : (readStatus s).ret = s.ret := rfl
@[simp] theorem readStatus_draws (s : State) : (readStatus s).draws = s.draws := rfl
@[simp] theorem readStatus_schedule (s : State) : (readStatus s).schedule = s.schedule := rfl

/-! ### writeReg -/

@[simp] theorem writeReg_cfg (w : RegWrite) (s : State) : (writeReg w s).cfg = s.cfg := rfl
@[simp] theorem writeReg_mem (w : RegWrite) (s : State) : (writeReg w s).mem = s.mem := rfl
@[simp] theorem writeReg_gpio (w : RegWrite) (s : State) : (writeReg w s).gpio = s.gpio := rfl
@[simp] theorem writeReg_fifo (w : RegWrite) (s : State) : (writeReg w s).fifo = s.fifo := rfl
@[simp] theorem writeReg_regGpio (w : RegWrite) (s : State) : (writeReg w s).regGpio = s.regGpio := rfl
@[simp] theorem writeReg_regFifo (w : RegWrite) (s : State) : (writeReg w s).regFifo = s.regFifo := rfl
@[simp] theorem writeReg_tmr (w : RegWrite) (s : State) : (writeReg w s).tmr = tmrEffect w s.tmr := rfl
@[simp] theorem writeReg_ser (w : RegWrite) (s : State) : (writeReg w s).ser = serEffect s.cfg w s.ser := rfl
@[simp] theorem writeReg_faults (w : RegWrite) (s : State) : (writeReg w s).faults = s.faults := rfl
@[simp] theorem writeReg_refused (w : RegWrite) (s : State) : (writeReg w s).refused = s.refused := rfl
@[simp] theorem writeReg_hist (w : RegWrite) (s : State) : (writeReg w s).hist = s.hist ++ [.regWrite w] := rfl
@[simp] theorem writeReg_ret (w : RegWrite) (s : State) : (writeReg w s).ret = s.ret := rfl
@[simp] theorem writeReg_draws (w : RegWrite) (s : State) : (writeReg w s).draws = s.draws := rfl
@[simp] theorem writeReg_schedule (w : RegWrite) (s : State) : (writeReg w s).schedule = s.schedule := rfl

/-! ### gpioWrite -/

@[simp] theorem gpioWrite_cfg (c : Nat) (l : Line) (b : Bool) (s : State) : (gpioWrite c l b s).cfg = s.cfg := rfl
@[simp] theorem gpioWrite_mem (c : Nat) (l : Line) (b : Bool) (s : State) : (gpioWrite c l b s).mem = s.mem := rfl
@[simp] theorem gpioWrite_fifo (c : Nat) (l : Line) (b : Bool) (s : State) : (gpioWrite c l b s).fifo = s.fifo := rfl
@[simp] theorem gpioWrite_regGpio (c : Nat) (l : Line) (b : Bool) (s : State) : (gpioWrite c l b s).regGpio = s.regGpio := rfl
@[simp] theorem gpioWrite_regFifo (c : Nat) (l : Line) (b : Bool) (s : State) : (gpioWrite c l b s).regFifo = s.regFifo := rfl
@[simp] theorem gpioWrite_tmr (c : Nat) (l : Line) (b : Bool) (s : State) : (gpioWrite c l b s).tmr = s.tmr := rfl
@[simp] theorem gpioWrite_ser (c : Nat) (l : Line) (b : Bool) (s : State) : (gpioWrite c l b s).ser = s.ser := rfl
@[simp] theorem gpioWrite_faults (c : Nat) (l : Line) (b : Bool) (s : State) : (gpioWrite c l b s).faults = s.faults := rfl
@[simp] theorem gpioWrite_refused (c : Nat) (l : Line) (b : Bool) (s : State) : (gpioWrite c l b s).refused = s.refused := rfl
@[simp] theorem gpioWrite_hist (c : Nat) (l : Line) (b : Bool) (s : State) : (gpioWrite c l b s).hist = s.hist ++ [.gpioWrite c l b] := rfl
@[simp] theorem gpioWrite_ret (c : Nat) (l : Line) (b : Bool) (s : State) : (gpioWrite c l b s).ret = s.ret := rfl
@[simp] theorem gpioWrite_draws (c : Nat) (l : Line) (b : Bool) (s : State) : (gpioWrite c l b s).draws = s.draws := rfl
@[simp] theorem gpioWrite_schedule (c : Nat) (l : Line) (b : Bool) (s : State) : (gpioWrite c l b s).schedule = s.schedule := rfl

/-! ### fifoPush -/

@[simp] theorem fifoPush_cfg (w : Word) (s : State) : (fifoPush w s).cfg = s.cfg := rfl
@[simp] theorem fifoPush_mem (w : Word) (s : State) : (fifoPush w s).mem = s.mem := rfl
@[simp] theorem fifoPush_gpio (w : Word) (s : State) : (fifoPush w s).gpio = s.gpio := rfl
@[simp] theorem fifoPush_fifo (w : Word) (s : State) : (fifoPush w s).fifo = s.fifo := rfl
@[simp] theorem fifoPush_regGpio (w : Word) (s : State) : (fifoPush w s).regGpio = s.regGpio := rfl
@[simp] theorem fifoPush_regFifo (w : Word) (s : State) : (fifoPush w s).regFifo = s.regFifo := rfl
@[simp] theorem fifoPush_tmr (w : Word) (s : State) : (fifoPush w s).tmr = s.tmr := rfl
@[simp] theorem fifoPush_ser (w : Word) (s : State) : (fifoPush w s).ser = { s.ser with fifo := s.ser.fifo ++ [w] } := rfl
@[simp] theorem fifoPush_faults (w : Word) (s : State) : (fifoPush w s).faults = s.faults := rfl
@[simp] theorem fifoPush_refused (w : Word) (s : State) : (fifoPush w s).refused = s.refused := rfl
@[simp] theorem fifoPush_hist (w : Word) (s : State) : (fifoPush w s).hist = s.hist ++ [.fifoPush w] := rfl
@[simp] theorem fifoPush_ret (w : Word) (s : State) : (fifoPush w s).ret = s.ret := rfl
@[simp] theorem fifoPush_draws (w : Word) (s : State) : (fifoPush w s).draws = s.draws := rfl
@[simp] theorem fifoPush_schedule (w : Word) (s : State) : (fifoPush w s).schedule = s.schedule := rfl

/-! ### emitFrame -/

@[simp] theorem emitFrame_cfg (f : Word) (s : State) : (emitFrame f s).cfg = s.cfg := rfl
@[simp] theorem emitFrame_mem (f : Word) (s : State) : (emitFrame f s).mem = s.mem := rfl
@[simp] theorem emitFrame_gpio (f : Word) (s : State) : (emitFrame f s).gpio = s.gpio := rfl
@[simp] theorem emitFrame_fifo (f : Word) (s : State) : (emitFrame f s).fifo = s.fifo := rfl
@[simp] theorem emitFrame_regGpio (f : Word) (s : State) : (emitFrame f s).regGpio = s.regGpio := rfl
@[simp] theorem emitFrame_regFifo (f : Word) (s : State) : (emitFrame f s).regFifo = s.regFifo := rfl
@[simp] theorem emitFrame_tmr (f : Word) (s : State) : (emitFrame f s).tmr = s.tmr := rfl
@[simp] theorem emitFrame_ser (f : Word) (s : State) : (emitFrame f s).ser = s.ser := rfl
@[simp] theorem emitFrame_faults (f : Word) (s : State) : (emitFrame f s).faults = s.faults := rfl
@[simp] theorem emitFrame_refused (f : Word) (s : State) : (emitFrame f s).refused = s.refused := rfl
@[simp] theorem emitFrame_hist (f : Word) (s : State) : (emitFrame f s).hist = s.hist ++ [.emit f] := rfl
@[simp] theorem emitFrame_ret (f : Word) (s : State) : (emitFrame f s).ret = s.ret := rfl
@[simp] theorem emitFrame_draws (f : Word) (s : State) : (emitFrame f s).draws = s.draws := rfl
@[simp] theorem emitFrame_schedule (f : Word) (s : State) : (emitFrame f s).schedule = s.schedule := rfl

/-! ### countDraw -/

@[simp] theorem countDraw_cfg (s : State) : (s.countDraw).cfg = s.cfg := rfl
@[simp] theorem countDraw_mem (s : State) : (s.countDraw).mem = s.mem := rfl
@[simp] theorem countDraw_gpio (s : State) : (s.countDraw).gpio = s.gpio := rfl
@[simp] theorem countDraw_fifo (s : State) : (s.countDraw).fifo = s.fifo := rfl
@[simp] theorem countDraw_regGpio (s : State) : (s.countDraw).regGpio = s.regGpio := rfl
@[simp] theorem countDraw_regFifo (s : State) : (s.countDraw).regFifo = s.regFifo := rfl
@[simp] theorem countDraw_tmr (s : State) : (s.countDraw).tmr = s.tmr := rfl
@[simp] theorem countDraw_ser (s : State) : (s.countDraw).ser = s.ser := rfl
@[simp] theorem countDraw_faults (s : State) : (s.countDraw).faults = s.faults := rfl
@[simp] theorem countDraw_refused (s : State) : (s.countDraw).refused = s.refused := rfl
@[simp] theorem countDraw_hist (s : State) : (s.countDraw).hist = s.hist := rfl
@[simp] theorem countDraw_ret (s : State) : (s.countDraw).ret = s.ret := rfl
@[simp] theorem countDraw_draws (s : State) : (s.countDraw).draws = s.draws + 1 := rfl
@[simp] theorem countDraw_schedule (s : State) : (s.countDraw).schedule = s.schedule := rfl

/-! ### returns -/

@[simp] theorem returns_cfg (r : Ret) (s : State) : (returns r s).cfg = s.cfg := rfl
@[simp] theorem returns_mem (r : Ret) (s : State) : (returns r s).mem = s.mem := rfl
@[simp] theorem returns_gpio (r : Ret) (s : State) : (returns r s).gpio = s.gpio := rfl
@[simp] theorem returns_fifo (r : Ret) (s : State) : (returns r s).fifo = s.fifo := rfl
@[simp] theorem returns_regGpio (r : Ret) (s : State) : (returns r s).regGpio = s.regGpio := rfl
@[simp] theorem returns_regFifo (r : Ret) (s : State) : (returns r s).regFifo = s.regFifo := rfl
@[simp] theorem returns_tmr (r : Ret) (s : State) : (returns r s).tmr = s.tmr := rfl
@[simp] theorem returns_ser (r : Ret) (s : State) : (returns r s).ser = s.ser := rfl
@[simp] theorem returns_faults (r : Ret) (s : State) : (returns r s).faults = s.faults := rfl
@[simp] theorem returns_refused (r : Ret) (s : State) : (returns r s).refused = s.refused := rfl
@[simp] theorem returns_hist (r : Ret) (s : State) : (returns r s).hist = s.hist := rfl
@[simp] theorem returns_ret (r : Ret) (s : State) : (returns r s).ret = r := rfl
@[simp] theorem returns_draws (r : Ret) (s : State) : (returns r s).draws = s.draws := rfl
@[simp] theorem returns_schedule (r : Ret) (s : State) : (returns r s).schedule = s.schedule := rfl

/-! ### refuse -/

@[simp] theorem refuse_cfg (r : Reason) (s : State) : (refuse r s).cfg = s.cfg := rfl
@[simp] theorem refuse_mem (r : Reason) (s : State) : (refuse r s).mem = s.mem := rfl
@[simp] theorem refuse_gpio (r : Reason) (s : State) : (refuse r s).gpio = s.gpio := rfl
@[simp] theorem refuse_fifo (r : Reason) (s : State) : (refuse r s).fifo = s.fifo := rfl
@[simp] theorem refuse_regGpio (r : Reason) (s : State) : (refuse r s).regGpio = s.regGpio := rfl
@[simp] theorem refuse_regFifo (r : Reason) (s : State) : (refuse r s).regFifo = s.regFifo := rfl
@[simp] theorem refuse_tmr (r : Reason) (s : State) : (refuse r s).tmr = s.tmr := rfl
@[simp] theorem refuse_ser (r : Reason) (s : State) : (refuse r s).ser = s.ser := rfl
@[simp] theorem refuse_faults (r : Reason) (s : State) : (refuse r s).faults = s.faults := rfl
@[simp] theorem refuse_refused (r : Reason) (s : State) : (refuse r s).refused = true := rfl
@[simp] theorem refuse_hist (r : Reason) (s : State) : (refuse r s).hist = s.hist := rfl
@[simp] theorem refuse_ret (r : Reason) (s : State) : (refuse r s).ret = .refused r := rfl
@[simp] theorem refuse_draws (r : Reason) (s : State) : (refuse r s).draws = s.draws := rfl
@[simp] theorem refuse_schedule (r : Reason) (s : State) : (refuse r s).schedule = s.schedule := rfl

/-! ### raise -/

@[simp] theorem raise_cfg (a : Agent) (k : FaultKind) (s : State) : (raise a k s).cfg = s.cfg := rfl
@[simp] theorem raise_mem (a : Agent) (k : FaultKind) (s : State) : (raise a k s).mem = s.mem := rfl
@[simp] theorem raise_gpio (a : Agent) (k : FaultKind) (s : State) : (raise a k s).gpio = s.gpio := rfl
@[simp] theorem raise_fifo (a : Agent) (k : FaultKind) (s : State) : (raise a k s).fifo = s.fifo := rfl
@[simp] theorem raise_regGpio (a : Agent) (k : FaultKind) (s : State) : (raise a k s).regGpio = s.regGpio := rfl
@[simp] theorem raise_regFifo (a : Agent) (k : FaultKind) (s : State) : (raise a k s).regFifo = s.regFifo := rfl
@[simp] theorem raise_tmr (a : Agent) (k : FaultKind) (s : State) : (raise a k s).tmr = s.tmr := rfl
@[simp] theorem raise_ser (a : Agent) (k : FaultKind) (s : State) : (raise a k s).ser = s.ser := rfl
@[simp] theorem raise_faults (a : Agent) (k : FaultKind) (s : State) : (raise a k s).faults = if ⟨a, k⟩ ∈ s.faults then s.faults else s.faults ++ [⟨a, k⟩] := rfl
@[simp] theorem raise_refused (a : Agent) (k : FaultKind) (s : State) : (raise a k s).refused = s.refused := rfl
@[simp] theorem raise_hist (a : Agent) (k : FaultKind) (s : State) : (raise a k s).hist = s.hist := rfl
@[simp] theorem raise_ret (a : Agent) (k : FaultKind) (s : State) : (raise a k s).ret = s.ret := rfl
@[simp] theorem raise_draws (a : Agent) (k : FaultKind) (s : State) : (raise a k s).draws = s.draws := rfl
@[simp] theorem raise_schedule (a : Agent) (k : FaultKind) (s : State) : (raise a k s).schedule = s.schedule := rfl

/-! ### setRegistry -/

@[simp] theorem setRegistry_cfg (s : State) (e : Engine) (r : List (Option Nat)) : (s.setRegistry e r).cfg = s.cfg := by cases e <;> rfl
@[simp] theorem setRegistry_mem (s : State) (e : Engine) (r : List (Option Nat)) : (s.setRegistry e r).mem = s.mem := by cases e <;> rfl
@[simp] theorem setRegistry_gpio (s : State) (e : Engine) (r : List (Option Nat)) : (s.setRegistry e r).gpio = s.gpio := by cases e <;> rfl
@[simp] theorem setRegistry_fifo (s : State) (e : Engine) (r : List (Option Nat)) : (s.setRegistry e r).fifo = s.fifo := by cases e <;> rfl
@[simp] theorem setRegistry_tmr (s : State) (e : Engine) (r : List (Option Nat)) : (s.setRegistry e r).tmr = s.tmr := by cases e <;> rfl
@[simp] theorem setRegistry_ser (s : State) (e : Engine) (r : List (Option Nat)) : (s.setRegistry e r).ser = s.ser := by cases e <;> rfl
@[simp] theorem setRegistry_faults (s : State) (e : Engine) (r : List (Option Nat)) : (s.setRegistry e r).faults = s.faults := by cases e <;> rfl
@[simp] theorem setRegistry_refused (s : State) (e : Engine) (r : List (Option Nat)) : (s.setRegistry e r).refused = s.refused := by cases e <;> rfl
@[simp] theorem setRegistry_hist (s : State) (e : Engine) (r : List (Option Nat)) : (s.setRegistry e r).hist = s.hist := by cases e <;> rfl
@[simp] theorem setRegistry_ret (s : State) (e : Engine) (r : List (Option Nat)) : (s.setRegistry e r).ret = s.ret := by cases e <;> rfl
@[simp] theorem setRegistry_draws (s : State) (e : Engine) (r : List (Option Nat)) : (s.setRegistry e r).draws = s.draws := by cases e <;> rfl
@[simp] theorem setRegistry_schedule (s : State) (e : Engine) (r : List (Option Nat)) : (s.setRegistry e r).schedule = s.schedule := by cases e <;> rfl
@[simp] theorem setRegistry_gpio_regGpio (s : State) (r : List (Option Nat)) : (s.setRegistry .gpio r).regGpio = r := rfl
@[simp] theorem setRegistry_gpio_regFifo (s : State) (r : List (Option Nat)) : (s.setRegistry .gpio r).regFifo = s.regFifo := rfl
@[simp] theorem setRegistry_fifo_regFifo (s : State) (r : List (Option Nat)) : (s.setRegistry .fifo r).regFifo = r := rfl
@[simp] theorem setRegistry_fifo_regGpio (s : State) (r : List (Option Nat)) : (s.setRegistry .fifo r).regGpio = s.regGpio := rfl

end Sys2Proof.Machine
end

