-- ==== Sys2Proof/Laws/Tables.lean ====
section
/-! SUPPORT. Tables with rising keys: read after write, and that every operation keeps the canonical form. Then the
same of memory and of the context tables of State. -/

namespace Sys2Proof.Machine

variable {α : Type}

@[simp] theorem lookup_insert_same (t : List (Nat × α)) (a : Nat) (x : α) : lookup (insert t a x) a = some x := by
  induction t with
  | nil => simp [insert, lookup]
  | cons e t ih =>
    obtain ⟨k, v⟩ := e
    simp only [insert]
    split
    · simp [lookup]
    · split
      · simp [lookup]
      · simp [lookup, *]

theorem lookup_insert_other (t : List (Nat × α)) {a b : Nat} (x : α) (h : b ≠ a) :
    lookup (insert t a x) b = lookup t b := by
  induction t with
  | nil => simp [insert, lookup, h]
  | cons e t ih =>
    obtain ⟨k, v⟩ := e
    simp only [insert]
    split
    · simp [lookup, h]
    · split
      · subst_vars; simp [lookup, h]
      · simp [lookup, ih]

@[simp] theorem lookup_erase_same (t : List (Nat × α)) (a : Nat) : lookup (erase t a) a = none := by
  induction t with
  | nil => rfl
  | cons e t ih =>
    obtain ⟨k, v⟩ := e
    simp only [erase]
    split
    · exact ih
    · simp [lookup, *]

theorem lookup_erase_other (t : List (Nat × α)) {a b : Nat} (h : b ≠ a) : lookup (erase t a) b = lookup t b := by
  induction t with
  | nil => rfl
  | cons e t ih =>
    obtain ⟨k, v⟩ := e
    simp only [erase]
    split
    · subst_vars; simp [lookup, h, ih]
    · simp [lookup, ih]

theorem risingAbove_weaken {lo lo' : Nat} (t : List (Nat × α)) (h : lo' ≤ lo) (ht : risingAbove lo t = true) :
    risingAbove lo' t = true := by
  cases t with
  | nil => rfl
  | cons e t =>
    obtain ⟨k, v⟩ := e
    simp only [risingAbove, Bool.and_eq_true, decide_eq_true_eq] at *
    exact ⟨by omega, ht.2⟩

theorem risingAbove_insert (t : List (Nat × α)) {lo a : Nat} (x : α) (h : lo < a) (ht : risingAbove lo t = true) :
    risingAbove lo (insert t a x) = true := by
  induction t generalizing lo with
  | nil => simp [insert, risingAbove, h]
  | cons e t ih =>
    obtain ⟨k, v⟩ := e
    simp only [risingAbove, Bool.and_eq_true, decide_eq_true_eq] at ht
    simp only [insert]
    split
    · simp [risingAbove, *]
    · split
      · subst_vars; simp [risingAbove, *]
      · simp only [risingAbove, Bool.and_eq_true, decide_eq_true_eq]
        exact ⟨ht.1, ih (by omega) ht.2⟩

theorem risingAbove_erase (t : List (Nat × α)) {lo : Nat} (a : Nat) (ht : risingAbove lo t = true) :
    risingAbove lo (erase t a) = true := by
  induction t generalizing lo with
  | nil => rfl
  | cons e t ih =>
    obtain ⟨k, v⟩ := e
    simp only [risingAbove, Bool.and_eq_true, decide_eq_true_eq] at ht
    simp only [erase]
    split
    · exact risingAbove_weaken _ (by omega) (ih ht.2)
    · simp only [risingAbove, Bool.and_eq_true, decide_eq_true_eq]
      exact ⟨ht.1, ih ht.2⟩

theorem rising_of_risingAbove {lo : Nat} (t : List (Nat × α)) (h : risingAbove lo t = true) : rising t = true := by
  cases t with
  | nil => rfl
  | cons e t => obtain ⟨k, v⟩ := e; simp only [risingAbove, Bool.and_eq_true] at h; exact h.2

theorem rising_insert (t : List (Nat × α)) (a : Nat) (x : α) (ht : rising t = true) : rising (insert t a x) = true := by
  cases t with
  | nil => rfl
  | cons e t =>
    obtain ⟨k, v⟩ := e
    simp only [rising] at ht
    simp only [insert]
    split
    · simp [rising, risingAbove, *]
    · split
      · subst_vars; simpa [rising] using ht
      · exact risingAbove_insert t x (by omega) ht

theorem rising_erase (t : List (Nat × α)) (a : Nat) (ht : rising t = true) : rising (erase t a) = true := by
  cases t with
  | nil => rfl
  | cons e t =>
    obtain ⟨k, v⟩ := e
    simp only [rising] at ht
    simp only [erase]
    split
    · exact rising_of_risingAbove _ (risingAbove_erase t a ht)
    · simpa [rising] using risingAbove_erase t a ht

theorem mem_insert (t : List (Nat × α)) {a : Nat} {x : α} {e : Nat × α} (h : e ∈ insert t a x) :
    e = (a, x) ∨ e ∈ t := by
  induction t with
  | nil => simpa [insert] using h
  | cons y t ih =>
    obtain ⟨k, v⟩ := y
    simp only [insert] at h
    split at h
    · simpa using h
    · split at h
      · simp only [List.mem_cons] at h ⊢; tauto
      · simp only [List.mem_cons] at h ⊢
        rcases h with h | h
        · exact .inr (.inl h)
        · exact (ih h).imp id .inr

theorem mem_erase (t : List (Nat × α)) {a : Nat} {e : Nat × α} (h : e ∈ erase t a) : e ∈ t := by
  induction t with
  | nil => simp [erase] at h
  | cons y t ih =>
    obtain ⟨k, v⟩ := y
    simp only [erase] at h
    split at h
    · exact .tail _ (ih h)
    · simp only [List.mem_cons] at h ⊢; exact h.imp id ih

variable [DecidableEq α]

@[simp] theorem fetch_put_same (d : Nat → α) (t : List (Nat × α)) (k : Nat) (v : α) : fetch d (put d t k v) k = v := by
  unfold fetch put
  split
  · simp [*]
  · simp

theorem fetch_put_other (d : Nat → α) (t : List (Nat × α)) {k k' : Nat} (v : α) (h : k' ≠ k) :
    fetch d (put d t k v) k' = fetch d t k' := by
  unfold fetch put
  split
  · rw [lookup_erase_other t h]
  · rw [lookup_insert_other t v h]

/-- Writing a key keeps the canonical form. -/
theorem canonical_put (d : Nat → α) (t : List (Nat × α)) (k : Nat) (v : α) (h : canonical d t = true) :
    canonical d (put d t k v) = true := by
  simp only [canonical, Bool.and_eq_true, List.all_eq_true, decide_eq_true_eq] at h ⊢
  unfold put
  split
  · exact ⟨rising_erase t k h.1, fun e he => h.2 e (mem_erase t he)⟩
  · refine ⟨rising_insert t k v h.1, fun e he => ?_⟩
    rcases mem_insert t he with rfl | he
    · assumption
    · exact h.2 e he

/-! ### Memory -/

@[simp] theorem readByte_writeByte_same (m : List Host.Cell) (a : Nat) (b : Byte) :
    readByte (writeByte m a b) a = some b := lookup_insert_same m a b

theorem readByte_writeByte_other (m : List Host.Cell) {a a' : Nat} (b : Byte) (h : a' ≠ a) :
    readByte (writeByte m a b) a' = readByte m a' := lookup_insert_other m b h

/-- A byte write keeps the canonical form. -/
theorem writeByte_wf (m : List Host.Cell) (a : Nat) (b : Byte) (h : Memory.wf m = true) :
    Memory.wf (writeByte m a b) = true := rising_insert m a b h

/-- A wide write keeps the canonical form. -/
theorem writeBytes_wf (bs : List Byte) (m : List Host.Cell) (a : Nat) (h : Memory.wf m = true) :
    Memory.wf (writeBytes m a bs) = true := by
  induction bs generalizing m a with
  | nil => exact h
  | cons b bs ih => exact ih _ _ (writeByte_wf m a b h)

/-- `MemWrite` keeps the canonical form. -/
theorem memWrite_wf (cfg : Config) (m m' : List Host.Cell) (addr n v : Nat) (h : Memory.wf m = true)
    (hw : memWrite cfg m addr n v = some m') : Memory.wf m' = true := by
  unfold memWrite at hw
  split at hw
  · cases hw; exact writeBytes_wf _ _ _ h
  · cases hw

/-- The reset memory has the canonical form. -/
theorem reset_memory_wf : Memory.wf State.reset.mem = true := rfl

/-! ### Contexts -/

@[simp] theorem gpioCtx_setGpio_same (s : State) (c : Nat) (x : GpioCtx) : (s.setGpio c x).gpioCtx c = x :=
  fetch_put_same _ _ _ _

theorem gpioCtx_setGpio_other (s : State) {c c' : Nat} (x : GpioCtx) (h : c' ≠ c) :
    (s.setGpio c x).gpioCtx c' = s.gpioCtx c' := fetch_put_other _ _ _ h

@[simp] theorem fifoCtx_setFifo_same (s : State) (c : Nat) (x : FifoCtx) : (s.setFifo c x).fifoCtx c = x :=
  fetch_put_same _ _ _ _

theorem fifoCtx_setFifo_other (s : State) {c c' : Nat} (x : FifoCtx) (h : c' ≠ c) :
    (s.setFifo c x).fifoCtx c' = s.fifoCtx c' := fetch_put_other _ _ _ h

/-- The context views depend on the context tables, and on the configured orders, alone. -/
theorem gpioCtx_congr {s t : State} (hc : s.cfg = t.cfg) (h : s.gpio = t.gpio) (c : Nat) :
    s.gpioCtx c = t.gpioCtx c := by
  simp [State.gpioCtx, hc, h]

theorem fifoCtx_congr {s t : State} (h : s.fifo = t.fifo) (c : Nat) : s.fifoCtx c = t.fifoCtx c := by
  simp [State.fifoCtx, h]

@[simp] theorem setFifo_gpioCtx (s : State) (c c' : Nat) (x : FifoCtx) : (s.setFifo c x).gpioCtx c' = s.gpioCtx c' := rfl
@[simp] theorem setGpio_fifoCtx (s : State) (c c' : Nat) (x : GpioCtx) : (s.setGpio c x).fifoCtx c' = s.fifoCtx c' := rfl
@[simp] theorem log_gpioCtx (s : State) (e : Event) (c : Nat) : (s.log e).gpioCtx c = s.gpioCtx c := rfl
@[simp] theorem log_fifoCtx (s : State) (e : Event) (c : Nat) : (s.log e).fifoCtx c = s.fifoCtx c := rfl
@[simp] theorem readStatus_gpioCtx (s : State) (c : Nat) : (readStatus s).gpioCtx c = s.gpioCtx c := rfl
@[simp] theorem readStatus_fifoCtx (s : State) (c : Nat) : (readStatus s).fifoCtx c = s.fifoCtx c := rfl
@[simp] theorem writeReg_gpioCtx (w : RegWrite) (s : State) (c : Nat) : (writeReg w s).gpioCtx c = s.gpioCtx c := rfl
@[simp] theorem writeReg_fifoCtx (w : RegWrite) (s : State) (c : Nat) : (writeReg w s).fifoCtx c = s.fifoCtx c := rfl
@[simp] theorem fifoPush_gpioCtx (w : Word) (s : State) (c : Nat) : (fifoPush w s).gpioCtx c = s.gpioCtx c := rfl
@[simp] theorem fifoPush_fifoCtx (w : Word) (s : State) (c : Nat) : (fifoPush w s).fifoCtx c = s.fifoCtx c := rfl
@[simp] theorem emitFrame_gpioCtx (f : Word) (s : State) (c : Nat) : (emitFrame f s).gpioCtx c = s.gpioCtx c := rfl
@[simp] theorem emitFrame_fifoCtx (f : Word) (s : State) (c : Nat) : (emitFrame f s).fifoCtx c = s.fifoCtx c := rfl
@[simp] theorem countDraw_gpioCtx (s : State) (c : Nat) : s.countDraw.gpioCtx c = s.gpioCtx c := rfl
@[simp] theorem countDraw_fifoCtx (s : State) (c : Nat) : s.countDraw.fifoCtx c = s.fifoCtx c := rfl
@[simp] theorem returns_gpioCtx (r : Ret) (s : State) (c : Nat) : (returns r s).gpioCtx c = s.gpioCtx c := rfl
@[simp] theorem returns_fifoCtx (r : Ret) (s : State) (c : Nat) : (returns r s).fifoCtx c = s.fifoCtx c := rfl
@[simp] theorem refuse_gpioCtx (r : Reason) (s : State) (c : Nat) : (refuse r s).gpioCtx c = s.gpioCtx c := rfl
@[simp] theorem refuse_fifoCtx (r : Reason) (s : State) (c : Nat) : (refuse r s).fifoCtx c = s.fifoCtx c := rfl
@[simp] theorem raise_gpioCtx (a : Agent) (k : FaultKind) (s : State) (c : Nat) :
    (raise a k s).gpioCtx c = s.gpioCtx c := rfl
@[simp] theorem raise_fifoCtx (a : Agent) (k : FaultKind) (s : State) (c : Nat) :
    (raise a k s).fifoCtx c = s.fifoCtx c := rfl
@[simp] theorem setRegistry_gpioCtx (s : State) (e : Engine) (r : List (Option Nat)) (c : Nat) :
    (s.setRegistry e r).gpioCtx c = s.gpioCtx c := by cases e <;> rfl
@[simp] theorem setRegistry_fifoCtx (s : State) (e : Engine) (r : List (Option Nat)) (c : Nat) :
    (s.setRegistry e r).fifoCtx c = s.fifoCtx c := by cases e <;> rfl
@[simp] theorem gpioWrite_fifoCtx (c : Nat) (l : Line) (b : Bool) (s : State) (c' : Nat) :
    (gpioWrite c l b s).fifoCtx c' = s.fifoCtx c' := rfl

/-- A line write drives that line of that context and nothing else of any context (R33). -/
@[simp] theorem gpioWrite_clk_same (c : Nat) (b : Bool) (s : State) :
    (gpioWrite c .clk b s).gpioCtx c = { s.gpioCtx c with clk := b } := by simp [gpioWrite]

@[simp] theorem gpioWrite_data_same (c : Nat) (b : Bool) (s : State) :
    (gpioWrite c .data b s).gpioCtx c = { s.gpioCtx c with data := b } := by simp [gpioWrite]

theorem gpioWrite_other (c : Nat) (l : Line) (b : Bool) (s : State) {c' : Nat} (h : c' ≠ c) :
    (gpioWrite c l b s).gpioCtx c' = s.gpioCtx c' := by
  cases l <;> simp [gpioWrite, gpioCtx_setGpio_other _ _ h]

end Sys2Proof.Machine
end

