-- ==== Sys2Proof/Laws/Spec.lean ====
section
/-! SUPPORT. One lemma for each shared operation that is no single field update: the registry scan, the status and enable
bits, raising the status, the operand checks, the timer load, reading a pixel. -/

namespace Sys2Proof.Machine

/-! ### The registry scan (42_registry R145) -/

theorem registerIn_full {r : List (Option Nat)} (c : Nat) (h : none ∉ r) : registerIn r c = none := by
  induction r with
  | nil => rfl
  | cons x r ih =>
    simp only [List.mem_cons, not_or] at h
    cases x with
    | none => simp at h
    | some x => simp [registerIn, ih h.2]

theorem registerIn_first (taken rest : List (Option Nat)) (c : Nat) (h : none ∉ taken) :
    registerIn (taken ++ none :: rest) c = some (taken.length, taken ++ some c :: rest) := by
  induction taken with
  | nil => rfl
  | cons x r ih =>
    simp only [List.mem_cons, not_or] at h
    cases x with
    | none => simp at h
    | some x => simp [registerIn, ih h.2]

/-- The scan fills one `EMPTY` slot, before which none is, and changes no other. -/
theorem registerIn_some {r r' : List (Option Nat)} {c i : Nat} (h : registerIn r c = some (i, r')) :
    ∃ taken rest, none ∉ taken ∧ taken.length = i ∧ r = taken ++ none :: rest ∧ r' = taken ++ some c :: rest := by
  induction r generalizing i r' with
  | nil => cases h
  | cons x r ih =>
    cases x with
    | none => cases h; exact ⟨[], r, by simp, rfl, rfl, rfl⟩
    | some x =>
      simp only [registerIn] at h
      split at h
      · cases h
        obtain ⟨taken, rest, hn, hl, hr, hr'⟩ := ih ‹_›
        exact ⟨some x :: taken, rest, by simp [hn], by simp [hl], by simp [hr], by simp [hr']⟩
      · cases h

/-! ### Status and enable bits (10_state R34, 30_encoding R91) -/

theorem and_one_ne (w : Word) : decide (w &&& 1#32 ≠ 0#32) = w.getLsbD 0 := by
  have h : w &&& 1#32 = 0#32 ↔ w.getLsbD 0 = false := by
    rw [BitVec.eq_of_getLsbD_eq_iff]
    constructor
    · intro h; simpa using h 0
    · intro h i hi
      rcases Nat.eq_zero_or_pos i with rfl | h0
      · simpa using h
      · simp [show ¬ i = 0 by omega]
  by_cases hw : w.getLsbD 0 = true
  · simp only [hw, decide_eq_true_eq]; intro h0; rw [h.mp h0] at hw; cases hw
  · simp only [Bool.not_eq_true] at hw; rw [hw, decide_eq_false_iff_not, not_not]; exact h.mpr hw

theorem and_two_ne (w : Word) : decide (w &&& 2#32 ≠ 0#32) = w.getLsbD 1 := by
  have h2 (i : Nat) : (2#32).getLsbD i = decide (i = 1) := by
    rw [show 2#32 = BitVec.twoPow 32 1 from rfl]
    simp [eq_comm]
  have h : w &&& 2#32 = 0#32 ↔ w.getLsbD 1 = false := by
    rw [BitVec.eq_of_getLsbD_eq_iff]
    constructor
    · intro h; have := h 1 (by omega); simpa [h2] using this
    · intro h i hi
      by_cases h0 : i = 1
      · subst h0; simpa [h2] using h
      · simp [h2, h0]
  by_cases hw : w.getLsbD 1 = true
  · simp only [hw, decide_eq_true_eq]; intro h0; rw [h.mp h0] at hw; cases hw
  · simp only [Bool.not_eq_true] at hw; rw [hw, decide_eq_false_iff_not, not_not]; exact h.mpr hw

@[simp] theorem needBit_getLsbD (i : Nat) : needBit.getLsbD i = decide (i = 0) := by
  rw [show needBit = BitVec.twoPow 32 0 from rfl]
  simp [eq_comm]

@[simp] theorem emptyBit_getLsbD (i : Nat) : emptyBit.getLsbD i = decide (i = 1) := by
  rw [show emptyBit = BitVec.twoPow 32 1 from rfl]
  simp [eq_comm]

@[simp] theorem validBits_getLsbD (cfg : Config) (i : Nat) :
    (validBits cfg).getLsbD i = (decide (i = 0) || decide (i = 1) || cfg.legacyMask.getLsbD i) := by
  simp [validBits]

@[simp] theorem withBit_getLsbD (w bit : Word) (b : Bool) (i : Nat) :
    (withBit w bit b).getLsbD i = if bit.getLsbD i then b else w.getLsbD i := by
  unfold withBit
  cases b
  · by_cases hi : i < 32
    · simp only [Bool.false_eq_true, if_false, BitVec.getLsbD_and, BitVec.getLsbD_not, hi, decide_true, Bool.true_and]
      cases bit.getLsbD i <;> simp
    · simp [BitVec.getLsbD_of_ge _ _ (Nat.not_lt.mp hi)]
  · simp only [if_true, BitVec.getLsbD_or]
    cases bit.getLsbD i <;> simp

/-- `SER_ST.NEED` is bit 0 of the stored word. -/
theorem stNeed_eq (s : State) : s.stNeed = s.ser.st.getLsbD 0 := by
  unfold State.stNeed
  rw [show needBit = 1#32 from rfl, and_one_ne]
  simp [State.serSt]

/-- `SER_ST.EMPTY` is bit 1 of the stored word. -/
theorem stEmpty_eq (s : State) : s.stEmpty = s.ser.st.getLsbD 1 := by
  unfold State.stEmpty
  rw [show emptyBit = 2#32 from rfl, and_two_ne]
  simp [State.serSt]

/-- `SER_IE.NEED` is bit 0 of the stored word. -/
theorem ieNeed_eq (s : State) : s.ieNeed = s.ser.ie.getLsbD 0 := by
  unfold State.ieNeed
  rw [show needBit = 1#32 from rfl, and_one_ne]
  simp [State.serIe]

/-- `SER_IE.EMPTY` is bit 1 of the stored word. -/
theorem ieEmpty_eq (s : State) : s.ieEmpty = s.ser.ie.getLsbD 1 := by
  unfold State.ieEmpty
  rw [show emptyBit = 2#32 from rfl, and_two_ne]
  simp [State.serIe]

/-- The legacy bits of the enables as they read are those of the stored word. -/
theorem serIe_legacy (s : State) : s.serIe &&& s.cfg.legacyMask = s.ser.ie &&& s.cfg.legacyMask := by
  apply BitVec.eq_of_getLsbD_eq
  intro i hi
  simp only [State.serIe, BitVec.getLsbD_and, validBits_getLsbD]
  cases s.cfg.legacyMask.getLsbD i <;> simp

/-- The legacy bits of the status as they read are those of the stored word. -/
theorem serSt_legacy (s : State) : s.serSt &&& s.cfg.legacyMask = s.ser.st &&& s.cfg.legacyMask := by
  apply BitVec.eq_of_getLsbD_eq
  intro i hi
  simp only [State.serSt, BitVec.getLsbD_and, validBits_getLsbD]
  cases s.cfg.legacyMask.getLsbD i <;> simp

/-- The legacy bits of an admissible instance are no engine conditions (00_scope R8). -/
theorem legacyMask_engine_bits {cfg : Config} (h : admissible cfg = true) :
    cfg.legacyMask.getLsbD 0 = false ∧ cfg.legacyMask.getLsbD 1 = false := by
  have h3 : cfg.legacyMask &&& (needBit ||| emptyBit) = 0#32 := by
    simp only [admissible, Bool.and_eq_true, decide_eq_true_eq] at h
    exact h.2
  have bit (i : Nat) : (cfg.legacyMask &&& (needBit ||| emptyBit)).getLsbD i = false := by rw [h3]; simp
  have h0 := bit 0
  have h1 := bit 1
  simp only [BitVec.getLsbD_and, BitVec.getLsbD_or, needBit_getLsbD, emptyBit_getLsbD] at h0 h1
  exact ⟨by simpa using h0, by simpa using h1⟩

/-- Acknowledging every status bit clears them all (44_fifo_engine R222). -/
theorem ack_all (st : Word) (cfg : Config) : (st &&& ~~~(st &&& validBits cfg)) &&& validBits cfg = 0#32 := by
  apply BitVec.eq_of_getLsbD_eq
  intro i hi
  simp only [BitVec.getLsbD_and, BitVec.getLsbD_not, hi, decide_true, Bool.true_and, BitVec.getLsbD_zero]
  cases st.getLsbD i <;> cases (validBits cfg).getLsbD i <;> rfl

/-! ### Raising the status (44_fifo_engine R231) -/

/-- `raise_status` changes status bits and HIST only. -/
theorem raiseStatus_frame (s : State) :
    ∃ st events, raiseStatus s = { s with ser := { s.ser with st := st }, hist := s.hist ++ events } ∧
      st.getLsbD 0 = (s.ser.st.getLsbD 0 || decide (s.level ≤ s.cfg.lowWatermark)) ∧
      st.getLsbD 1 = (s.ser.st.getLsbD 1 || decide (s.level ≤ s.cfg.advanceFrames)) ∧
      (∀ i, 2 ≤ i → (st &&& validBits s.cfg).getLsbD i = (s.ser.st &&& validBits s.cfg).getLsbD i) ∧
      events = (if s.level ≤ s.cfg.lowWatermark then [.regWrite (.serStNeed true)] else []) ++
        (if s.level ≤ s.cfg.advanceFrames then [.regWrite (.serStEmpty true)] else []) := by
  have bits (st : Word) (i : Nat) : (st &&& validBits s.cfg).getLsbD i
      = (st.getLsbD i && (decide (i = 0) || decide (i = 1) || s.cfg.legacyMask.getLsbD i)) := by
    rw [BitVec.getLsbD_and, validBits_getLsbD]
  by_cases h1 : s.level ≤ s.cfg.lowWatermark <;> by_cases h2 : s.level ≤ s.cfg.advanceFrames
  · have h2' : (writeReg (.serStNeed true) s).level ≤ (writeReg (.serStNeed true) s).cfg.advanceFrames := h2
    refine ⟨withBit (withBit s.ser.st needBit true &&& validBits s.cfg) emptyBit true &&& validBits s.cfg,
      [.regWrite (.serStNeed true), .regWrite (.serStEmpty true)], ?_, ?_⟩
    · unfold raiseStatus
      simp only [if_pos h1, if_pos h2']
      simp only [writeReg, serEffect, tmrEffect, List.append_assoc, List.cons_append, List.nil_append]
    · simp only [h1, h2, if_true, bits, withBit_getLsbD, needBit_getLsbD, emptyBit_getLsbD]
      refine ⟨by simp, by simp, fun i hi => ?_, rfl⟩
      simp [show ¬ i = 0 by omega, show ¬ i = 1 by omega]
  · have h2' : ¬(writeReg (.serStNeed true) s).level ≤ (writeReg (.serStNeed true) s).cfg.advanceFrames := h2
    refine ⟨withBit s.ser.st needBit true &&& validBits s.cfg, [.regWrite (.serStNeed true)], ?_, ?_⟩
    · unfold raiseStatus
      simp only [if_pos h1, if_neg h2']
      simp only [writeReg, serEffect, tmrEffect]
    · simp only [h1, h2, if_true, if_false, bits, withBit_getLsbD, needBit_getLsbD]
      refine ⟨by simp, by simp, fun i hi => ?_, rfl⟩
      simp [show ¬ i = 0 by omega, show ¬ i = 1 by omega]
  · refine ⟨withBit s.ser.st emptyBit true &&& validBits s.cfg, [.regWrite (.serStEmpty true)], ?_, ?_⟩
    · unfold raiseStatus
      simp only [if_neg h1, if_pos h2]
      simp only [writeReg, serEffect, tmrEffect]
    · simp only [h1, h2, if_true, if_false, bits, withBit_getLsbD, emptyBit_getLsbD]
      refine ⟨by simp, by simp, fun i hi => ?_, rfl⟩
      simp [show ¬ i = 0 by omega, show ¬ i = 1 by omega]
  · refine ⟨s.ser.st, [], by simp [raiseStatus, h1, h2], ?_⟩
    simp [h1, h2]

/-! ### Operand checks, timer load, pixel reads -/

theorem sendTyped_of {cfg : Config} {buf len : Nat} (hb : buf < 2 ^ cfg.addrBits) (hl : len < 2 ^ 32) :
    sendTyped cfg buf len = true := by
  simp only [sendTyped, Bool.and_eq_true, decide_eq_true_eq]
  exact ⟨hb, hl⟩

theorem gpioBufferOk_iff {cfg : Config} {buf len : Nat} :
    gpioBufferOk cfg buf len = true ↔ buf % 4 = 0 ∧ buf + 4 * len ≤ 2 ^ cfg.addrBits := by
  simp only [gpioBufferOk, Bool.and_eq_true, beq_iff_eq, decide_eq_true_eq]

theorem fifoBufferOk_iff {cfg : Config} {buf len : Nat} :
    fifoBufferOk cfg buf len = true ↔
      (buf % 4 = 0 ∧ buf + 4 * len ≤ 2 ^ cfg.addrBits) ∧ len * (cfg.bpp / 8) < 2 ^ 32 := by
  simp only [fifoBufferOk, Bool.and_eq_true, gpioBufferOk_iff, decide_eq_true_eq]

theorem loadTimer_fits (a : Agent) {n : Nat} (s : State) (h1 : 1 ≤ n) (h2 : n ≤ 2 ^ s.cfg.timerBits - 1) :
    loadTimer a n s = .ok (writeReg (.tmrLoad n) s) := by
  unfold loadTimer
  rw [if_pos ⟨h1, h2⟩]

theorem loadTimer_outOfRange (a : Agent) {n : Nat} (s : State) (h : n = 0 ∨ 2 ^ s.cfg.timerBits ≤ n) :
    loadTimer a n s = .error (raise a (.ticksOutOfRange n) s) := by
  have hp : 0 < 2 ^ s.cfg.timerBits := Nat.two_pow_pos _
  unfold loadTimer
  rw [if_neg (by omega)]

theorem readPixel_some {buf i : Nat} {s : State} {w : Word} (h : pixelWord s.cfg s.mem buf i = some w) :
    readPixel buf i s = some (w, s.log (.memRead (pixelAddr buf i) w)) := by
  simp [readPixel, h]

theorem readPixel_none {buf i : Nat} {s : State} (h : pixelWord s.cfg s.mem buf i = none) :
    readPixel buf i s = none := by
  simp [readPixel, h]

/-! ### The slot-0 setups (42_registry R149) -/

/-- What clearing the timer leaves (43_gpio_engine R164). -/
theorem gpioClearTimer_eq (s : State) : gpioClearTimer s = { s with
    tmr := { load := 0, auto := false, en := false, ie := false, pend := false, handler := s.tmr.handler }
    hist := s.hist ++ [.regWrite (.tmrEn false), .regWrite (.tmrIe false), .regWrite (.tmrAuto false),
      .regWrite (.tmrLoad 0), .regWrite (.tmrPend false)] } := by
  simp only [gpioClearTimer, writeReg, tmrEffect, serEffect, List.append_assoc, List.cons_append, List.nil_append]

/-- What clearing the serializer leaves (44_fifo_engine R203): only the legacy enables of `SER_IE` stay. -/
theorem fifoClearSerializer_eq (g : Nat) (s : State) : ∃ ie : Word, fifoClearSerializer g s = { s with
      ser := { cfg := g, clkRun := false, fifo := [], insPend := 0, ie := ie, st := 0#32, handler := s.ser.handler }
      hist := s.hist ++ [.regWrite (.serClkRun false), .regWrite (.serIeNeed false), .regWrite (.serIeEmpty false),
        .regWrite (.serClr 0xFFFFFFFF#32), .regWrite .serFifoReset, .regWrite (.serInsPend 0),
        .regWrite (.serCfg g)] } ∧
    ie.getLsbD 0 = false ∧ ie.getLsbD 1 = false ∧
    ∀ i, 2 ≤ i → (ie &&& validBits s.cfg).getLsbD i = (s.ser.ie &&& validBits s.cfg).getLsbD i := by
  have h0 (st : Word) : (st &&& ~~~0xFFFFFFFF#32) &&& validBits s.cfg = 0#32 := by
    rw [show ~~~0xFFFFFFFF#32 = 0#32 from rfl]; simp
  refine ⟨withBit (withBit s.ser.ie needBit false &&& validBits s.cfg) emptyBit false &&& validBits s.cfg, ?_, ?_, ?_, ?_⟩
  · simp only [fifoClearSerializer, writeReg, tmrEffect, serEffect, h0, List.append_assoc, List.cons_append,
      List.nil_append]
  · simp only [BitVec.getLsbD_and, withBit_getLsbD, needBit_getLsbD, emptyBit_getLsbD]; simp
  · simp only [BitVec.getLsbD_and, withBit_getLsbD, emptyBit_getLsbD]; simp
  · intro i hi
    simp only [BitVec.getLsbD_and, withBit_getLsbD, needBit_getLsbD, emptyBit_getLsbD]
    simp [show ¬ i = 0 by omega, show ¬ i = 1 by omega]

theorem gpioSetup_attached {s : State} (h : Config.freeAttach s.draws = true) :
    gpioSetup s = .ok (writeReg (.tmrHandler true) (gpioClearTimer s).countDraw) := by simp [gpioSetup, h]

theorem gpioSetup_failed {s : State} (h : Config.freeAttach s.draws = false) :
    gpioSetup s = .error (raise .host (.initHardwareFailure .gpio) (gpioClearTimer s).countDraw) := by simp [gpioSetup, h]

theorem fifoSetup_attached {s : State} (g : Nat) (h : Config.freeAttach s.draws = true) :
    fifoSetup g s = .ok (writeReg (.serHandler true) (fifoClearSerializer g s).countDraw) := by simp [fifoSetup, h]

theorem fifoSetup_failed {s : State} (g : Nat) (h : Config.freeAttach s.draws = false) :
    fifoSetup g s = .error (raise .host (.initHardwareFailure .fifo) (fifoClearSerializer g s).countDraw) := by
  simp [fifoSetup, h]

/-! ### Context writes and line writes (43_gpio_engine) -/

/-- `t` is `s` but for the GPIO context `c`, which is `x`, and events added to HIST. -/
def GpioUpdate (s t : State) (c : Nat) (x : GpioCtx) (events : List Event) : Prop :=
  t = { s with gpio := t.gpio, hist := s.hist ++ events } ∧ t.gpioCtx c = x ∧ ∀ c', c' ≠ c → t.gpioCtx c' = s.gpioCtx c'

theorem GpioUpdate.trans {s t u : State} {c : Nat} {x y : GpioCtx} {ev ev' : List Event} (h : GpioUpdate s t c x ev)
    (h' : GpioUpdate t u c y ev') : GpioUpdate s u c y (ev ++ ev') := by
  obtain ⟨e, -, o⟩ := h
  obtain ⟨e', y', o'⟩ := h'
  refine ⟨?_, y', fun c' hc => (o' c' hc).trans (o c' hc)⟩
  rw [e', e]
  simp only [List.append_assoc]

theorem GpioUpdate.cfg {s t : State} {c : Nat} {x : GpioCtx} {ev : List Event} (h : GpioUpdate s t c x ev) :
    t.cfg = s.cfg := by rw [h.1]
theorem GpioUpdate.mem {s t : State} {c : Nat} {x : GpioCtx} {ev : List Event} (h : GpioUpdate s t c x ev) :
    t.mem = s.mem := by rw [h.1]
theorem GpioUpdate.fifo {s t : State} {c : Nat} {x : GpioCtx} {ev : List Event} (h : GpioUpdate s t c x ev) :
    t.fifo = s.fifo := by rw [h.1]
theorem GpioUpdate.regGpio {s t : State} {c : Nat} {x : GpioCtx} {ev : List Event} (h : GpioUpdate s t c x ev) :
    t.regGpio = s.regGpio := by rw [h.1]
theorem GpioUpdate.regFifo {s t : State} {c : Nat} {x : GpioCtx} {ev : List Event} (h : GpioUpdate s t c x ev) :
    t.regFifo = s.regFifo := by rw [h.1]
theorem GpioUpdate.tmr {s t : State} {c : Nat} {x : GpioCtx} {ev : List Event} (h : GpioUpdate s t c x ev) :
    t.tmr = s.tmr := by rw [h.1]
theorem GpioUpdate.ser {s t : State} {c : Nat} {x : GpioCtx} {ev : List Event} (h : GpioUpdate s t c x ev) :
    t.ser = s.ser := by rw [h.1]
theorem GpioUpdate.faults {s t : State} {c : Nat} {x : GpioCtx} {ev : List Event} (h : GpioUpdate s t c x ev) :
    t.faults = s.faults := by rw [h.1]
theorem GpioUpdate.refused {s t : State} {c : Nat} {x : GpioCtx} {ev : List Event} (h : GpioUpdate s t c x ev) :
    t.refused = s.refused := by rw [h.1]
theorem GpioUpdate.ret {s t : State} {c : Nat} {x : GpioCtx} {ev : List Event} (h : GpioUpdate s t c x ev) :
    t.ret = s.ret := by rw [h.1]
theorem GpioUpdate.draws {s t : State} {c : Nat} {x : GpioCtx} {ev : List Event} (h : GpioUpdate s t c x ev) :
    t.draws = s.draws := by rw [h.1]
theorem GpioUpdate.schedule {s t : State} {c : Nat} {x : GpioCtx} {ev : List Event} (h : GpioUpdate s t c x ev) :
    t.schedule = s.schedule := by rw [h.1]
theorem GpioUpdate.hist {s t : State} {c : Nat} {x : GpioCtx} {ev : List Event} (h : GpioUpdate s t c x ev) :
    t.hist = s.hist ++ ev := by rw [h.1]

theorem setGpio_update (s : State) (c : Nat) (x : GpioCtx) : GpioUpdate s (s.setGpio c x) c x [] :=
  ⟨by simp [State.setGpio], gpioCtx_setGpio_same s c x, fun _ hc => gpioCtx_setGpio_other s x hc⟩

theorem log_update (s : State) (c : Nat) (e : Event) : GpioUpdate s (s.log e) c (s.gpioCtx c) [e] :=
  ⟨rfl, rfl, fun _ _ => rfl⟩

theorem gpioWrite_clk_update (c : Nat) (b : Bool) (s : State) :
    GpioUpdate s (gpioWrite c .clk b s) c { s.gpioCtx c with clk := b } [.gpioWrite c .clk b] :=
  ⟨rfl, gpioWrite_clk_same c b s, fun _ hc => gpioWrite_other c .clk b s hc⟩

theorem gpioWrite_data_update (c : Nat) (b : Bool) (s : State) :
    GpioUpdate s (gpioWrite c .data b s) c { s.gpioCtx c with data := b } [.gpioWrite c .data b] :=
  ⟨rfl, gpioWrite_data_same c b s, fun _ hc => gpioWrite_other c .data b s hc⟩

/-- One bit on the lines: clock low, data, clock high (R174). -/
theorem gpioPulse_update (c : Nat) (b : Bool) (s : State) :
    GpioUpdate s (gpioPulse c b s) c { s.gpioCtx c with clk := true, data := b }
      [.gpioWrite c .clk false, .gpioWrite c .data b, .gpioWrite c .clk true] := by
  have h := ((gpioWrite_clk_update c false s).trans (gpioWrite_data_update c b _)).trans (gpioWrite_clk_update c true _)
  simp only [gpioWrite_data_same, gpioWrite_clk_same] at h
  exact h

/-- Both lines low (R164, R173). -/
theorem gpioLow_update (c : Nat) (s : State) :
    GpioUpdate s (gpioWrite c .data false (gpioWrite c .clk false s)) c { s.gpioCtx c with clk := false, data := false }
      [.gpioWrite c .clk false, .gpioWrite c .data false] := by
  have h := (gpioWrite_clk_update c false s).trans (gpioWrite_data_update c false _)
  simp only [gpioWrite_clk_same] at h
  exact h

theorem GpioUpdate.setGpio {s t : State} {c : Nat} {x : GpioCtx} {ev : List Event} (h : GpioUpdate s t c x ev)
    (y : GpioCtx) : GpioUpdate s (t.setGpio c y) c y ev := by
  have h2 := h.trans (setGpio_update t c y)
  rwa [List.append_nil] at h2

/-- The end of a successful init (R164). -/
theorem gpioConfigure_spec (c k d : Nat) (o : Order) (s : State) : ∃ t,
    gpioConfigure c k d o s = returns (.status .ok) t ∧
      GpioUpdate s t c { s.gpioCtx c with
        clkLine := k, dataLine := d, order := o, clk := false, data := false, state := .idle, inited := true }
        [.gpioWrite c .clk false, .gpioWrite c .data false] := by
  have h := (setGpio_update s c { s.gpioCtx c with clkLine := k, dataLine := d, order := o }).trans (gpioLow_update c _)
  have hg : ∀ u : State, GpioUpdate s u c { s.gpioCtx c with
      clkLine := k, dataLine := d, order := o, clk := false, data := false }
        [.gpioWrite c .clk false, .gpioWrite c .data false] →
      GpioUpdate s (u.setGpio c { u.gpioCtx c with state := .idle, inited := true }) c { s.gpioCtx c with
        clkLine := k, dataLine := d, order := o, clk := false, data := false, state := .idle, inited := true }
        [.gpioWrite c .clk false, .gpioWrite c .data false] := by
    intro u hu
    have h2 := hu.setGpio { u.gpioCtx c with state := .idle, inited := true }
    rw [hu.2.1] at h2 ⊢
    exact h2
  rw [gpioCtx_setGpio_same] at h
  exact ⟨_, rfl, hg _ h⟩

/-- What `step_sending` does with an admitted pixel read (R174). -/
theorem stepSending_spec {c : Nat} {s : State} {w : Word}
    (hw : pixelWord s.cfg s.mem (s.gpioCtx c).buf (s.gpioCtx c).pix = some w) :
    ∃ t, stepSending c s = .next t ∧ GpioUpdate s t c
      (gpioAdvance s.cfg { s.gpioCtx c with clk := true, data := maskedBit w (s.gpioCtx c).mask })
      [.memRead (pixelAddr (s.gpioCtx c).buf (s.gpioCtx c).pix) w, .gpioWrite c .clk false,
        .gpioWrite c .data (maskedBit w (s.gpioCtx c).mask), .gpioWrite c .clk true] := by
  have h := (log_update s c (.memRead (pixelAddr (s.gpioCtx c).buf (s.gpioCtx c).pix) w)).trans
    (gpioPulse_update c (maskedBit w (s.gpioCtx c).mask) _)
  rw [log_gpioCtx] at h
  have hg (v : State) (ev : List Event) (hv : GpioUpdate s v c
      { s.gpioCtx c with clk := true, data := maskedBit w (s.gpioCtx c).mask } ev) :
      GpioUpdate s (v.setGpio c (gpioAdvance v.cfg (v.gpioCtx c))) c
        (gpioAdvance s.cfg { s.gpioCtx c with clk := true, data := maskedBit w (s.gpioCtx c).mask }) ev := by
    rw [hv.cfg, hv.2.1]
    exact hv.setGpio _
  exact ⟨_, by simp only [stepSending, readPixel_some hw], hg _ _ h⟩

theorem stepSending_stuck {c : Nat} {s : State}
    (hw : pixelWord s.cfg s.mem (s.gpioCtx c).buf (s.gpioCtx c).pix = none) :
    stepSending c s = .fault (.readNotAdmitted (pixelAddr (s.gpioCtx c).buf (s.gpioCtx c).pix)) := by
  simp only [stepSending, readPixel_none hw]

/-- What `step_finish` does where RESET_TICKS fits the timer (R173). -/
theorem stepFinish_spec {c : Nat} {s : State} (h1 : 1 ≤ resetTicks s.cfg)
    (h2 : resetTicks s.cfg ≤ 2 ^ s.cfg.timerBits - 1) :
    ∃ u, GpioUpdate s u c { s.gpioCtx c with clk := false, data := false }
        [.gpioWrite c .clk false, .gpioWrite c .data false] ∧
      stepFinish c s = (writeReg (.tmrLoad (resetTicks s.cfg)) u).setGpio c
        { s.gpioCtx c with clk := false, data := false, state := .reset } := by
  have h := gpioLow_update c s
  refine ⟨_, h, ?_⟩
  have hl := loadTimer_fits .nmiHandler (n := resetTicks s.cfg) (gpioWrite c .data false (gpioWrite c .clk false s)) h1 h2
  simp only [stepFinish, gpioWrite_cfg]
  rw [hl]
  simp only [writeReg_gpioCtx, h.2.1]

/-- What `step_finish` does where RESET_TICKS does not fit the timer (R173, R166). -/
theorem stepFinish_outOfRange {c : Nat} {s : State} (h : resetTicks s.cfg = 0 ∨ 2 ^ s.cfg.timerBits ≤ resetTicks s.cfg) :
    ∃ u, GpioUpdate s u c { s.gpioCtx c with clk := false, data := false }
        [.gpioWrite c .clk false, .gpioWrite c .data false] ∧
      stepFinish c s = raise .nmiHandler (.ticksOutOfRange (resetTicks s.cfg)) u := by
  refine ⟨_, gpioLow_update c s, ?_⟩
  have hl := loadTimer_outOfRange .nmiHandler (n := resetTicks s.cfg)
    (gpioWrite c .data false (gpioWrite c .clk false s)) h
  simp only [stepFinish, gpioWrite_cfg]
  rw [hl]

/-- Where a tick count lies. -/
theorem ticks_cases (cfg : Config) (n : Nat) :
    (1 ≤ n ∧ n ≤ 2 ^ cfg.timerBits - 1) ∨ (n = 0 ∨ 2 ^ cfg.timerBits ≤ n) := by
  have hp : 0 < 2 ^ cfg.timerBits := Nat.two_pow_pos _
  omega

/-! ### The cursor (10_state R26) -/

/-- The 8 to 32 bits per pixel of an admissible instance. -/
theorem admissible_bpp {cfg : Config} (h : admissible cfg = true) :
    8 ≤ cfg.bpp ∧ cfg.bpp ≤ 32 ∧ cfg.bpp % 8 = 0 ∧ cfg.maxCtxGpio = 1 ∧ cfg.maxCtxFifo = 1 := by
  simp only [admissible, Bool.and_eq_true, Bool.or_eq_true, beq_iff_eq] at h
  omega

theorem oneHot_shiftRight {k : Nat} (hk : k < 32) (h0 : k ≠ 0) : (1#32 <<< k) >>> 1 = 1#32 <<< (k - 1) := by
  have h : ∀ k : Fin 32, k.val ≠ 0 → (1#32 <<< k.val) >>> 1 = 1#32 <<< (k.val - 1) := by decide
  exact h ⟨k, hk⟩ h0

theorem oneHot_shiftLeft (k : Nat) : (1#32 <<< k) <<< 1 = 1#32 <<< (k + 1) := (BitVec.shiftLeft_add ..).symm

theorem oneHot_inj {j k : Nat} (hj : j < 32) (hk : k < 32) (h : 1#32 <<< j = 1#32 <<< k) : j = k := by
  have hd : ∀ j k : Fin 32, 1#32 <<< j.val = 1#32 <<< k.val → j = k := by decide
  exact congrArg Fin.val (hd ⟨j, hj⟩ ⟨k, hk⟩ h)

/-- The masked bit of a one-hot mask is the bit it selects (30_encoding R89). -/
theorem maskedBit_oneHot (w : Word) {k : Nat} (hk : k < 32) : maskedBit w (1#32 <<< k) = w.getLsbD k := by
  have hb (i : Nat) : (1#32 <<< k).getLsbD i = decide (i = k) := by
    rw [show 1#32 <<< k = BitVec.twoPow 32 k from (BitVec.twoPow_eq ..).symm, BitVec.getLsbD_twoPow]
    simp only [hk, decide_true, Bool.true_and, eq_comm]
  have h : w &&& 1#32 <<< k = 0#32 ↔ w.getLsbD k = false := by
    rw [BitVec.eq_of_getLsbD_eq_iff]
    constructor
    · intro h; have := h k hk; simpa only [BitVec.getLsbD_and, hb, decide_true, Bool.and_true, BitVec.getLsbD_zero] using this
    · intro h i hi
      rw [BitVec.getLsbD_and, hb, BitVec.getLsbD_zero]
      by_cases hik : i = k
      · subst hik; rw [h]; rfl
      · simp only [hik, decide_false, Bool.and_false]
  unfold maskedBit
  by_cases hw : w.getLsbD k = true
  · rw [hw, decide_eq_true_eq]; intro h0; rw [h.mp h0] at hw; cases hw
  · rw [Bool.not_eq_true] at hw; rw [hw, decide_eq_false_iff_not, not_not]; exact h.mpr hw

end Sys2Proof.Machine
end

