-- ==== Sys2Proof/Laws/Fill.lean ====
section
/-! SUPPORT. What the fill routine does (44_fifo_engine R212): which part of State it leaves, and that it pushes the stream of
words still to push, in order. -/

namespace Sys2Proof.Machine

/-- What no part of a fill of context `c` changes. -/
structure FillFrame (c : Nat) (s t : State) : Prop where
  cfg : t.cfg = s.cfg
  mem : t.mem = s.mem
  gpio : t.gpio = s.gpio
  regGpio : t.regGpio = s.regGpio
  regFifo : t.regFifo = s.regFifo
  tmr : t.tmr = s.tmr
  faults : t.faults = s.faults
  refused : t.refused = s.refused
  ret : t.ret = s.ret
  draws : t.draws = s.draws
  schedule : t.schedule = s.schedule
  clkRun : t.ser.clkRun = s.ser.clkRun
  insPend : t.ser.insPend = s.ser.insPend
  serCfg : t.ser.cfg = s.ser.cfg
  st : t.ser.st = s.ser.st
  handler : t.ser.handler = s.ser.handler
  buf : (t.fifoCtx c).buf = (s.fifoCtx c).buf
  len : (t.fifoCtx c).len = (s.fifoCtx c).len
  order : (t.fifoCtx c).order = (s.fifoCtx c).order
  inited : (t.fifoCtx c).inited = (s.fifoCtx c).inited
  others : ∀ c', c' ≠ c → t.fifoCtx c' = s.fifoCtx c'

theorem FillFrame.refl (c : Nat) (s : State) : FillFrame c s s := by constructor <;> intros <;> rfl

theorem FillFrame.trans {c : Nat} {s t u : State} (h : FillFrame c s t) (h' : FillFrame c t u) : FillFrame c s u where
  cfg := h'.cfg.trans h.cfg
  mem := h'.mem.trans h.mem
  gpio := h'.gpio.trans h.gpio
  regGpio := h'.regGpio.trans h.regGpio
  regFifo := h'.regFifo.trans h.regFifo
  tmr := h'.tmr.trans h.tmr
  faults := h'.faults.trans h.faults
  refused := h'.refused.trans h.refused
  ret := h'.ret.trans h.ret
  draws := h'.draws.trans h.draws
  schedule := h'.schedule.trans h.schedule
  clkRun := h'.clkRun.trans h.clkRun
  insPend := h'.insPend.trans h.insPend
  serCfg := h'.serCfg.trans h.serCfg
  st := h'.st.trans h.st
  handler := h'.handler.trans h.handler
  buf := h'.buf.trans h.buf
  len := h'.len.trans h.len
  order := h'.order.trans h.order
  inited := h'.inited.trans h.inited
  others := fun c' hc => (h'.others c' hc).trans (h.others c' hc)

/-- The cursor of a transmission in progress (10_state R29). -/
structure CursorOk (cfg : Config) (x : FifoCtx) : Prop where
  pix : x.pix ≤ x.len
  byteIdx : x.byteIdx < cfg.bpp / 8
  done : x.pix = x.len → x.byteIdx = 0

/-- Advancing the cursor inside the buffer keeps it in range (R29). -/
theorem CursorOk.advance {cfg : Config} {x : FifoCtx} (h : CursorOk cfg x) (hp : x.pix < x.len) :
    CursorOk cfg (fifoAdvance cfg x) := by
  have hb := h.byteIdx
  unfold fifoAdvance
  split
  · exact ⟨by simp only; omega, by simp only; omega, fun _ => rfl⟩
  · exact ⟨by simp only; omega, by simp only; omega, by simp only; omega⟩

/-! ### One data word -/

/-- One data word: the packed byte at the cursor is pushed, and the cursor moves on. -/
theorem pushData_spec {c : Nat} {s : State} {w : Word}
    (hw : pixelWord s.cfg s.mem (s.fifoCtx c).buf (s.fifoCtx c).pix = some w) :
    ∃ t, pushData c s = .ok t ∧ FillFrame c s t ∧ t.fifoCtx c = fifoAdvance s.cfg (s.fifoCtx c) ∧
      t.ser.fifo = s.ser.fifo ++ [packByte (colourByte s.cfg w (s.fifoCtx c).byteIdx)] ∧ t.ser.ie = s.ser.ie ∧
      t.hist = s.hist ++ [.memRead (pixelAddr (s.fifoCtx c).buf (s.fifoCtx c).pix) w,
        .fifoPush (packByte (colourByte s.cfg w (s.fifoCtx c).byteIdx))] := by
  have hok : ∃ t, t = (fifoPush (packByte (colourByte s.cfg w (s.fifoCtx c).byteIdx))
      (s.log (.memRead (pixelAddr (s.fifoCtx c).buf (s.fifoCtx c).pix) w))).setFifo c
        (fifoAdvance s.cfg (s.fifoCtx c)) := ⟨_, rfl⟩
  obtain ⟨t, ht⟩ := hok
  refine ⟨t, by simp only [pushData, readPixel_some hw, ht]; rfl, ?_, by simp [ht], by simp [ht], by simp [ht],
    by simp [ht]⟩
  have hx : ∀ x : FifoCtx, (fifoAdvance s.cfg x).buf = x.buf ∧ (fifoAdvance s.cfg x).len = x.len ∧
      (fifoAdvance s.cfg x).order = x.order ∧ (fifoAdvance s.cfg x).inited = x.inited := by
    intro x; unfold fifoAdvance; split <;> exact ⟨rfl, rfl, rfl, rfl⟩
  subst ht
  constructor <;> try (intros; simp [hx])
  intro c' hc
  simp [fifoCtx_setFifo_other _ _ hc]

/-! ### The stream by position -/

/-- R88: the byte that fill takes is the field of the pixel word that the rule names. -/
theorem colourByte_eq_byteOf (cfg : Config) (w : Word) (k : Nat) : colourByte cfg w k = byteOf cfg w k := by
  simp only [colourByte, byteOf, BitVec.extractLsb'_toNat, Nat.shiftRight_eq_div_pow]

/-- One word moves the position by one. -/
theorem FifoCtx.position_advance (cfg : Config) (x : FifoCtx) : (fifoAdvance cfg x).position cfg = x.position cfg + 1 := by
  unfold fifoAdvance FifoCtx.position
  split
  · simp only [Nat.add_mul, Nat.one_mul]; omega
  · simp only; omega

namespace CursorOk
variable {cfg : Config} {x : FifoCtx} (h : CursorOk cfg x)
include h

theorem position_div : x.position cfg / (cfg.bpp / 8) = x.pix := by
  have hb := h.byteIdx
  rw [FifoCtx.position, Nat.mul_comm, Nat.mul_add_div (by omega), Nat.div_eq_of_lt hb, Nat.add_zero]

theorem position_mod : x.position cfg % (cfg.bpp / 8) = x.byteIdx := by
  rw [FifoCtx.position, Nat.mul_comm, Nat.mul_add_mod, Nat.mod_eq_of_lt h.byteIdx]

/-- Data is left exactly while the cursor is inside the buffer. -/
theorem dataLeft_pos : 0 < x.dataLeft cfg ↔ x.pix < x.len := by
  have hb := h.byteIdx
  unfold FifoCtx.dataLeft
  constructor
  · intro hd
    by_contra hp
    rw [show x.len - x.pix = 0 by omega, Nat.zero_mul] at hd
    omega
  · intro hp
    have : cfg.bpp / 8 ≤ (x.len - x.pix) * (cfg.bpp / 8) := Nat.le_mul_of_pos_left _ (by omega)
    omega

theorem dataLeft_advance (hp : x.pix < x.len) : (fifoAdvance cfg x).dataLeft cfg + 1 = x.dataLeft cfg := by
  have hd := h.dataLeft_pos.mpr hp
  unfold fifoAdvance FifoCtx.dataLeft at *
  split
  · obtain ⟨n, hn⟩ : ∃ n, x.len - x.pix = n + 1 := ⟨x.len - x.pix - 1, by omega⟩
    simp only [show x.len - (x.pix + 1) = n by omega, hn, Nat.add_mul, Nat.one_mul] at *
    omega
  · simp only; omega

end CursorOk

/-- The first word left, while data is left, is the packed byte at the cursor. -/
theorem nextWord_zero {c : Nat} {s : State} (hc : CursorOk s.cfg (s.fifoCtx c)) (hp : (s.fifoCtx c).pix < (s.fifoCtx c).len) :
    nextWord s c 0 = (pixelWord s.cfg s.mem (s.fifoCtx c).buf (s.fifoCtx c).pix).map fun w =>
      packByte (colourByte s.cfg w (s.fifoCtx c).byteIdx) := by
  simp only [nextWord, streamWord, Nat.add_zero, hc.position_div, hc.position_mod, hp, if_true, colourByte_eq_byteOf]

/-- Where the data is done, every word left is a zero trailer word (R86). -/
theorem nextWord_done {c : Nat} {s : State} (hc : CursorOk s.cfg (s.fifoCtx c)) (hp : (s.fifoCtx c).pix = (s.fifoCtx c).len)
    (j : Nat) : nextWord s c j = some 0#32 := by
  have : (s.fifoCtx c).pix ≤ ((s.fifoCtx c).position s.cfg + j) / (s.cfg.bpp / 8) := by
    rw [← hc.position_div]; exact Nat.div_le_div_right (Nat.le_add_right _ _)
  simp only [nextWord, streamWord]
  rw [if_neg (by omega)]

/-- The words left after the cursor has moved on by `n` words of the same buffer. -/
theorem nextWord_shift {c n : Nat} {s t : State} (hcfg : t.cfg = s.cfg) (hmem : t.mem = s.mem)
    (hb : (t.fifoCtx c).buf = (s.fifoCtx c).buf) (hl : (t.fifoCtx c).len = (s.fifoCtx c).len)
    (hp : (t.fifoCtx c).position s.cfg = (s.fifoCtx c).position s.cfg + n) (j : Nat) :
    nextWord t c j = nextWord s c (n + j) := by
  simp only [nextWord, hcfg, hmem, hb, hl, hp, Nat.add_assoc]

/-! ### The loops -/

theorem fifoAdvance_trailer (cfg : Config) (x : FifoCtx) : (fifoAdvance cfg x).trailer = x.trailer := by
  unfold fifoAdvance; split <;> rfl

theorem fifoAdvance_state (cfg : Config) (x : FifoCtx) : (fifoAdvance cfg x).state = x.state := by
  unfold fifoAdvance; split <;> rfl

/-- The data loop pushes the data words left, as far as there is room, if the reads of those words are admitted. -/
theorem fillData_spec {c : Nat} (room : Nat) {s : State} {words : List Word} (hc : CursorOk s.cfg (s.fifoCtx c))
    (hl : words.length = min room ((s.fifoCtx c).dataLeft s.cfg))
    (hw : ∀ j, j < words.length → nextWord s c j = words[j]?) :
    ∃ t, fillData c room s = .ok t ∧ FillFrame c s t ∧ CursorOk t.cfg (t.fifoCtx c) ∧
      t.ser.fifo = s.ser.fifo ++ words ∧ (t.fifoCtx c).position s.cfg = (s.fifoCtx c).position s.cfg + words.length ∧
      (t.fifoCtx c).dataLeft s.cfg + words.length = (s.fifoCtx c).dataLeft s.cfg ∧ t.ser.ie = s.ser.ie ∧
      (t.fifoCtx c).trailer = (s.fifoCtx c).trailer ∧ (t.fifoCtx c).state = (s.fifoCtx c).state := by
  induction room generalizing s words with
  | zero =>
    obtain rfl : words = [] := List.eq_nil_of_length_eq_zero (by omega)
    exact ⟨s, rfl, .refl c s, hc, by simp, by simp, by simp, rfl, rfl, rfl⟩
  | succ room ih =>
    by_cases hp : (s.fifoCtx c).pix < (s.fifoCtx c).len
    · have hd := hc.dataLeft_pos.mpr hp
      have hadv := hc.dataLeft_advance hp
      cases words with
      | nil => simp only [List.length_nil] at hl; omega
      | cons w₀ words =>
        have h0 := hw 0 (by simp)
        rw [nextWord_zero hc hp] at h0
        obtain ⟨w, hpw, hw0⟩ := Option.map_eq_some_iff.mp (h0.trans (by rfl : _ = some w₀))
        subst hw0
        obtain ⟨t, ht, hf, hctx, hfifo, hie, -⟩ := pushData_spec hpw
        have hc' : CursorOk t.cfg (t.fifoCtx c) := by rw [hf.cfg, hctx]; exact hc.advance hp
        have hpos : (t.fifoCtx c).position s.cfg = (s.fifoCtx c).position s.cfg + 1 := by rw [hctx, FifoCtx.position_advance]
        obtain ⟨u, hu, hf', hcu, hfifo', hposu, hdu, hie', htr, hst⟩ := ih (words := words) hc'
          (by simp only [List.length_cons] at hl; rw [hf.cfg, hctx]; omega)
          (by
            intro j hj
            rw [nextWord_shift hf.cfg hf.mem hf.buf hf.len hpos, Nat.add_comm, hw (j + 1) (by simpa using hj)]
            rfl)
        rw [hf.cfg] at hposu hdu
        refine ⟨u, by simp only [fillData, hp, if_true, ht, hu], hf.trans hf', hcu, ?_, ?_, ?_, hie'.trans hie, ?_, ?_⟩
        · rw [hfifo', hfifo, List.append_assoc]; rfl
        · rw [hposu, hpos, List.length_cons]; omega
        · rw [hctx] at hdu; rw [List.length_cons]; omega
        · rw [htr, hctx, fifoAdvance_trailer]
        · rw [hst, hctx, fifoAdvance_state]
    · have hd : (s.fifoCtx c).dataLeft s.cfg = 0 := by have := hc.dataLeft_pos; omega
      obtain rfl : words = [] := List.eq_nil_of_length_eq_zero (by omega)
      exact ⟨s, by simp only [fillData, hp, if_false], .refl c s, hc, by simp, by simp, by simp, rfl, rfl, rfl⟩

/-- The data loop stops at the first word within the room whose read is not admitted (20_memory R67). -/
theorem fillData_stuck {c j : Nat} (room : Nat) {s : State} (hc : CursorOk s.cfg (s.fifoCtx c)) (hj : j < room)
    (hw : ∀ i, i < j → nextWord s c i ≠ none) (hn : nextWord s c j = none) :
    fillData c room s
      = .error (pixelAddr (s.fifoCtx c).buf (((s.fifoCtx c).position s.cfg + j) / (s.cfg.bpp / 8))) := by
  induction room generalizing s j with
  | zero => omega
  | succ room ih =>
    have hp : (s.fifoCtx c).pix < (s.fifoCtx c).len := by
      by_contra hp
      rw [nextWord_done hc (by have := hc.pix; omega)] at hn
      cases hn
    cases hpw : pixelWord s.cfg s.mem (s.fifoCtx c).buf (s.fifoCtx c).pix with
    | none =>
      have hj0 : j = 0 := by
        by_contra hj0
        exact hw 0 (by omega) (by rw [nextWord_zero hc hp, hpw]; rfl)
      subst hj0
      simp only [fillData, hp, if_true, pushData, readPixel_none hpw, Nat.add_zero, hc.position_div]
    | some w =>
      have hj0 : j ≠ 0 := by
        rintro rfl
        rw [nextWord_zero hc hp, hpw] at hn
        cases hn
      obtain ⟨i, rfl⟩ : ∃ i, j = i + 1 := ⟨j - 1, by omega⟩
      obtain ⟨t, ht, hf, hctx, -⟩ := pushData_spec hpw
      have hpos : (t.fifoCtx c).position s.cfg = (s.fifoCtx c).position s.cfg + 1 := by rw [hctx, FifoCtx.position_advance]
      have hsh := nextWord_shift hf.cfg hf.mem hf.buf hf.len hpos
      have := ih (s := t) (by rw [hf.cfg, hctx]; exact hc.advance hp) (by omega : i < room)
        (by intro k hk; rw [hsh, Nat.add_comm]; exact hw _ (by omega)) (by rw [hsh, Nat.add_comm]; exact hn)
      rw [hf.cfg, hf.buf, hpos] at this
      simp only [fillData, hp, if_true, ht, this]
      rw [show (s.fifoCtx c).position s.cfg + (i + 1) = (s.fifoCtx c).position s.cfg + 1 + i by omega]

/-- One trailer word. -/
theorem pushTrailer_spec (c : Nat) (s : State) :
    FillFrame c s (pushTrailer c s) ∧ (pushTrailer c s).ser.fifo = s.ser.fifo ++ [0#32] ∧
      (pushTrailer c s).ser.ie = s.ser.ie ∧
      (pushTrailer c s).fifoCtx c = { s.fifoCtx c with trailer := (s.fifoCtx c).trailer - 1 } ∧
      (pushTrailer c s).hist = s.hist ++ [.fifoPush 0#32] := by
  refine ⟨?_, by simp [pushTrailer], by simp [pushTrailer], by simp [pushTrailer], by simp [pushTrailer]⟩
  constructor <;> try (intros; simp [pushTrailer]; done)
  intro c' hc
  simp [pushTrailer, fifoCtx_setFifo_other _ _ hc]

/-- The trailer loop, once the data is done: zero words, as many as there is room for and are left. -/
theorem fillTrailer_spec {c : Nat} (room : Nat) {s : State} (hp : (s.fifoCtx c).pix = (s.fifoCtx c).len) :
    ∃ t, fillTrailer c room s = t ∧ FillFrame c s t ∧
      t.ser.fifo = s.ser.fifo ++ List.replicate (min room (s.fifoCtx c).trailer) 0#32 ∧ t.ser.ie = s.ser.ie ∧
      t.fifoCtx c = { s.fifoCtx c with trailer := (s.fifoCtx c).trailer - room } := by
  induction room generalizing s with
  | zero => exact ⟨s, rfl, .refl c s, by simp, rfl, rfl⟩
  | succ room ih =>
    by_cases ht : 0 < (s.fifoCtx c).trailer
    · obtain ⟨hf, hfifo, hie, hctx, -⟩ := pushTrailer_spec c s
      have hp' : ((pushTrailer c s).fifoCtx c).pix = ((pushTrailer c s).fifoCtx c).len := by rw [hctx]; exact hp
      obtain ⟨t, hr, hf', hfifo', hie', hctx'⟩ := ih hp'
      refine ⟨t, by simp only [fillTrailer, hp, ht, and_self, if_true, hr], hf.trans hf', ?_, hie'.trans hie, ?_⟩
      · rw [hfifo', hfifo, hctx, List.append_assoc]
        congr 1
        rw [show min (room + 1) (s.fifoCtx c).trailer = min room ((s.fifoCtx c).trailer - 1) + 1 by omega]
        rfl
      · rw [hctx', hctx]
        simp only [Nat.sub_sub, Nat.add_comm]
    · have h0 : (s.fifoCtx c).trailer = 0 := by omega
      refine ⟨s, by simp only [fillTrailer, ht, and_false, if_false], .refl c s, by simp [h0], rfl, ?_⟩
      simp only [h0, Nat.zero_sub]
      rw [← h0]

/-- The trailer loop does nothing while data is left. -/
theorem fillTrailer_of_data {c : Nat} (room : Nat) {s : State} (hp : (s.fifoCtx c).pix ≠ (s.fifoCtx c).len) :
    fillTrailer c room s = s := by
  cases room with
  | zero => rfl
  | succ room => simp only [fillTrailer, hp, false_and, if_false]

/-- The exhaustion test: with nothing left, NEED goes off, EMPTY on, and the state is `RESET`. -/
theorem fillExhausted_done {c : Nat} {s : State} (hp : (s.fifoCtx c).pix = (s.fifoCtx c).len)
    (ht : (s.fifoCtx c).trailer = 0) :
    FillFrame c s (fillExhausted c s) ∧ (fillExhausted c s).ser.fifo = s.ser.fifo ∧
      (fillExhausted c s).fifoCtx c = { s.fifoCtx c with state := .reset } ∧
      (fillExhausted c s).ieNeed = false ∧ (fillExhausted c s).ieEmpty = true ∧
      ∀ i, 2 ≤ i → ((fillExhausted c s).ser.ie &&& validBits s.cfg).getLsbD i = (s.ser.ie &&& validBits s.cfg).getLsbD i := by
  have he : fillExhausted c s = (writeReg (.serIeEmpty true) (writeReg (.serIeNeed false) s)).setFifo c
      { s.fifoCtx c with state := .reset } := by
    unfold fillExhausted
    rw [if_pos ⟨hp, ht⟩]
    rfl
  rw [he]
  refine ⟨?_, by simp [serEffect], by simp, ?_, ?_, ?_⟩
  · constructor
    case others => intro c' hc; simp [fifoCtx_setFifo_other _ _ hc]
    all_goals simp [serEffect, tmrEffect]
  · rw [ieNeed_eq]
    simp only [setFifo_ser, writeReg_ser, writeReg_cfg, serEffect, BitVec.getLsbD_and, withBit_getLsbD, needBit_getLsbD,
      emptyBit_getLsbD]
    simp
  · rw [ieEmpty_eq]
    simp only [setFifo_ser, writeReg_ser, writeReg_cfg, serEffect, BitVec.getLsbD_and, withBit_getLsbD, needBit_getLsbD,
      emptyBit_getLsbD, validBits_getLsbD]
    simp
  · intro i hi
    simp only [setFifo_ser, writeReg_ser, writeReg_cfg, serEffect, BitVec.getLsbD_and, withBit_getLsbD, needBit_getLsbD,
      emptyBit_getLsbD]
    simp [show ¬ i = 0 by omega, show ¬ i = 1 by omega]

/-- Words agree below a mask where their bits do, when the mask has no engine bit. -/
theorem and_legacy_congr {cfg : Config} (h : admissible cfg = true) {v w : Word}
    (hb : ∀ i, 2 ≤ i → (v &&& validBits cfg).getLsbD i = (w &&& validBits cfg).getLsbD i) :
    v &&& cfg.legacyMask = w &&& cfg.legacyMask := by
  obtain ⟨h0, h1⟩ := legacyMask_engine_bits h
  apply BitVec.eq_of_getLsbD_eq
  intro i hi
  by_cases hz : i = 0
  · subst hz; simp only [BitVec.getLsbD_and, h0, Bool.and_false]
  by_cases ho : i = 1
  · subst ho; simp only [BitVec.getLsbD_and, h1, Bool.and_false]
  have := hb i (by omega)
  simp only [BitVec.getLsbD_and, validBits_getLsbD, hz, ho, decide_false, Bool.false_or] at this ⊢
  exact this

/-- What a fill does: it pushes the words left as far as there is room, if the reads of those words are admitted, and ends the
transmission when none is left. -/
theorem fill_spec {c : Nat} {s : State} {words : List Word} (hc : CursorOk s.cfg (s.fifoCtx c))
    (hl : words.length = min s.room ((s.fifoCtx c).wordsLeft s.cfg))
    (hw : ∀ j, j < words.length → nextWord s c j = words[j]?) :
    ∃ t, fill c s = .ok t ∧ FillFrame c s t ∧ CursorOk t.cfg (t.fifoCtx c) ∧ t.ser.fifo = s.ser.fifo ++ words ∧
      (t.fifoCtx c).position s.cfg = (s.fifoCtx c).position s.cfg + min words.length ((s.fifoCtx c).dataLeft s.cfg) ∧
      (t.fifoCtx c).trailer = (s.fifoCtx c).trailer - (words.length - (s.fifoCtx c).dataLeft s.cfg) ∧
      (t.fifoCtx c).wordsLeft s.cfg + words.length = (s.fifoCtx c).wordsLeft s.cfg ∧
      (∀ j, nextWord t c j = nextWord s c (words.length + j)) ∧
      (∀ i, 2 ≤ i → (t.ser.ie &&& validBits s.cfg).getLsbD i = (s.ser.ie &&& validBits s.cfg).getLsbD i) ∧
      ((t.fifoCtx c).wordsLeft s.cfg = 0 → (t.fifoCtx c).state = .reset ∧ t.ieNeed = false ∧ t.ieEmpty = true) ∧
      ((t.fifoCtx c).wordsLeft s.cfg ≠ 0 → (t.fifoCtx c).state = (s.fifoCtx c).state ∧ t.ser.ie = s.ser.ie) := by
  unfold FifoCtx.wordsLeft at hl
  have hlen : (words.take ((s.fifoCtx c).dataLeft s.cfg)).length = min s.room ((s.fifoCtx c).dataLeft s.cfg) := by
    rw [List.length_take]; omega
  obtain ⟨t, ht, hf, hct, hfifo, hpos, hdt, hie, htr, hst⟩ := fillData_spec s.room hc hlen (by
    intro j hj
    rw [List.length_take] at hj
    rw [hw j (by omega), List.getElem?_take_of_lt (by omega)])
  have hroom : t.room = s.room - (words.take ((s.fifoCtx c).dataLeft s.cfg)).length := by
    simp only [State.room, State.level, hf.cfg, hfifo, List.length_append]
    omega
  have hshift := nextWord_shift hf.cfg hf.mem hf.buf hf.len hpos
  have hdpos := hct.dataLeft_pos
  rw [hf.cfg] at hdpos
  by_cases hp : (t.fifoCtx c).pix = (t.fifoCtx c).len
  · -- all data pushed
    have hd0 : (t.fifoCtx c).dataLeft s.cfg = 0 := by omega
    have hzero : words = words.take ((s.fifoCtx c).dataLeft s.cfg) ++
        List.replicate (min t.room (t.fifoCtx c).trailer) 0#32 := by
      conv_lhs => rw [← List.take_append_drop ((s.fifoCtx c).dataLeft s.cfg) words]
      congr 1
      rw [List.eq_replicate_iff]
      refine ⟨by rw [List.length_drop, hroom, htr]; omega, ?_⟩
      intro w hm
      obtain ⟨k, hk, hwk⟩ := List.mem_iff_getElem.mp hm
      rw [List.length_drop] at hk
      have h1 := hw ((s.fifoCtx c).dataLeft s.cfg + k) (by omega)
      have h2 : nextWord t c k = nextWord s c ((s.fifoCtx c).dataLeft s.cfg + k) := by
        rw [hshift, hlen]; congr 1; omega
      rw [← h2, nextWord_done hct hp, List.getElem?_eq_getElem (by omega)] at h1
      rw [← hwk, List.getElem_drop]
      exact (Option.some.inj h1).symm
    obtain ⟨u, hu, hfu, hfifo', hie', hctx⟩ := fillTrailer_spec t.room hp
    have hpu : (u.fifoCtx c).pix = (u.fifoCtx c).len := by rw [hctx]; exact hp
    have hcu : CursorOk u.cfg (u.fifoCtx c) := by
      rw [hfu.cfg, hctx]; exact ⟨hct.pix, hct.byteIdx, hct.done⟩
    have hfu' : u.ser.fifo = s.ser.fifo ++ words := by rw [hfifo', hfifo, List.append_assoc, ← hzero]
    have hdu : (u.fifoCtx c).dataLeft s.cfg = 0 := by rw [hctx]; exact hd0
    have hpos' : (u.fifoCtx c).position s.cfg
        = (s.fifoCtx c).position s.cfg + min words.length ((s.fifoCtx c).dataLeft s.cfg) := by
      rw [hctx]
      show (t.fifoCtx c).position s.cfg = _
      rw [hpos, List.length_take, Nat.min_comm]
    have hut : (u.fifoCtx c).trailer = (s.fifoCtx c).trailer - t.room := by rw [hctx, ← htr]
    have hcount : (u.fifoCtx c).trailer + words.length = (s.fifoCtx c).dataLeft s.cfg + (s.fifoCtx c).trailer := by
      rw [hut, hl, hroom, hlen]; omega
    have hnext : ∀ v : State, CursorOk v.cfg (v.fifoCtx c) → (v.fifoCtx c).pix = (v.fifoCtx c).len →
        ∀ j, nextWord v c j = nextWord s c (words.length + j) := by
      intro v hv hpv j
      obtain ⟨k, hk⟩ : ∃ k, words.length + j = (words.take ((s.fifoCtx c).dataLeft s.cfg)).length + k :=
        ⟨words.length + j - (words.take ((s.fifoCtx c).dataLeft s.cfg)).length, by rw [List.length_take]; omega⟩
      rw [nextWord_done hv hpv, hk, ← hshift, nextWord_done hct hp]
    have hfill : fill c s = .ok (fillExhausted c u) := by simp only [fill, ht, hu]
    by_cases h0 : (u.fifoCtx c).trailer = 0
    · obtain ⟨hfe, hfifoe, hctxe, hn, he, hbits⟩ := fillExhausted_done hpu h0
      have hce : CursorOk (fillExhausted c u).cfg ((fillExhausted c u).fifoCtx c) := by
        rw [hfe.cfg, hctxe]; exact ⟨hcu.pix, hcu.byteIdx, hcu.done⟩
      have hwl : ((fillExhausted c u).fifoCtx c).wordsLeft s.cfg = 0 := by
        rw [hctxe]
        show (u.fifoCtx c).dataLeft s.cfg + (u.fifoCtx c).trailer = 0
        omega
      refine ⟨_, hfill, (hf.trans hfu).trans hfe, hce, hfifoe.trans hfu', by rw [hctxe]; exact hpos', ?_, ?_, hnext _ hce (by rw [hctxe]; exact hpu), ?_,
        fun _ => ⟨by rw [hctxe], hn, he⟩, fun h => absurd hwl h⟩
      · rw [hctxe]; show (u.fifoCtx c).trailer = _; omega
      · rw [hwl]; unfold FifoCtx.wordsLeft; omega
      · intro i hi
        have := hbits i hi
        rw [hfu.cfg, hf.cfg, hie', hie] at this
        exact this
    · have hx : fillExhausted c u = u := by unfold fillExhausted; rw [if_neg fun h => h0 h.2]
      rw [hx] at hfill
      refine ⟨u, hfill, hf.trans hfu, hcu, hfu', hpos', ?_, ?_, hnext u hcu hpu, fun i _ => by rw [hie', hie], ?_,
        fun _ => ⟨by rw [hctx]; exact hst, hie'.trans hie⟩⟩
      · omega
      · unfold FifoCtx.wordsLeft; omega
      · intro h; unfold FifoCtx.wordsLeft at h; omega
  · -- data is left: the FIFO is full
    have hd0 : 0 < (t.fifoCtx c).dataLeft s.cfg := hdpos.mpr (lt_of_le_of_ne hct.pix hp)
    have htake : words.take ((s.fifoCtx c).dataLeft s.cfg) = words := List.take_of_length_le (by omega)
    rw [htake] at hfifo hdt hshift hpos
    have hx : fillExhausted c t = t := by unfold fillExhausted; rw [if_neg (fun h => hp h.1)]
    refine ⟨t, by simp only [fill, ht, fillTrailer_of_data _ hp, hx], hf, hct, hfifo, ?_, ?_, ?_, hshift, fun i _ => by rw [hie],
      ?_, fun _ => ⟨hst, hie⟩⟩
    · rw [hpos]; omega
    · omega
    · unfold FifoCtx.wordsLeft; omega
    · intro h; unfold FifoCtx.wordsLeft at h; omega

/-- A fill stops at the first word within the room whose read is not admitted (20_memory R67). -/
theorem fill_stuck {c j : Nat} {s : State} (hc : CursorOk s.cfg (s.fifoCtx c)) (hj : j < s.room)
    (hw : ∀ i, i < j → nextWord s c i ≠ none) (hn : nextWord s c j = none) :
    fill c s = .error (pixelAddr (s.fifoCtx c).buf (((s.fifoCtx c).position s.cfg + j) / (s.cfg.bpp / 8))) := by
  simp only [fill, fillData_stuck s.room hc hj hw hn]

/-- The data loop pushes at most as many words as there is room for, with one pixel read each. -/
theorem fillData_bounded {c : Nat} (room : Nat) {s t : State} (h : fillData c room s = .ok t) :
    ∃ events pushed, t.hist = s.hist ++ events ∧ t.ser.fifo = s.ser.fifo ++ pushed ∧ t.cfg = s.cfg ∧
      pushed.length ≤ room ∧ events.countP isMemRead = pushed.length := by
  induction room generalizing s with
  | zero => cases h; exact ⟨[], [], by simp, by simp, rfl, by simp, rfl⟩
  | succ room ih =>
    unfold fillData at h
    split at h
    case isFalse => cases h; exact ⟨[], [], by simp, by simp, rfl, by simp, rfl⟩
    split at h
    · cases h
    · rename_i u hu
      have hw : ∃ w, pixelWord s.cfg s.mem (s.fifoCtx c).buf (s.fifoCtx c).pix = some w := by
        cases hpw : pixelWord s.cfg s.mem (s.fifoCtx c).buf (s.fifoCtx c).pix with
        | some w => exact ⟨w, rfl⟩
        | none => simp only [pushData, readPixel_none hpw] at hu; cases hu
      obtain ⟨w, hw⟩ := hw
      obtain ⟨v, hv, hf, -, hfifo, -, hhist⟩ := pushData_spec hw
      rw [hv] at hu; cases hu
      obtain ⟨ev, pu, h1, h2, h3, h4, h5⟩ := ih h
      refine ⟨[.memRead (pixelAddr (s.fifoCtx c).buf (s.fifoCtx c).pix) w,
          .fifoPush (packByte (colourByte s.cfg w (s.fifoCtx c).byteIdx))] ++ ev,
        packByte (colourByte s.cfg w (s.fifoCtx c).byteIdx) :: pu, ?_, ?_, h3.trans hf.cfg, ?_, ?_⟩
      · rw [h1, hhist, List.append_assoc]
      · rw [h2, hfifo, List.append_assoc]; rfl
      · simpa using h4
      · rw [List.countP_append, h5, List.length_cons, Nat.add_comm]
        rfl

/-- What a data word that was pushed did (the read was admitted). -/
theorem pushData_ok {c : Nat} {s t : State} (h : pushData c s = .ok t) :
    FillFrame c s t ∧ t.fifoCtx c = fifoAdvance s.cfg (s.fifoCtx c) ∧ t.ser.ie = s.ser.ie ∧
      t.level = s.level + 1 := by
  cases hpw : pixelWord s.cfg s.mem (s.fifoCtx c).buf (s.fifoCtx c).pix with
  | none => simp only [pushData, readPixel_none hpw] at h; cases h
  | some w =>
    obtain ⟨v, hv, hf, hctx, hfifo, hie, -⟩ := pushData_spec hpw
    rw [hv] at h; cases h
    exact ⟨hf, hctx, hie, by simp [State.level, hfifo]⟩

/-- The data loop, where its reads were admitted: the cursor stays in range, at most `room` words are pushed. -/
theorem fillData_ok {c : Nat} (room : Nat) {s t : State} (hc : CursorOk s.cfg (s.fifoCtx c))
    (h : fillData c room s = .ok t) :
    FillFrame c s t ∧ CursorOk t.cfg (t.fifoCtx c) ∧ t.ser.ie = s.ser.ie ∧ s.level ≤ t.level ∧
      t.level ≤ s.level + room ∧ (t.fifoCtx c).trailer = (s.fifoCtx c).trailer ∧
      (t.fifoCtx c).state = (s.fifoCtx c).state := by
  induction room generalizing s with
  | zero => cases h; exact ⟨.refl c _, hc, rfl, le_refl _, le_refl _, rfl, rfl⟩
  | succ room ih =>
    unfold fillData at h
    by_cases hp : (s.fifoCtx c).pix < (s.fifoCtx c).len
    case neg =>
      rw [if_neg hp] at h
      cases h
      exact ⟨.refl c _, hc, rfl, le_refl _, by omega, rfl, rfl⟩
    rw [if_pos hp] at h
    split at h
    · cases h
    · rename_i u hu
      obtain ⟨hf, hctx, hie, hl⟩ := pushData_ok hu
      have hcu : CursorOk u.cfg (u.fifoCtx c) := by rw [hf.cfg, hctx]; exact hc.advance hp
      obtain ⟨hf', hct, hie', hl1, hl2, htr, hst⟩ := ih hcu h
      exact ⟨hf.trans hf', hct, hie'.trans hie, by omega, by omega, by rw [htr, hctx, fifoAdvance_trailer],
        by rw [hst, hctx, fifoAdvance_state]⟩

/-- What a fill that had all the reads it needed did, whatever comes after in the buffer: the cursor stays in range, the FIFO
stays within its depth, and the transmission has ended exactly when nothing is left. -/
theorem fill_ok {c : Nat} {s t : State} (hc : CursorOk s.cfg (s.fifoCtx c)) (h : fill c s = .ok t) :
    FillFrame c s t ∧ CursorOk t.cfg (t.fifoCtx c) ∧ (s.level ≤ s.cfg.fifoDepth → t.level ≤ s.cfg.fifoDepth) ∧
      (∀ i, 2 ≤ i → (t.ser.ie &&& validBits s.cfg).getLsbD i = (s.ser.ie &&& validBits s.cfg).getLsbD i) ∧
      ((t.fifoCtx c).pix = (t.fifoCtx c).len ∧ (t.fifoCtx c).trailer = 0 →
        (t.fifoCtx c).state = .reset ∧ t.ieNeed = false ∧ t.ieEmpty = true) ∧
      (¬((t.fifoCtx c).pix = (t.fifoCtx c).len ∧ (t.fifoCtx c).trailer = 0) →
        (t.fifoCtx c).state = (s.fifoCtx c).state ∧ t.ser.ie = s.ser.ie) ∧
      (t.fifoCtx c).trailer ≤ (s.fifoCtx c).trailer := by
  unfold fill at h
  split at h
  · cases h
  rename_i u hu
  obtain ⟨hf, hcu, hie, hl1, hl2, htr, hst⟩ := fillData_ok s.room hc hu
  have hroom : u.room = s.cfg.fifoDepth - u.level := by rw [State.room, hf.cfg]
  have hsroom : s.room = s.cfg.fifoDepth - s.level := rfl
  obtain ⟨v, hv, hfv, hcv, hlv, hiev, hstv, htv⟩ :
      ∃ v, fillTrailer c u.room u = v ∧ FillFrame c u v ∧ CursorOk v.cfg (v.fifoCtx c) ∧
        (u.level ≤ s.cfg.fifoDepth → v.level ≤ s.cfg.fifoDepth) ∧ v.ser.ie = u.ser.ie ∧
        (v.fifoCtx c).state = (u.fifoCtx c).state ∧ (v.fifoCtx c).trailer ≤ (u.fifoCtx c).trailer := by
    by_cases hp : (u.fifoCtx c).pix = (u.fifoCtx c).len
    · obtain ⟨v, hv, hfv, hfifo, hiev, hctx⟩ := fillTrailer_spec u.room hp
      refine ⟨v, hv, hfv, by rw [hfv.cfg, hctx]; exact ⟨hcu.pix, hcu.byteIdx, hcu.done⟩, ?_, hiev, by rw [hctx],
        by rw [hctx]; exact Nat.sub_le _ _⟩
      intro hl
      simp only [State.level, hfifo, List.length_append, List.length_replicate] at hl hroom ⊢
      omega
    · exact ⟨u, fillTrailer_of_data _ hp, .refl c u, hcu, id, rfl, rfl, le_refl _⟩
  rw [hv] at h
  cases h
  by_cases hx : (v.fifoCtx c).pix = (v.fifoCtx c).len ∧ (v.fifoCtx c).trailer = 0
  · obtain ⟨hfe, hfifoe, hctxe, hn, he, hbits⟩ := fillExhausted_done hx.1 hx.2
    refine ⟨(hf.trans hfv).trans hfe, by rw [hfe.cfg, hctxe]; exact ⟨hcv.pix, hcv.byteIdx, hcv.done⟩, ?_, ?_, ?_, ?_⟩
    · intro hl
      have := hlv (by omega)
      simpa only [State.level, hfifoe] using this
    · intro i hi
      have := hbits i hi
      rw [hfv.cfg, hf.cfg, hiev, hie] at this
      exact this
    · intro _; exact ⟨by rw [hctxe], hn, he⟩
    · exact ⟨fun hnot => absurd (by rw [hctxe]; exact hx) hnot, by rw [hctxe, ← htr]; exact htv⟩
  · have he : fillExhausted c v = v := by unfold fillExhausted; rw [if_neg hx]
    rw [he]
    refine ⟨hf.trans hfv, hcv, fun hl => hlv (by omega), fun i _ => by rw [hiev, hie], fun h => absurd h hx,
      fun _ => ⟨hstv.trans hst, hiev.trans hie⟩, htr ▸ htv⟩

end Sys2Proof.Machine
end

