-- ==== Sys2Proof/Laws/Path.lean ====
section
/-! SUPPORT. What a step is made of: every next state of every operation is reached by primitive updates, and which
primitives each group of operations uses. Facts that every primitive keeps are then facts of every step. -/

namespace Sys2Proof.Machine

/-- The primitive updates of State. -/
inductive Prim where
  | log (e : Event)
  | reg (w : RegWrite)
  | gpioCtx (c : Nat) (x : GpioCtx)
  | fifoCtx (c : Nat) (x : FifoCtx)
  | line (c : Nat) (l : Line) (b : Bool)
  | push (w : Word)
  | draw
  | ret (r : Ret)
  | refuse (r : Reason)
  | raise (a : Agent) (k : FaultKind)
  | registry (e : Engine) (r : List (Option Nat))

/-- The state after one primitive. -/
def Prim.apply : Prim → State → State
  | .log e, s => s.log e
  | .reg w, s => writeReg w s
  | .gpioCtx c x, s => s.setGpio c x
  | .fifoCtx c x, s => s.setFifo c x
  | .line c l b, s => gpioWrite c l b s
  | .push w, s => fifoPush w s
  | .draw, s => s.countDraw
  | .ret r, s => returns r s
  | .refuse r, s => Machine.refuse r s
  | .raise a k, s => Machine.raise a k s
  | .registry e r, s => s.setRegistry e r

/-- `t` is reached from `s` by primitives of which each satisfies `P`. -/
inductive Path (P : Prim → Prop) (s : State) : State → Prop where
  | refl : Path P s s
  | step {t : State} (p : Prim) : Path P s t → P p → Path P s (p.apply t)

/-- Which register writes are the timer's. -/
def RegWrite.isTmr : RegWrite → Bool
  | .tmrLoad _ => true
  | .tmrAuto _ => true
  | .tmrEn _ => true
  | .tmrIe _ => true
  | .tmrPend _ => true
  | .tmrHandler _ => true
  | _ => false

/-- An event that changes no control register when replayed. -/
def Event.isNeutral : Event → Bool
  | .regWrite _ => false
  | .fifoPush _ => false
  | _ => true

/-- The primitives of the GPIO engine's operations. -/
def Prim.Gpio : Prim → Prop
  | .log e => e.isNeutral = true
  | .reg w => w.isTmr = true
  | .gpioCtx _ _ => True
  | .fifoCtx _ _ => False
  | .line _ _ _ => True
  | .push _ => False
  | .draw => True
  | .ret _ => True
  | .refuse _ => True
  | .raise _ _ => True
  | .registry e _ => e = .gpio

/-- The primitives of the FIFO engine's operations. -/
def Prim.Fifo : Prim → Prop
  | .log e => e.isNeutral = true
  | .reg w => w.isTmr = false
  | .gpioCtx _ _ => False
  | .fifoCtx _ _ => True
  | .line _ _ _ => False
  | .push _ => True
  | .draw => True
  | .ret _ => True
  | .refuse _ => True
  | .raise _ _ => True
  | .registry e _ => e = .fifo

/-- The primitives of every operation. -/
def Prim.Any : Prim → Prop
  | .log e => e.isNeutral = true
  | _ => True

theorem Prim.Gpio.any {p : Prim} (h : p.Gpio) : p.Any := by cases p <;> first | exact h | trivial
theorem Prim.Fifo.any {p : Prim} (h : p.Fifo) : p.Any := by cases p <;> first | exact h | trivial

theorem Path.mono {P Q : Prim → Prop} (hPQ : ∀ p, P p → Q p) {s t : State} (h : Path P s t) : Path Q s t := by
  induction h with
  | refl => exact .refl
  | step p _ hp ih => exact .step p ih (hPQ p hp)

theorem Path.trans {P : Prim → Prop} {s t u : State} (h : Path P s t) (h' : Path P t u) : Path P s u := by
  induction h' with
  | refl => exact h
  | step p _ hp ih => exact .step p ih hp

/-- A relation that every primitive keeps relates the ends of every path. -/
theorem Path.induct {P : Prim → Prop} {R : State → State → Prop} (hrefl : ∀ s, R s s)
    (hstep : ∀ (p : Prim) (s t : State), P p → R s t → R s (p.apply t)) {s t : State} (h : Path P s t) : R s t := by
  induction h with
  | refl => exact hrefl s
  | step p _ hp ih => exact hstep p _ _ hp ih

section steps
variable {P : Prim → Prop} {s t : State}

theorem Path.log' (h : Path P s t) {e : Event}
    (hp : P (.log e) := by first | exact rfl | exact trivial) : Path P s (t.log e) := h.step (.log e) hp
theorem Path.reg' (h : Path P s t) {w : RegWrite}
    (hp : P (.reg w) := by first | exact rfl | exact trivial) : Path P s (writeReg w t) := h.step (.reg w) hp
theorem Path.gpioCtx' (h : Path P s t) {c : Nat} {x : GpioCtx}
    (hp : P (.gpioCtx c x) := by first | exact rfl | exact trivial) : Path P s (t.setGpio c x) :=
  h.step (.gpioCtx c x) hp
theorem Path.fifoCtx' (h : Path P s t) {c : Nat} {x : FifoCtx}
    (hp : P (.fifoCtx c x) := by first | exact rfl | exact trivial) : Path P s (t.setFifo c x) :=
  h.step (.fifoCtx c x) hp
theorem Path.line' (h : Path P s t) {c : Nat} {l : Line} {b : Bool}
    (hp : P (.line c l b) := by first | exact rfl | exact trivial) :
    Path P s (gpioWrite c l b t) := h.step (.line c l b) hp
theorem Path.push' (h : Path P s t) {w : Word}
    (hp : P (.push w) := by first | exact rfl | exact trivial) : Path P s (fifoPush w t) := h.step (.push w) hp
theorem Path.emit' (h : Path P s t) {f : Word}
    (hp : P (.log (.emit f)) := by first | exact rfl | exact trivial) : Path P s (emitFrame f t) :=
  h.step (.log (.emit f)) hp
theorem Path.draw' (h : Path P s t)
    (hp : P .draw := by first | exact rfl | exact trivial) : Path P s t.countDraw := h.step .draw hp
theorem Path.ret' (h : Path P s t) {r : Ret}
    (hp : P (.ret r) := by first | exact rfl | exact trivial) : Path P s (returns r t) := h.step (.ret r) hp
theorem Path.refuse' (h : Path P s t) {r : Reason}
    (hp : P (.refuse r) := by first | exact rfl | exact trivial) : Path P s (Machine.refuse r t) :=
  h.step (.refuse r) hp
theorem Path.raise' (h : Path P s t) {a : Agent} {k : FaultKind}
    (hp : P (.raise a k) := by first | exact rfl | exact trivial) :
    Path P s (Machine.raise a k t) := h.step (.raise a k) hp
theorem Path.registry' (h : Path P s t) {e : Engine} {r : List (Option Nat)}
    (hp : P (.registry e r) := by first | exact rfl | exact trivial) :
    Path P s (t.setRegistry e r) := h.step (.registry e r) hp

end steps

/-! ### The GPIO engine's operations -/

theorem gpioSetup_path (s t : State) (h : gpioSetup s = .ok t ∨ gpioSetup s = .error t) : Path Prim.Gpio s t := by
  have h0 : Path Prim.Gpio s (gpioClearTimer s).countDraw :=
    ((((((Path.refl.reg').reg').reg').reg').reg').draw')
  unfold gpioSetup at h
  simp only at h
  split at h
  · rcases h with h | h <;> cases h
    exact .reg' h0
  · rcases h with h | h <;> cases h
    exact .raise' h0

theorem gpioConfigure_path (c k d : Nat) (o : Order) (s : State) : Path Prim.Gpio s (gpioConfigure c k d o s) :=
  .ret' (.gpioCtx' (.line' (.line' (.gpioCtx' .refl))))

theorem gpioInit_path (c k d : Nat) (o : Order) (s : State) : Path Prim.Gpio s (gpioInit c k d o s) := by
  unfold gpioInit
  split
  · exact .refuse' .refl
  split
  · exact .refuse' .refl
  split
  · exact .ret' .refl
  · have h0 {r : List (Option Nat)} : Path Prim.Gpio s (s.setRegistry .gpio r) := .registry' .refl
    dsimp only
    split
    · split
      · exact Path.trans h0 (gpioSetup_path _ _ (.inr ‹_›))
      · exact Path.trans (Path.trans h0 (gpioSetup_path _ _ (.inl ‹_›))) (gpioConfigure_path _ _ _ _ _)
    · exact Path.trans h0 (gpioConfigure_path _ _ _ _ _)

theorem loadTimer_path (a : Agent) (n : Nat) (s t : State) (h : loadTimer a n s = .ok t ∨ loadTimer a n s = .error t) :
    Path Prim.Gpio s t := by
  unfold loadTimer at h
  split at h
  · rcases h with h | h <;> cases h
    exact .reg' .refl
  · rcases h with h | h <;> cases h
    exact .raise' .refl

theorem gpioArm_path (s t : State) (h : gpioArm s = .ok t ∨ gpioArm s = .error t) : Path Prim.Gpio s t := by
  unfold gpioArm at h
  split at h
  · rcases h with h | h <;> cases h
    exact loadTimer_path _ _ _ _ (.inr ‹_›)
  · rcases h with h | h <;> cases h
    exact .reg' (.reg' (.reg' (loadTimer_path _ _ _ _ (.inl ‹_›))))

theorem gpioSend_path (c b n : Nat) (s : State) : Path Prim.Gpio s (gpioSend c b n s) := by
  unfold gpioSend
  split
  · exact .refuse' .refl
  split
  · exact .refuse' .refl
  split
  · exact .ret' .refl
  split
  · exact .ret' .refl
  split
  · exact .refuse' .refl
  split
  · exact Path.trans (.gpioCtx' .refl) (gpioArm_path _ _ (.inr ‹_›))
  · exact .ret' (Path.trans (.gpioCtx' .refl) (gpioArm_path _ _ (.inl ‹_›)))

theorem readPixel_path {P : Prim → Prop} (hP : ∀ a w, P (.log (.memRead a w))) {b i : Nat} {s t : State} {w : Word}
    (h : readPixel b i s = some (w, t)) : Path P s t := by
  unfold readPixel at h
  split at h
  · cases h; exact .log' .refl (hP _ _)
  · cases h

theorem stepSending_path (c : Nat) (s t : State) (h : stepSending c s = .next t) : Path Prim.Gpio s t := by
  unfold stepSending at h
  simp only at h
  split at h
  · cases h
  · cases h
    exact .gpioCtx' (.line' (.line' (.line' (readPixel_path (fun _ _ => rfl) ‹_›))))

theorem stepFinish_path (c : Nat) (s : State) : Path Prim.Gpio s (stepFinish c s) := by
  have h0 : Path Prim.Gpio s (gpioWrite c .data false (gpioWrite c .clk false s)) :=
    (Path.refl.line').line'
  unfold stepFinish
  simp only
  split
  · exact Path.trans h0 (loadTimer_path _ _ _ _ (.inr ‹_›))
  · exact .gpioCtx' (Path.trans h0 (loadTimer_path _ _ _ _ (.inl ‹_›)))

theorem stepReset_path (c : Nat) (s : State) : Path Prim.Gpio s (stepReset c s) :=
  .gpioCtx' (.reg' (.reg' .refl))

theorem execGpioNmi_path (s t : State) (h : execGpioNmi s = .next t) : Path Prim.Gpio s t := by
  have h0 : Path Prim.Gpio s (writeReg (.tmrPend false) s) := .reg' .refl
  unfold execGpioNmi at h
  split at h
  · unfold gpioNmi at h
    simp only at h
    split at h
    · cases h; exact h0
    · split at h
      · exact Path.trans h0 (stepSending_path _ _ _ h)
      all_goals cases h
      · exact Path.trans h0 (stepFinish_path _ _)
      · exact Path.trans h0 (stepReset_path _ _)
      · exact Path.trans h0 (stepReset_path _ _)
  · cases h

theorem stopOneShot_path (s : State) : Path Prim.Gpio s (stopOneShot s) := by
  unfold stopOneShot
  split
  · exact .refl
  · exact .reg' .refl

theorem execTmrExpire_path (s t : State) (h : execTmrExpire s = .next t) : Path Prim.Gpio s t := by
  have h0 : Path Prim.Gpio s (s.log (.expire s.tmr.load)) := .log' .refl
  unfold execTmrExpire at h
  split at h
  · cases h
    unfold tmrExpire
    simp only
    split
    · split
      · exact .raise' h0
      · exact Path.trans (.reg' h0) (stopOneShot_path _)
    · exact Path.trans h0 (stopOneShot_path _)
  · cases h

/-! ### The FIFO engine's operations -/

theorem fifoSetup_path (g : Nat) (s t : State) (h : fifoSetup g s = .ok t ∨ fifoSetup g s = .error t) :
    Path Prim.Fifo s t := by
  have h0 : Path Prim.Fifo s (fifoClearSerializer g s).countDraw :=
    ((((((((Path.refl.reg').reg').reg').reg').reg').reg').reg').draw')
  unfold fifoSetup at h
  simp only at h
  split at h
  · rcases h with h | h <;> cases h
    exact .reg' h0
  · rcases h with h | h <;> cases h
    exact .raise' h0

theorem fifoConfigure_path (c : Nat) (s : State) : Path Prim.Fifo s (fifoConfigure c s) :=
  .ret' (.fifoCtx' .refl)

theorem fifoInit_path (c g : Nat) (o : Order) (s : State) : Path Prim.Fifo s (fifoInit c g o s) := by
  unfold fifoInit
  split
  · exact .refuse' .refl
  split
  · exact .refuse' .refl
  split
  · exact .ret' .refl
  · have h0 {r : List (Option Nat)} : Path Prim.Fifo s (s.setRegistry .fifo r) := .registry' .refl
    dsimp only
    split
    · split
      · exact Path.trans h0 (fifoSetup_path _ _ _ (.inr ‹_›))
      · exact Path.trans (Path.trans h0 (fifoSetup_path _ _ _ (.inl ‹_›))) (fifoConfigure_path _ _)
    · exact Path.trans h0 (fifoConfigure_path _ _)

theorem pushData_path (c : Nat) (s t : State) (h : pushData c s = .ok t) : Path Prim.Fifo s t := by
  unfold pushData at h
  simp only at h
  split at h
  · cases h
  · cases h
    exact .fifoCtx' (.push' (readPixel_path (fun _ _ => rfl) ‹_›))

theorem fillData_path (c n : Nat) (s t : State) (h : fillData c n s = .ok t) : Path Prim.Fifo s t := by
  induction n generalizing s with
  | zero => cases h; exact .refl
  | succ n ih =>
    unfold fillData at h
    split at h
    · split at h
      · cases h
      · exact Path.trans (pushData_path _ _ _ ‹_›) (ih _ h)
    · cases h; exact .refl

theorem fillTrailer_path (c n : Nat) (s : State) : Path Prim.Fifo s (fillTrailer c n s) := by
  induction n generalizing s with
  | zero => exact .refl
  | succ n ih =>
    unfold fillTrailer
    split
    · exact Path.trans (.fifoCtx' (.push' .refl)) (ih _)
    · exact .refl

theorem fillExhausted_path (c : Nat) (s : State) : Path Prim.Fifo s (fillExhausted c s) := by
  unfold fillExhausted
  split
  · exact .fifoCtx' (.reg' (.reg' .refl))
  · exact .refl

theorem fill_path (c : Nat) (s t : State) (h : fill c s = .ok t) : Path Prim.Fifo s t := by
  unfold fill at h
  split at h
  · cases h
  · cases h
    exact Path.trans (Path.trans (fillData_path _ _ _ _ ‹_›) (fillTrailer_path _ _ _)) (fillExhausted_path _ _)

theorem execFifoFill_path (c : Nat) (s t : State) (h : execFifoFill c s = .next t) : Path Prim.Fifo s t := by
  unfold execFifoFill at h
  split at h
  · cases h
  · cases h; exact .ret' (fill_path _ _ _ ‹_›)

theorem fifoLaunch_path (s : State) : Path Prim.Fifo s (fifoLaunch s) := .reg' (.reg' (.reg' .refl))

theorem fifoAccepted_path (c b n : Nat) (s t : State) (h : fifoAccepted c b n s = .next t) : Path Prim.Fifo s t := by
  have h0 : Path Prim.Fifo s (readStatus (fifoStart c b n s)) := .log' (.reg' (.reg' (.fifoCtx' .refl)))
  unfold fifoAccepted at h
  simp only at h
  split at h
  · cases h; exact .raise' h0
  · split at h
    · cases h
    · have h1 : Path Prim.Fifo s (writeReg (.serIeNeed true) (readStatus (fifoStart c b n s))) := h0.reg'
      cases h
      exact .ret' (Path.trans (Path.trans h1 (fill_path _ _ _ ‹_›)) (fifoLaunch_path _))

theorem execFifoSend_path (c b n : Nat) (s t : State) (h : execFifoSend c b n s = .next t) : Path Prim.Fifo s t := by
  unfold execFifoSend at h
  split at h
  · cases h; exact .refuse' .refl
  split at h
  · cases h; exact .refuse' .refl
  split at h
  · cases h; exact .ret' .refl
  split at h
  · cases h; exact .ret' .refl
  split at h
  · cases h; exact .refuse' .refl
  · exact fifoAccepted_path _ _ _ _ _ h

theorem fifoStep_path (c : Nat) (s t : State) (h : fifoStep c s = .next t) : Path Prim.Fifo s t := by
  unfold fifoStep at h
  split at h
  · split at h
    · cases h
    · cases h; exact fill_path _ _ _ ‹_›
  all_goals cases h
  · exact .fifoCtx' (.reg' (.reg' .refl))
  · exact .refl
  · exact .raise' .refl

theorem execSerIrq_path (s t : State) (h : execSerIrq s = .next t) : Path Prim.Fifo s t := by
  have h0 : Path Prim.Fifo s (irqAcknowledge s) := .reg' (.log' .refl)
  unfold execSerIrq at h
  split at h
  · unfold serIrq at h
    simp only at h
    split at h
    · cases h; exact h0
    · split at h
      · cases h; exact h0
      · exact Path.trans h0 (fifoStep_path _ _ _ h)
  · cases h

theorem drainFree_path (s : State) : Path Prim.Fifo s (drainFree s) :=
  .log' (.emit' (.draw' .refl))

theorem drainFrame_path (s t : State) (h : drainFrame s = .ok t ∨ drainFrame s = .error t) : Path Prim.Fifo s t := by
  unfold drainFrame at h
  split at h
  · rcases h with h | h <;> cases h
    exact .reg' (.emit' .refl)
  split at h
  · rcases h with h | h <;> cases h
    exact .emit' (.reg' .refl)
  · unfold drainUnderrun at h
    split at h
    · rcases h with h | h <;> cases h
      exact drainFree_path s
    · split at h <;> rcases h with h | h <;> cases h
      · exact .raise' .refl
      · exact .raise' .refl
      · exact drainFree_path s
      · exact drainFree_path s

theorem raiseStatus_path (s : State) : Path Prim.Fifo s (raiseStatus s) := by
  have hn {u : State} {b : Prop} [Decidable b] {w : RegWrite} (h : Path Prim.Fifo s u) (hw : w.isTmr = false) :
      Path Prim.Fifo s (if b then writeReg w u else u) := by
    split
    · exact h.reg' hw
    · exact h
  exact hn (hn .refl rfl) rfl

theorem execSerDrain_path (s t : State) (h : execSerDrain s = .next t) : Path Prim.Fifo s t := by
  unfold execSerDrain at h
  split at h
  · cases h
    unfold serDrain
    split
    · exact drainFrame_path _ _ (.inr ‹_›)
    · exact Path.trans (drainFrame_path _ _ (.inl ‹_›)) (raiseStatus_path _)
  · cases h

/-! ### Every operation -/

/-- The operations of the GPIO engine and its timer, `register` of its registry among them. -/
def ofGpio : Instr → Bool
  | .gpioInit _ _ _ _ => true
  | .gpioSend _ _ _ => true
  | .gpioIsSending _ => true
  | .gpioNmi => true
  | .tmrExpire => true
  | .register .gpio _ => true
  | _ => false

/-- The operations of the FIFO engine, the serializer and the legacy logic, `register` of its registry among them. -/
def ofFifo : Instr → Bool
  | .fifoInit _ _ _ => true
  | .fifoSend _ _ _ => true
  | .fifoIsSending _ => true
  | .fifoFill _ => true
  | .serIrq => true
  | .serDrain => true
  | .legacyRaise _ => true
  | .register .fifo _ => true
  | _ => false

theorem returns_or_refuse_path {P : Prim → Prop} (hr : ∀ r, P (.ret r)) (hf : ∀ r, P (.refuse r)) {b : Bool} {r : Ret}
    {f : Reason} (s : State) : Path P s (if b = true then returns r s else Machine.refuse f s) := by
  split
  · exact .ret' .refl (hr _)
  · exact .refuse' .refl (hf _)

theorem execRegister_path {P : Prim → Prop} (e : Engine) (c : Nat) (s t : State) (h : execRegister e c s = .next t)
    (hr : ∀ r, P (.ret r)) (hg : ∀ r, P (.registry e r)) : Path P s t := by
  unfold execRegister at h
  cases h
  split
  · exact .ret' (.registry' .refl (hg _)) (hr _)
  · exact .ret' .refl (hr _)

/-- Every next state of an operation of the GPIO engine is reached by that engine's primitives. -/
theorem exec_path_gpio {i : Instr} (hi : ofGpio i = true) {s t : State} (h : exec i s = .next t) :
    Path Prim.Gpio s t := by
  cases i <;> simp only [ofGpio, Bool.false_eq_true] at hi
  case gpioInit => cases h; exact gpioInit_path _ _ _ _ _
  case gpioSend => cases h; exact gpioSend_path _ _ _ _
  case gpioIsSending => cases h; exact returns_or_refuse_path (fun _ => trivial) (fun _ => trivial) s
  case gpioNmi => exact execGpioNmi_path s t h
  case tmrExpire => exact execTmrExpire_path s t h
  case register e c =>
    cases e
    · exact execRegister_path _ _ _ _ h (fun _ => trivial) (fun _ => rfl)
    · simp at hi

/-- Every next state of an operation of the FIFO engine is reached by that engine's primitives. -/
theorem exec_path_fifo {i : Instr} (hi : ofFifo i = true) {s t : State} (h : exec i s = .next t) :
    Path Prim.Fifo s t := by
  cases i <;> simp only [ofFifo, Bool.false_eq_true] at hi
  case fifoInit => cases h; exact fifoInit_path _ _ _ _
  case fifoSend => exact execFifoSend_path _ _ _ _ _ h
  case fifoIsSending => cases h; exact returns_or_refuse_path (fun _ => trivial) (fun _ => trivial) s
  case fifoFill => exact execFifoFill_path _ _ _ h
  case serIrq => exact execSerIrq_path s t h
  case serDrain => exact execSerDrain_path s t h
  case legacyRaise =>
    cases h
    split
    · exact .reg' .refl
    · exact .refuse' .refl
  case register e c =>
    cases e
    · simp at hi
    · exact execRegister_path _ _ _ _ h (fun _ => trivial) (fun _ => rfl)

/-- A pure function returns a value or refuses its operands; it changes nothing else (30_encoding R81). -/
theorem exec_fn {i : Instr} (hi : isFn i = true) (s : State) :
    (∃ r, exec i s = .next (returns r s)) ∨ exec i s = .next (refuse .unknownOperation s) := by
  cases i <;> simp only [isFn, Bool.false_eq_true] at hi <;>
    simp only [exec, execTicksFor, execPwmNibble, execPackByte, execTrailerLen] <;> split <;>
    first | exact .inl ⟨_, rfl⟩ | exact .inr rfl

/-- Every next state of every operation is reached by primitives. -/
theorem exec_path {i : Instr} {s t : State} (h : exec i s = .next t) : Path Prim.Any s t := by
  by_cases hg : ofGpio i = true
  · exact (exec_path_gpio hg h).mono fun _ => Prim.Gpio.any
  by_cases hf : ofFifo i = true
  · exact (exec_path_fifo hf h).mono fun _ => Prim.Fifo.any
  have hn : isFn i = true := by
    cases i <;> simp_all [ofGpio, ofFifo, isFn]
    case register e c => cases e <;> simp_all
  rcases exec_fn hn s with ⟨r, hr⟩ | hr <;> rw [hr] at h <;> cases h
  · exact .ret' .refl
  · exact .refuse' .refl

/-! ### What a step of the schedule does -/

/-- A step performs the head of the schedule: it refuses the record, or takes an admitted operation. -/
theorem step_cases {s t : State} (h : step s = .next t) :
    ∃ e rest, s.schedule = e :: rest ∧ s.halted e.agent = false ∧
      (t = refuse .unknownOperation { s with schedule := rest } ∨
        ∃ i, decode e.record = .ok i ∧ admission e.agent i = .taken ∧
          exec i { s with schedule := rest } = .next t) := by
  unfold step at h
  split at h
  · cases h
  · rename_i e rest he
    refine ⟨e, rest, he, ?_⟩
    unfold perform at h
    split at h
    · cases h
    · rename_i hh
      refine ⟨by simpa [State.halted] using hh, ?_⟩
      split at h
      · cases h
      split at h
      · cases h; exact .inl rfl
      · rename_i i hd
        split at h
        · exact .inr ⟨i, hd, ‹_›, h⟩
        · cases h; exact .inl rfl
        · cases h

/-- A step is a path of primitives from the state with the head of the schedule taken off. -/
theorem step_path {s t : State} (h : step s = .next t) :
    ∃ e rest, s.schedule = e :: rest ∧ Path Prim.Any { s with schedule := rest } t := by
  obtain ⟨e, rest, he, -, rfl | ⟨i, -, -, hi⟩⟩ := step_cases h
  · exact ⟨e, rest, he, Path.refl.refuse'⟩
  · exact ⟨e, rest, he, exec_path hi⟩

end Sys2Proof.Machine
end

