-- ==== Sys2Proof/Laws/Lift.lean ====
section
/-! SUPPORT. An operation of one engine does not see the other engine's side of the state: it commutes with putting any
other side, with any earlier events and fault records, beside its own. -/

namespace Sys2Proof.Machine

/-- The records of `g` before those of `f`, without repeats. -/
def joinFaults (g f : List FaultRecord) : List FaultRecord := g ++ f.filter (fun r => decide (r ∉ g))

theorem mem_joinFaults {g f : List FaultRecord} {r : FaultRecord} : r ∈ joinFaults g f ↔ r ∈ g ∨ r ∈ f := by
  by_cases h : r ∈ g <;> simp [joinFaults, h]

/-- `x` with the GPIO side of `g`, and with `g`'s events and fault records before its own. -/
def liftF (g x : State) : State :=
  { x with
    gpio := g.gpio, regGpio := g.regGpio, tmr := g.tmr
    hist := g.hist ++ x.hist, faults := joinFaults g.faults x.faults }

/-- `x` with the FIFO side, the results and the draws of `g`, and with `g`'s events and fault records before its own. -/
def liftG (g x : State) : State :=
  { x with
    fifo := g.fifo, regFifo := g.regFifo, ser := g.ser, refused := g.refused, ret := g.ret, draws := g.draws
    hist := g.hist ++ x.hist, faults := joinFaults g.faults x.faults }

/-- An outcome with its next state changed by `f`. -/
def mapNext (f : State → State) : Host.Outcome State Fault Refusal → Host.Outcome State Fault Refusal
  | .next s => .next (f s)
  | .fault r => .fault r
  | .refused r => .refused r

/-- A result with the state inside changed by `f`. -/
def mapBoth (f : State → State) : Except State State → Except State State
  | .ok s => .ok (f s)
  | .error s => .error (f s)

/-- A result with the state, if there is one, changed by `f`. -/
def mapOk (f : State → State) : Except Nat State → Except Nat State
  | .ok s => .ok (f s)
  | .error a => .error a

@[simp] theorem mapNext_next (f : State → State) (s : State) : mapNext f (.next s) = .next (f s) := rfl
@[simp] theorem mapNext_fault (f : State → State) (r : Fault) : mapNext f (.fault r) = .fault r := rfl
@[simp] theorem mapNext_refused (f : State → State) (r : Refusal) : mapNext f (.refused r) = .refused r := rfl
@[simp] theorem mapBoth_ok (f : State → State) (s : State) : mapBoth f (.ok s) = .ok (f s) := rfl
@[simp] theorem mapBoth_error (f : State → State) (s : State) : mapBoth f (.error s) = .error (f s) := rfl
@[simp] theorem mapOk_ok (f : State → State) (s : State) : mapOk f (.ok s) = .ok (f s) := rfl
@[simp] theorem mapOk_error (f : State → State) (a : Nat) : mapOk f (.error a) = .error a := rfl

/-! ### The FIFO side -/

section fifoSide
variable (g x : State)

@[simp] theorem liftF_cfg : (liftF g x).cfg = x.cfg := rfl
@[simp] theorem liftF_mem : (liftF g x).mem = x.mem := rfl
@[simp] theorem liftF_ser : (liftF g x).ser = x.ser := rfl
@[simp] theorem liftF_regFifo : (liftF g x).regFifo = x.regFifo := rfl
@[simp] theorem liftF_draws : (liftF g x).draws = x.draws := rfl
@[simp] theorem liftF_fifoCtx (c : Nat) : (liftF g x).fifoCtx c = x.fifoCtx c := rfl
@[simp] theorem liftF_level : (liftF g x).level = x.level := rfl
@[simp] theorem liftF_room : (liftF g x).room = x.room := rfl
@[simp] theorem liftF_serSt : (liftF g x).serSt = x.serSt := rfl
@[simp] theorem liftF_serIe : (liftF g x).serIe = x.serIe := rfl
@[simp] theorem liftF_stNeed : (liftF g x).stNeed = x.stNeed := rfl
@[simp] theorem liftF_ownConditions (snap : Word) : (liftF g x).ownConditions snap = x.ownConditions snap := rfl
@[simp] theorem liftF_irqGuard : irqGuard (liftF g x) = irqGuard x := rfl
@[simp] theorem liftF_drainGuard : drainGuard (liftF g x) = drainGuard x := rfl

@[simp] theorem log_liftF (e : Event) : (liftF g x).log e = liftF g (x.log e) := by simp [liftF, State.log]
@[simp] theorem setFifo_liftF (c : Nat) (y : FifoCtx) : (liftF g x).setFifo c y = liftF g (x.setFifo c y) := rfl
@[simp] theorem readStatus_liftF : readStatus (liftF g x) = liftF g (readStatus x) := log_liftF g x _
@[simp] theorem fifoPush_liftF (w : Word) : fifoPush w (liftF g x) = liftF g (fifoPush w x) := by
  simp [liftF, fifoPush]
@[simp] theorem emitFrame_liftF (w : Word) : emitFrame w (liftF g x) = liftF g (emitFrame w x) := log_liftF g x _
@[simp] theorem countDraw_liftF : (liftF g x).countDraw = liftF g x.countDraw := rfl
@[simp] theorem returns_liftF (r : Ret) : returns r (liftF g x) = liftF g (returns r x) := rfl
@[simp] theorem refuse_liftF (r : Reason) : refuse r (liftF g x) = liftF g (refuse r x) := rfl
@[simp] theorem raise_liftF (a : Agent) (k : FaultKind) : raise a k (liftF g x) = liftF g (raise a k x) := by
  by_cases hg : ⟨a, k⟩ ∈ g.faults <;> by_cases hx : ⟨a, k⟩ ∈ x.faults <;>
    simp [liftF, raise, joinFaults, hg, hx]
@[simp] theorem setRegistry_liftF (r : List (Option Nat)) :
    (liftF g x).setRegistry .fifo r = liftF g (x.setRegistry .fifo r) := rfl

/-- A write of a register that is not the timer's. -/
theorem writeReg_liftF (w : RegWrite) (h : w.isTmr = false) :
    writeReg w (liftF g x) = liftF g (writeReg w x) := by
  have ht : tmrEffect w g.tmr = g.tmr := by cases w <;> first | rfl | cases h
  simp [liftF, writeReg, ht]

@[simp] theorem serCfg_liftF (v : Nat) : writeReg (.serCfg v) (liftF g x) = liftF g (writeReg (.serCfg v) x) :=
  writeReg_liftF g x _ rfl
@[simp] theorem serClkRun_liftF (b : Bool) : writeReg (.serClkRun b) (liftF g x) = liftF g (writeReg (.serClkRun b) x) :=
  writeReg_liftF g x _ rfl
@[simp] theorem serFifoReset_liftF : writeReg .serFifoReset (liftF g x) = liftF g (writeReg .serFifoReset x) :=
  writeReg_liftF g x _ rfl
@[simp] theorem serFifoPop_liftF : writeReg .serFifoPop (liftF g x) = liftF g (writeReg .serFifoPop x) :=
  writeReg_liftF g x _ rfl
@[simp] theorem serInsPend_liftF (n : Nat) : writeReg (.serInsPend n) (liftF g x) = liftF g (writeReg (.serInsPend n) x) :=
  writeReg_liftF g x _ rfl
@[simp] theorem serIeNeed_liftF (b : Bool) : writeReg (.serIeNeed b) (liftF g x) = liftF g (writeReg (.serIeNeed b) x) :=
  writeReg_liftF g x _ rfl
@[simp] theorem serIeEmpty_liftF (b : Bool) : writeReg (.serIeEmpty b) (liftF g x) = liftF g (writeReg (.serIeEmpty b) x) :=
  writeReg_liftF g x _ rfl
@[simp] theorem serClr_liftF (v : Word) : writeReg (.serClr v) (liftF g x) = liftF g (writeReg (.serClr v) x) :=
  writeReg_liftF g x _ rfl
@[simp] theorem serStNeed_liftF (b : Bool) : writeReg (.serStNeed b) (liftF g x) = liftF g (writeReg (.serStNeed b) x) :=
  writeReg_liftF g x _ rfl
@[simp] theorem serStEmpty_liftF (b : Bool) : writeReg (.serStEmpty b) (liftF g x) = liftF g (writeReg (.serStEmpty b) x) :=
  writeReg_liftF g x _ rfl
@[simp] theorem serStLegacy_liftF (bits : Word) : writeReg (.serStLegacy bits) (liftF g x) = liftF g (writeReg (.serStLegacy bits) x) :=
  writeReg_liftF g x _ rfl
@[simp] theorem serHandler_liftF (b : Bool) : writeReg (.serHandler b) (liftF g x) = liftF g (writeReg (.serHandler b) x) :=
  writeReg_liftF g x _ rfl

@[simp] theorem raiseStatus_liftF : raiseStatus (liftF g x) = liftF g (raiseStatus x) := by
  unfold raiseStatus
  have h1 (x : State) : (if (liftF g x).level ≤ (liftF g x).cfg.lowWatermark then writeReg (.serStNeed true) (liftF g x)
      else liftF g x) = liftF g (if x.level ≤ x.cfg.lowWatermark then writeReg (.serStNeed true) x else x) := by
    by_cases h : x.level ≤ x.cfg.lowWatermark <;> simp [h]
  rw [h1]
  generalize (if x.level ≤ x.cfg.lowWatermark then writeReg (.serStNeed true) x else x) = y
  by_cases h : y.level ≤ y.cfg.advanceFrames <;> simp [h]

@[simp] theorem fifoSetup_liftF (k : Nat) : fifoSetup k (liftF g x) = mapBoth (liftF g) (fifoSetup k x) := by
  unfold fifoSetup fifoClearSerializer
  cases h : Config.freeAttach x.draws <;> simp [h]

@[simp] theorem fifoConfigure_liftF (c : Nat) : fifoConfigure c (liftF g x) = liftF g (fifoConfigure c x) := rfl

theorem fifoInit_liftF (c k : Nat) (o : Order) : fifoInit c k o (liftF g x) = liftF g (fifoInit c k o x) := by
  unfold fifoInit
  simp only [liftF_fifoCtx, liftF_cfg, liftF_regFifo, refuse_liftF, returns_liftF, setRegistry_liftF, fifoSetup_liftF,
    fifoConfigure_liftF]
  split
  · rfl
  split
  · rfl
  cases registerIn x.regFifo c with
  | none => rfl
  | some p =>
    dsimp only
    split
    · cases fifoSetup k (x.setRegistry .fifo p.2) <;> rfl
    · rfl

theorem pushData_liftF (c : Nat) : pushData c (liftF g x) = mapOk (liftF g) (pushData c x) := by
  unfold pushData readPixel
  simp only [liftF_fifoCtx, liftF_cfg, liftF_mem]
  cases pixelWord x.cfg x.mem (x.fifoCtx c).buf (x.fifoCtx c).pix <;> simp

theorem fillData_liftF (c n : Nat) : ∀ x : State, fillData c n (liftF g x) = mapOk (liftF g) (fillData c n x) := by
  induction n with
  | zero => exact fun _ => rfl
  | succ n ih =>
    intro x
    unfold fillData
    simp only [liftF_fifoCtx, pushData_liftF]
    split
    · cases pushData c x with
      | ok y => exact ih y
      | error a => rfl
    · rfl

@[simp] theorem pushTrailer_liftF (c : Nat) : pushTrailer c (liftF g x) = liftF g (pushTrailer c x) := by
  simp [pushTrailer]

theorem fillTrailer_liftF (c n : Nat) : ∀ x : State, fillTrailer c n (liftF g x) = liftF g (fillTrailer c n x) := by
  induction n with
  | zero => exact fun _ => rfl
  | succ n ih =>
    intro x
    unfold fillTrailer
    simp only [liftF_fifoCtx, pushTrailer_liftF, ih]
    split <;> rfl

theorem fillExhausted_liftF (c : Nat) : fillExhausted c (liftF g x) = liftF g (fillExhausted c x) := by
  unfold fillExhausted
  by_cases h : (x.fifoCtx c).pix = (x.fifoCtx c).len ∧ (x.fifoCtx c).trailer = 0 <;> simp [h]

@[simp] theorem fill_liftF (c : Nat) : fill c (liftF g x) = mapOk (liftF g) (fill c x) := by
  unfold fill
  simp only [liftF_room, fillData_liftF]
  cases fillData c x.room x <;> simp [fillTrailer_liftF, fillExhausted_liftF]

@[simp] theorem fifoStart_liftF (c buf len : Nat) : fifoStart c buf len (liftF g x) = liftF g (fifoStart c buf len x) := by
  simp [fifoStart]

@[simp] theorem fifoLaunch_liftF : fifoLaunch (liftF g x) = liftF g (fifoLaunch x) := by
  simp [fifoLaunch]

theorem fifoAccepted_liftF (c buf len : Nat) :
    fifoAccepted c buf len (liftF g x) = mapNext (liftF g) (fifoAccepted c buf len x) := by
  unfold fifoAccepted
  simp only [fifoStart_liftF, readStatus_liftF, liftF_stNeed, liftF_serSt]
  split
  · simp
  · rw [serIeNeed_liftF, fill_liftF]
    cases fill c (writeReg (.serIeNeed true) (readStatus (fifoStart c buf len x))) <;> simp

theorem execFifoSend_liftF (c buf len : Nat) :
    execFifoSend c buf len (liftF g x) = mapNext (liftF g) (execFifoSend c buf len x) := by
  unfold execFifoSend
  simp only [liftF_cfg, liftF_fifoCtx, fifoAccepted_liftF, refuse_liftF, returns_liftF]
  repeat' split
  all_goals rfl

theorem fifoStep_liftF (c : Nat) : fifoStep c (liftF g x) = mapNext (liftF g) (fifoStep c x) := by
  unfold fifoStep
  simp only [liftF_fifoCtx]
  cases (x.fifoCtx c).state with
  | sending => simp only [fill_liftF]; cases fill c x <;> rfl
  | reset => simp [fifoStepReset]
  | idle => rfl
  | trailer => simp

@[simp] theorem irqAcknowledge_liftF : irqAcknowledge (liftF g x) = liftF g (irqAcknowledge x) := by
  simp [irqAcknowledge]

theorem execSerIrq_liftF : execSerIrq (liftF g x) = mapNext (liftF g) (execSerIrq x) := by
  unfold execSerIrq serIrq
  simp only [liftF_irqGuard, liftF_serSt, irqAcknowledge_liftF, liftF_ownConditions, liftF_regFifo, fifoStep_liftF]
  split
  · split
    · rfl
    · cases slotZero (irqAcknowledge x).regFifo <;> rfl
  · rfl

theorem drainUnderrun_liftF : drainUnderrun (liftF g x) = mapBoth (liftF g) (drainUnderrun x) := by
  unfold drainUnderrun drainFree
  simp only [liftF_regFifo, liftF_fifoCtx, liftF_draws, countDraw_liftF, emitFrame_liftF, log_liftF, raise_liftF]
  cases slotZero x.regFifo with
  | none => rfl
  | some c => dsimp only; cases (x.fifoCtx c).state <;> rfl

theorem drainFrame_liftF : drainFrame (liftF g x) = mapBoth (liftF g) (drainFrame x) := by
  unfold drainFrame
  simp only [liftF_ser, drainUnderrun_liftF]
  split
  · simp
  · cases x.ser.fifo <;> simp

theorem execSerDrain_liftF : execSerDrain (liftF g x) = mapNext (liftF g) (execSerDrain x) := by
  unfold execSerDrain serDrain
  simp only [liftF_drainGuard, drainFrame_liftF]
  split
  · cases drainFrame x <;> simp
  · rfl

theorem execLegacyRaise_liftF (bits : Word) :
    execLegacyRaise bits (liftF g x) = mapNext (liftF g) (execLegacyRaise bits x) := by
  unfold execLegacyRaise
  by_cases h : legacyTyped x.cfg bits <;> simp [h]

theorem execFifoFill_liftF (c : Nat) : execFifoFill c (liftF g x) = mapNext (liftF g) (execFifoFill c x) := by
  unfold execFifoFill
  simp only [fill_liftF]
  cases fill c x <;> rfl

theorem execFifoIsSending_liftF (c : Nat) :
    execFifoIsSending c (liftF g x) = mapNext (liftF g) (execFifoIsSending c x) := by
  unfold execFifoIsSending
  by_cases h : (x.fifoCtx c).inited <;> simp [h]

theorem execRegister_liftF (c : Nat) :
    execRegister .fifo c (liftF g x) = mapNext (liftF g) (execRegister .fifo c x) := by
  unfold execRegister
  simp only [State.registry, liftF_regFifo]
  cases registerIn x.regFifo c <;> rfl

/-- No operation of the FIFO engine's side sees the GPIO side. -/
theorem exec_liftF {i : Instr} (hi : ofFifo i = true) : exec i (liftF g x) = mapNext (liftF g) (exec i x) := by
  cases i with
  | fifoInit c k o => exact congrArg Host.Outcome.next (fifoInit_liftF g x c k o)
  | fifoSend c b n => exact execFifoSend_liftF g x c b n
  | fifoIsSending c => exact execFifoIsSending_liftF g x c
  | fifoFill c => exact execFifoFill_liftF g x c
  | serIrq => exact execSerIrq_liftF g x
  | serDrain => exact execSerDrain_liftF g x
  | legacyRaise bits => exact execLegacyRaise_liftF g x bits
  | register e c => cases e with
    | gpio => cases hi
    | fifo => exact execRegister_liftF g x c
  | gpioInit => cases hi
  | gpioSend => cases hi
  | gpioIsSending => cases hi
  | gpioNmi => cases hi
  | tmrExpire => cases hi
  | ticksFor => cases hi
  | pwmNibble => cases hi
  | packByte => cases hi
  | trailerLen => cases hi

end fifoSide

/-! ### The GPIO side, in the NMI handler -/

section gpioSide
variable (g x : State)

@[simp] theorem liftG_cfg : (liftG g x).cfg = x.cfg := rfl
@[simp] theorem liftG_mem : (liftG g x).mem = x.mem := rfl
@[simp] theorem liftG_regGpio : (liftG g x).regGpio = x.regGpio := rfl
@[simp] theorem liftG_gpioCtx (c : Nat) : (liftG g x).gpioCtx c = x.gpioCtx c := rfl
@[simp] theorem liftG_nmiGuard : nmiGuard (liftG g x) = nmiGuard x := rfl

@[simp] theorem log_liftG (e : Event) : (liftG g x).log e = liftG g (x.log e) := by simp [liftG, State.log]
@[simp] theorem setGpio_liftG (c : Nat) (y : GpioCtx) : (liftG g x).setGpio c y = liftG g (x.setGpio c y) := rfl
@[simp] theorem gpioWrite_liftG (c : Nat) (l : Line) (b : Bool) :
    gpioWrite c l b (liftG g x) = liftG g (gpioWrite c l b x) := by
  simp [gpioWrite]
@[simp] theorem raise_liftG (a : Agent) (k : FaultKind) : raise a k (liftG g x) = liftG g (raise a k x) := by
  by_cases hg : ⟨a, k⟩ ∈ g.faults <;> by_cases hx : ⟨a, k⟩ ∈ x.faults <;>
    simp [liftG, raise, joinFaults, hg, hx]

/-- A write of a register of the timer. -/
theorem writeReg_liftG (w : RegWrite) (h : w.isTmr = true) :
    writeReg w (liftG g x) = liftG g (writeReg w x) := by
  have hs : serEffect x.cfg w g.ser = g.ser := by cases w <;> first | rfl | cases h
  simp [liftG, writeReg, hs]

@[simp] theorem tmrLoad_liftG (n : Nat) : writeReg (.tmrLoad n) (liftG g x) = liftG g (writeReg (.tmrLoad n) x) :=
  writeReg_liftG g x _ rfl
@[simp] theorem tmrAuto_liftG (b : Bool) : writeReg (.tmrAuto b) (liftG g x) = liftG g (writeReg (.tmrAuto b) x) :=
  writeReg_liftG g x _ rfl
@[simp] theorem tmrEn_liftG (b : Bool) : writeReg (.tmrEn b) (liftG g x) = liftG g (writeReg (.tmrEn b) x) :=
  writeReg_liftG g x _ rfl
@[simp] theorem tmrIe_liftG (b : Bool) : writeReg (.tmrIe b) (liftG g x) = liftG g (writeReg (.tmrIe b) x) :=
  writeReg_liftG g x _ rfl
@[simp] theorem tmrPend_liftG (b : Bool) : writeReg (.tmrPend b) (liftG g x) = liftG g (writeReg (.tmrPend b) x) :=
  writeReg_liftG g x _ rfl
@[simp] theorem tmrHandler_liftG (b : Bool) : writeReg (.tmrHandler b) (liftG g x) = liftG g (writeReg (.tmrHandler b) x) :=
  writeReg_liftG g x _ rfl

@[simp] theorem loadTimer_liftG (a : Agent) (n : Nat) :
    loadTimer a n (liftG g x) = mapBoth (liftG g) (loadTimer a n x) := by
  unfold loadTimer
  by_cases h : 1 ≤ n ∧ n ≤ 2 ^ x.cfg.timerBits - 1
  · simp [h]
  · rw [liftG_cfg, if_neg h, if_neg h, raise_liftG]
    rfl

@[simp] theorem stepSending_liftG (c : Nat) : stepSending c (liftG g x) = mapNext (liftG g) (stepSending c x) := by
  unfold stepSending readPixel gpioPulse
  simp only [liftG_gpioCtx, liftG_cfg, liftG_mem]
  cases pixelWord x.cfg x.mem (x.gpioCtx c).buf (x.gpioCtx c).pix <;> simp

@[simp] theorem stepFinish_liftG (c : Nat) : stepFinish c (liftG g x) = liftG g (stepFinish c x) := by
  unfold stepFinish
  simp only [gpioWrite_liftG, loadTimer_liftG, liftG_cfg]
  cases loadTimer .nmiHandler (resetTicks (gpioWrite c .data false (gpioWrite c .clk false x)).cfg)
    (gpioWrite c .data false (gpioWrite c .clk false x)) <;> simp

@[simp] theorem stepReset_liftG (c : Nat) : stepReset c (liftG g x) = liftG g (stepReset c x) := by
  simp [stepReset]

theorem execGpioNmi_liftG : execGpioNmi (liftG g x) = mapNext (liftG g) (execGpioNmi x) := by
  unfold execGpioNmi gpioNmi
  simp only [liftG_nmiGuard, tmrPend_liftG, liftG_regGpio,
    liftG_gpioCtx]
  split
  · cases slotZero (writeReg (.tmrPend false) x).regGpio with
    | none => rfl
    | some c => dsimp only; cases ((writeReg (.tmrPend false) x).gpioCtx c).state <;> simp
  · rfl

end gpioSide

end Sys2Proof.Machine
end

