-- ==== Sys2Proof/Laws/PerInstr.lean ====
section
/-! SUPPORT. The family `RecordShape` of LAWS.json: what holds of the record of each operation (30_encoding R80, R81). -/

namespace Sys2Proof

/-- The ids of R81, in the order of the table. -/
def tableIds : List Byte :=
  [0x01#8, 0x02#8, 0x03#8, 0x04#8, 0x05#8, 0x11#8, 0x12#8, 0x13#8, 0x14#8] ++
  [0x15#8, 0x16#8, 0x17#8, 0x21#8, 0x22#8, 0x23#8, 0x24#8, 0x25#8]

/-- The record has the one length, starts with the operation's id, and that id is one of the table's (R80, R81). -/
def Laws.RecordShape.Statement (i : Instr) : Prop :=
  (encode i).length = recordBytes ∧ (encode i).head? = some (opOf i) ∧ opOf i ∈ tableIds

/-- The record of any operation has the one length and starts with its id. -/
theorem encode_shape (i : Instr) : (encode i).length = recordBytes ∧ (encode i).head? = some (opOf i) := by
  simp [encode, recordBytes]

theorem Laws.RecordShape.gpioInit (c k d : Nat) (o : Order) : Laws.RecordShape.Statement (.gpioInit c k d o) :=
  ⟨(encode_shape _).1, (encode_shape _).2, by simp [opOf, tableIds]⟩

theorem Laws.RecordShape.gpioSend (c b n : Nat) : Laws.RecordShape.Statement (.gpioSend c b n) :=
  ⟨(encode_shape _).1, (encode_shape _).2, by simp [opOf, tableIds]⟩

theorem Laws.RecordShape.gpioIsSending (c : Nat) : Laws.RecordShape.Statement (.gpioIsSending c) :=
  ⟨(encode_shape _).1, (encode_shape _).2, by simp [opOf, tableIds]⟩

theorem Laws.RecordShape.gpioNmi : Laws.RecordShape.Statement .gpioNmi :=
  ⟨(encode_shape _).1, (encode_shape _).2, by simp [opOf, tableIds]⟩

theorem Laws.RecordShape.tmrExpire : Laws.RecordShape.Statement .tmrExpire :=
  ⟨(encode_shape _).1, (encode_shape _).2, by simp [opOf, tableIds]⟩

theorem Laws.RecordShape.fifoInit (c g : Nat) (o : Order) : Laws.RecordShape.Statement (.fifoInit c g o) :=
  ⟨(encode_shape _).1, (encode_shape _).2, by simp [opOf, tableIds]⟩

theorem Laws.RecordShape.fifoSend (c b n : Nat) : Laws.RecordShape.Statement (.fifoSend c b n) :=
  ⟨(encode_shape _).1, (encode_shape _).2, by simp [opOf, tableIds]⟩

theorem Laws.RecordShape.fifoIsSending (c : Nat) : Laws.RecordShape.Statement (.fifoIsSending c) :=
  ⟨(encode_shape _).1, (encode_shape _).2, by simp [opOf, tableIds]⟩

theorem Laws.RecordShape.fifoFill (c : Nat) : Laws.RecordShape.Statement (.fifoFill c) :=
  ⟨(encode_shape _).1, (encode_shape _).2, by simp [opOf, tableIds]⟩

theorem Laws.RecordShape.serIrq : Laws.RecordShape.Statement .serIrq :=
  ⟨(encode_shape _).1, (encode_shape _).2, by simp [opOf, tableIds]⟩

theorem Laws.RecordShape.serDrain : Laws.RecordShape.Statement .serDrain :=
  ⟨(encode_shape _).1, (encode_shape _).2, by simp [opOf, tableIds]⟩

theorem Laws.RecordShape.legacyRaise (bits : Word) : Laws.RecordShape.Statement (.legacyRaise bits) :=
  ⟨(encode_shape _).1, (encode_shape _).2, by simp [opOf, tableIds]⟩

theorem Laws.RecordShape.ticksFor (t d : Nat) : Laws.RecordShape.Statement (.ticksFor t d) :=
  ⟨(encode_shape _).1, (encode_shape _).2, by simp [opOf, tableIds]⟩

theorem Laws.RecordShape.pwmNibble (v : Nat) : Laws.RecordShape.Statement (.pwmNibble v) :=
  ⟨(encode_shape _).1, (encode_shape _).2, by simp [opOf, tableIds]⟩

theorem Laws.RecordShape.packByte (b : Nat) : Laws.RecordShape.Statement (.packByte b) :=
  ⟨(encode_shape _).1, (encode_shape _).2, by simp [opOf, tableIds]⟩

theorem Laws.RecordShape.trailerLen (n : Nat) : Laws.RecordShape.Statement (.trailerLen n) :=
  ⟨(encode_shape _).1, (encode_shape _).2, by simp [opOf, tableIds]⟩

theorem Laws.RecordShape.register (e : Engine) (c : Nat) : Laws.RecordShape.Statement (.register e c) :=
  ⟨(encode_shape _).1, (encode_shape _).2, by simp [opOf, tableIds]⟩

end Sys2Proof
end

