-- ==== Sys2Proof/Laws/Transmission.lean ====
section
/-! SUPPORT. The bits of a GPIO transmission one by one (43_gpio_engine R174, R177): the cursor as a bit index, one bit period as
one equation, and how HIST's bits and the buffer's bits are taken apart. -/

namespace Sys2Proof.Machine

/-- The bit of a pixel that is sent as its `j`-th (20_memory R64). -/
def bitIdx (cfg : Config) (o : Order) (j : Nat) : Nat :=
  match o with
  | .msb => cfg.bpp - 1 - j
  | .lsb => j

/-- The cursor's mask at the `j`-th bit of a pixel (10_state R26). -/
def maskAt (cfg : Config) (o : Order) (j : Nat) : Word := 1#32 <<< bitIdx cfg o j

theorem firstMask_eq (cfg : Config) (o : Order) : firstMask cfg o = maskAt cfg o 0 := by cases o <;> rfl
/-- Inside a pixel the cursor moves to the next bit. -/
theorem gpioAdvance_inside {cfg : Config} (hb : 1 ≤ cfg.bpp ∧ cfg.bpp ≤ 32) {x : GpioCtx} {j : Nat} (hj : j + 1 < cfg.bpp) (hm : x.mask = maskAt cfg x.order j) (hp : x.pix ≠ x.len) :
   gpioAdvance cfg x = { x with mask := maskAt cfg x.order (j+1) } := by
  have hl : x.mask ≠ lastMask cfg x.order := by
    rw [hm]; unfold maskAt bitIdx lastMask topBit
    cases x.order
    · intro h; have := oneHot_inj (k := 0) (by simp; omega) (by omega) h; simp at this; omega
    · intro h; have := oneHot_inj (by simp; omega) (by omega) h; simp at this; omega
  unfold gpioAdvance
  simp only [hl, if_false, hp]
  congr 1
  rw [hm]; unfold maskAt bitIdx nextMask
  cases x.order
  · simp only; rw [oneHot_shiftRight (by omega) (by omega)]; congr 1
  · exact oneHot_shiftLeft j
/-- After a pixel's last bit the cursor moves to the next pixel, or to `FINISH`. -/
theorem gpioAdvance_last {cfg : Config} (hb : 1 ≤ cfg.bpp ∧ cfg.bpp ≤ 32) {x : GpioCtx} {j : Nat} (hj : j + 1 = cfg.bpp) (hm : x.mask = maskAt cfg x.order j) :
   gpioAdvance cfg x = { x with mask := maskAt cfg x.order 0, pix := x.pix + 1, state := if x.pix + 1 = x.len then .finish else x.state } := by
  have hl : x.mask = lastMask cfg x.order := by
    rw [hm]; unfold maskAt bitIdx lastMask topBit
    cases x.order
    · simp only; rw [show cfg.bpp - 1 - j = 0 by omega]; rfl
    · simp only; congr 1; omega
  unfold gpioAdvance
  rw [if_pos hl, firstMask_eq]
  simp only
  split <;> rfl

/-- The `k`-th bit of a buffer. -/
theorem bufferBits_get (cfg : Config) (m) (o : Order) (buf : Nat) (hb : 1 ≤ cfg.bpp) : ∀ (n i : Nat) (bits : List Bool), bufferBits cfg m o buf i n = some bits →
   bits.length = n * cfg.bpp ∧ ∀ k, k < n * cfg.bpp → ∃ w, pixelWord cfg m buf (i + k / cfg.bpp) = some w ∧ bits[k]? = some (w.getLsbD (bitIdx cfg o (k % cfg.bpp))) := by
  intro n
  induction n with
  | zero => intro i bits h; cases h; simp
  | succ n ih =>
    intro i bits h
    simp only [bufferBits] at h
    split at h
    case h_2 => cases h
    rename_i w rest hw hr
    cases h
    obtain ⟨h1, h2⟩ := ih _ _ hr
    refine ⟨by simp [h1]; ring, ?_⟩
    intro k hk
    by_cases hk' : k < cfg.bpp
    · refine ⟨w, by rw [Nat.div_eq_of_lt hk']; exact hw, ?_⟩
      rw [List.getElem?_append_left (by simpa using hk')]
      simp [hk', Nat.mod_eq_of_lt hk', bitIdx]
      cases o <;> rfl
    · obtain ⟨w', a, b⟩ := h2 (k - cfg.bpp) (by rw [Nat.add_mul] at hk; omega)
      have hd : k / cfg.bpp = (k - cfg.bpp) / cfg.bpp + 1 := by
        conv_lhs => rw [show k = (k - cfg.bpp) + cfg.bpp by omega]
        rw [Nat.add_div_right _ (by omega)]
      refine ⟨w', by rw [hd]; rw [show i + ((k - cfg.bpp)/cfg.bpp + 1) = i + 1 + (k - cfg.bpp)/cfg.bpp by omega]; exact a, ?_⟩
      rw [List.getElem?_append_right (by simp; omega)]
      simp only [List.length_map, List.length_range]
      rw [b]
      congr 3
      exact (Nat.mod_eq_sub_mod (by omega)).symm

/-- Two stretches of HIST send their bits one after the other, unless the border cuts a bit. -/
theorem sentBits_append (c : Nat) (xs ys : List Event) (h : ∀ c', ys.head? ≠ some (.gpioWrite c' .clk true)) :
    sentBits c (xs ++ ys) = sentBits c xs ++ sentBits c ys := by
  induction xs using sentBits.induct (c := c) with
  | case1 c₁ b c₂ rest hc ih => simp [sentBits, hc, ih]
  | case2 c₁ b c₂ rest hc ih => simp only [List.cons_append, sentBits, hc, if_false, ih]
  | case3 e rest hne ih =>
    have e1 : sentBits c (e :: rest) = sentBits c rest := by
      rw [sentBits.eq_2]; exact hne
    rw [List.cons_append, e1]
    rw [sentBits.eq_2, ih]
    intro c1 b c2 r he hr
    cases rest with
    | nil => simp at hr; rw [hr] at h; exact h c2 rfl
    | cons x xs => simp at hr; exact hne c1 b c2 xs he (by rw [hr.1])
  | case4 => simp [sentBits]

/-- The timer is armed for the context in slot 0, with no request pending. -/
structure Ready (c : Nat) (s : State) : Prop where
  slot : slotZero s.regGpio = some c
  en : s.tmr.en = true
  ie : s.tmr.ie = true
  auto : s.tmr.auto = true
  handler : s.tmr.handler = true
  pend : s.tmr.pend = false

/-- After an expiry. -/
def expired (s : State) : State := { s with tmr := { s.tmr with pend := true }, hist := s.hist ++ [.expire s.tmr.load, .regWrite (.tmrPend true)] }
/-- After an expiry whose request was taken. -/
def requested (s : State) : State := { s with hist := s.hist ++ [.expire s.tmr.load, .regWrite (.tmrPend true), .regWrite (.tmrPend false)] }

theorem tmrExpire_eq {c s} (h : Ready c s) : exec .tmrExpire s = .next (expired s) := by
  simp [exec, execTmrExpire, expireGuard, h.en, h.handler, tmrExpire, h.ie, h.pend, stopOneShot, writeReg, tmrEffect, serEffect, h.auto, expired, State.log]
/-- One bit period is one step of the state machine (R177). -/
theorem bitPeriod_eq {c s} (h : Ready c s) : bitPeriod s = match (s.gpioCtx c).state with
   | .sending => stepSending c (requested s) | .finish => .next (stepFinish c (requested s)) | .reset => .next (stepReset c (requested s)) | .idle => .next (stepReset c (requested s)) := by
  have hw : writeReg (.tmrPend false) (expired s) = requested s := by
    have : ({ s.tmr with pend := false } : Tmr) = s.tmr := by rw [← h.pend]
    simp [writeReg, tmrEffect, serEffect, expired, requested, this]
  have hg : nmiGuard (expired s) = true := by simp [nmiGuard, expired, h.handler]
  have hs : slotZero (requested s).regGpio = some c := h.slot
  rw [bitPeriod, tmrExpire_eq h]
  simp only [exec, execGpioNmi, hg, if_true, gpioNmi, hw]
  simp only [hs]
  rfl

theorem bitPeriods_succ (k : Nat) (s : State) : bitPeriods (k+1) s = match bitPeriods k s with | .next u => bitPeriod u | .fault r => .fault r | .refused r => .refused r := by
  induction k generalizing s with
  | zero => simp [bitPeriods]; cases bitPeriod s <;> rfl
  | succ k ih =>
    rw [bitPeriods]
    cases h : bitPeriod s with
    | next u => simp only [ih u]; conv_rhs => rw [bitPeriods]; simp only [h]
    | fault r => conv_rhs => rw [bitPeriods]; simp only [h]
    | refused r => conv_rhs => rw [bitPeriods]; simp only [h]

end Sys2Proof.Machine
end

