-- ==== Sys2Proof/Tests/Slice0.lean ====
section
/-! SUPPORT. The model's own tests: well-formedness, records written out byte by byte, one step per test from the vectors of
95_test_vectors, and for every obligation with hypotheses a concrete state and operands that meet them (`witness_…`). -/

namespace Sys2Proof.Tests

open Sys2Proof.Machine

/-! ### Helpers -/

/-- A check of the next state, false where there is none. -/
def after (o : Host.Outcome State Fault Refusal) (f : State → Bool) : Bool :=
  match o with
  | .next t => f t
  | .fault _ => false
  | .refused _ => false

/-- The outcome is a fault or a refusal. -/
def stops (o : Host.Outcome State Fault Refusal) : Bool := !hasStep o

/-- The decoder reads `i`. -/
def reads (bytes : List Byte) (i : Instr) : Bool :=
  match decode bytes with
  | .ok j => decide (i = j)
  | .error _ => false

/-- The decoder answers this error. -/
def rejects (bytes : List Byte) (e : DecodeError) : Bool :=
  match decode bytes with
  | .ok _ => false
  | .error f => decide (e = f)

/-- Eight zero bytes: an unused operand slot. -/
def z8 : List Byte := [0#8, 0#8, 0#8, 0#8, 0#8, 0#8, 0#8, 0#8]

/-- The slot of a one-byte value. -/
def slot1 (b : Byte) : List Byte := [b, 0#8, 0#8, 0#8, 0#8, 0#8, 0#8, 0#8]

/-- The slot of a two-byte value, low byte first. -/
def slot2 (lo hi : Byte) : List Byte := [lo, hi, 0#8, 0#8, 0#8, 0#8, 0#8, 0#8]

/-- The common instance of 95_test_vectors with another BPP. -/
def cfgBpp (n : Nat) : Config := { Config.common with bpp := n }

/-- A memory that admits one pixel word, written byte by byte, low byte first. -/
def word4 (a : Nat) (b₀ b₁ b₂ b₃ : Byte) : List Host.Cell := [(a, b₀), (a + 1, b₁), (a + 2, b₂), (a + 3, b₃)]

/-- The GPIO context of vector V-G1. -/
def gctx : GpioCtx := { GpioCtx.powerOn .msb with clkLine := 4, dataLine := 5, inited := true }

/-- The FIFO context of vector V-F1. -/
def fctx : FifoCtx := { FifoCtx.powerOn with inited := true }

/-- After V-G1: GPIO context 0 in slot 0, the handler attached, the timer cleared. -/
def gpioIdle (cfg : Config) (m : List Host.Cell) : State :=
  { State.powerOn cfg with
    mem := m, regGpio := [some 0], gpio := [(0, gctx)], tmr := { Tmr.powerOn with handler := true } }

/-- In transmission: context 0 is `x`, the timer armed, `pend` as given. -/
def gpioBusy (cfg : Config) (m : List Host.Cell) (x : GpioCtx) (pend : Bool) : State :=
  { gpioIdle cfg m with
    gpio := [(0, x)]
    tmr := { load := 100, auto := true, en := true, ie := true, pend := pend, handler := true } }

/-- After V-F1: FIFO context 1 in slot 0, the handler attached, the serializer cleared. -/
def fifoIdle (cfg : Config) (m : List Host.Cell) : State :=
  { State.powerOn cfg with
    mem := m, regFifo := [some 1], fifo := [(1, fctx)], ser := { Ser.powerOn cfg with handler := true } }

/-- In transmission: context 1 is `x`, the serializer as given by its words, enables and status, the clock running. -/
def fifoBusy (cfg : Config) (m : List Host.Cell) (x : FifoCtx) (words : List Word) (ie st : Word) : State :=
  { fifoIdle cfg m with
    fifo := [(1, x)]
    ser := { cfg := 0, clkRun := true, fifo := words, insPend := 0, ie := ie, st := st, handler := true } }

/-- A sending GPIO context: one pixel at 0x1000. -/
def gsend (mask : Word) (order : Order) : GpioCtx :=
  { gctx with state := .sending, buf := 0x1000, len := 1, mask := mask, order := order }

/-- A sending FIFO context: one pixel at 0x2000 with this trailer. -/
def fsend (trailer : Nat) : FifoCtx := { fctx with state := .sending, buf := 0x2000, len := 1, trailer := trailer }

/-- The pixel word 0x000000A5 at 0x2000 (V-F3). -/
def memA5 : List Host.Cell := word4 0x2000 0xA5#8 0#8 0#8 0#8

/-- The pixel word 0x00A50F at 0x1000 (43_gpio_engine R174, example). -/
def memA50F : List Host.Cell := word4 0x1000 0x0F#8 0xA5#8 0#8 0#8

/-- A state about to perform one entry. -/
def about (s : State) (a : Agent) (record : List Byte) : State :=
  { s with schedule := [{ agent := a, record := record }] }

/-! ### WellFormed: each check refuses an ill-formed term, and admits the largest well-formed value -/

theorem test_wf_gpioInit_ctx : (Instr.gpioInit (2 ^ 64) 4 5 .msb).wf = false := by decide
theorem test_wf_gpioInit_clk : (Instr.gpioInit 0 (2 ^ 64) 5 .msb).wf = false := by decide
theorem test_wf_gpioInit_data : (Instr.gpioInit 0 4 (2 ^ 64) .msb).wf = false := by decide
theorem test_wf_gpioSend_ctx : (Instr.gpioSend (2 ^ 64) 0 0).wf = false := by decide
theorem test_wf_gpioSend_buf : (Instr.gpioSend 0 (2 ^ 64) 0).wf = false := by decide
theorem test_wf_gpioSend_len : (Instr.gpioSend 0 0 (2 ^ 32)).wf = false := by decide
theorem test_wf_gpioSend_largest : (Instr.gpioSend 0 0 (2 ^ 32 - 1)).wf = true := by decide
theorem test_wf_isSending :
    (Instr.gpioIsSending (2 ^ 64)).wf = false ∧ (Instr.fifoIsSending (2 ^ 64)).wf = false := by decide
theorem test_wf_fifoInit :
    (Instr.fifoInit (2 ^ 64) 0 .msb).wf = false ∧ (Instr.fifoInit 0 (2 ^ 64) .msb).wf = false := by decide
theorem test_wf_fifoSend : (Instr.fifoSend (2 ^ 64) 0 0).wf = false ∧ (Instr.fifoSend 0 (2 ^ 64) 0).wf = false ∧
    (Instr.fifoSend 0 0 (2 ^ 32)).wf = false := by decide
theorem test_wf_fifoFill : (Instr.fifoFill (2 ^ 64)).wf = false := by decide
theorem test_wf_ticksFor : (Instr.ticksFor (2 ^ 32) 1).wf = false ∧ (Instr.ticksFor 1 (2 ^ 64)).wf = false := by decide
theorem test_wf_pwmNibble : (Instr.pwmNibble 16).wf = false ∧ (Instr.pwmNibble 15).wf = true := by decide
theorem test_wf_packByte : (Instr.packByte 256).wf = false ∧ (Instr.packByte 255).wf = true := by decide
theorem test_wf_trailerLen : (Instr.trailerLen (2 ^ 32)).wf = false := by decide
theorem test_wf_register : (Instr.register .gpio (2 ^ 64)).wf = false := by decide

/-! ### Decode: the ids are R81's; the operand bytes are laid out as log 3 says -/

theorem test_decode_gpioInit :
    reads ([0x01#8] ++ slot1 7#8 ++ slot1 4#8 ++ slot1 5#8 ++ slot1 1#8) (.gpioInit 7 4 5 .lsb) = true := by decide
theorem test_decode_gpioSend :
    reads ([0x02#8] ++ slot1 1#8 ++ slot2 0x00#8 0x10#8 ++ slot1 3#8 ++ z8) (.gpioSend 1 0x1000 3) = true := by decide
theorem test_decode_gpioIsSending : reads ([0x03#8] ++ slot1 9#8 ++ z8 ++ z8 ++ z8) (.gpioIsSending 9) = true := by decide
theorem test_decode_gpioNmi : reads ([0x04#8] ++ z8 ++ z8 ++ z8 ++ z8) .gpioNmi = true := by decide
theorem test_decode_tmrExpire : reads ([0x05#8] ++ z8 ++ z8 ++ z8 ++ z8) .tmrExpire = true := by decide
theorem test_decode_fifoInit :
    reads ([0x11#8] ++ slot1 2#8 ++ slot2 0x34#8 0x12#8 ++ slot1 1#8 ++ z8) (.fifoInit 2 0x1234 .lsb) = true := by decide
theorem test_decode_fifoSend :
    reads ([0x12#8] ++ slot1 1#8 ++ slot2 0x00#8 0x20#8 ++ slot1 1#8 ++ z8) (.fifoSend 1 0x2000 1) = true := by decide
theorem test_decode_fifoIsSending : reads ([0x13#8] ++ slot1 1#8 ++ z8 ++ z8 ++ z8) (.fifoIsSending 1) = true := by decide
theorem test_decode_fifoFill : reads ([0x14#8] ++ slot1 1#8 ++ z8 ++ z8 ++ z8) (.fifoFill 1) = true := by decide
theorem test_decode_serIrq : reads ([0x15#8] ++ z8 ++ z8 ++ z8 ++ z8) .serIrq = true := by decide
theorem test_decode_serDrain : reads ([0x16#8] ++ z8 ++ z8 ++ z8 ++ z8) .serDrain = true := by decide
theorem test_decode_legacyRaise : reads ([0x17#8] ++ slot1 4#8 ++ z8 ++ z8 ++ z8) (.legacyRaise 4#32) = true := by decide
theorem test_decode_ticksFor :
    reads ([0x21#8] ++ slot2 0xE2#8 0x04#8 ++ slot1 16#8 ++ z8 ++ z8) (.ticksFor 1250 16) = true := by decide
theorem test_decode_pwmNibble : reads ([0x22#8] ++ slot1 10#8 ++ z8 ++ z8 ++ z8) (.pwmNibble 10) = true := by decide
theorem test_decode_packByte : reads ([0x23#8] ++ slot1 0xA5#8 ++ z8 ++ z8 ++ z8) (.packByte 0xA5) = true := by decide
theorem test_decode_trailerLen : reads ([0x24#8] ++ slot1 6#8 ++ z8 ++ z8 ++ z8) (.trailerLen 6) = true := by decide
theorem test_decode_register :
    reads ([0x25#8] ++ slot1 1#8 ++ slot1 3#8 ++ z8 ++ z8) (.register .fifo 3) = true := by decide

/-- V-D1, V-D2: reserved ids. -/
theorem test_decode_reserved :
    [0x00#8, 0x06#8, 0x10#8, 0x18#8, 0x20#8, 0x26#8, 0xFF#8].all
      (fun op => rejects ([op] ++ z8 ++ z8 ++ z8 ++ z8) (.reservedOp op)) = true := by decide

/-- V-D7: a record with a missing operand has not the one length. -/
theorem test_decode_missing_operand :
    rejects ([0x02#8] ++ slot1 0#8 ++ slot2 0x00#8 0x10#8) .badLength = true ∧ rejects [] .badLength = true := by decide

/-- R93, R96: operands of the wrong type. -/
theorem test_decode_bad_operand :
    rejects ([0x22#8] ++ slot1 16#8 ++ z8 ++ z8 ++ z8) (.badOperand 0x22#8) = true ∧
    rejects ([0x23#8] ++ slot2 0x00#8 0x01#8 ++ z8 ++ z8 ++ z8) (.badOperand 0x23#8) = true ∧
    rejects ([0x11#8] ++ z8 ++ z8 ++ slot1 2#8 ++ z8) (.badOperand 0x11#8) = true ∧
    rejects ([0x25#8] ++ slot1 2#8 ++ z8 ++ z8 ++ z8) (.badOperand 0x25#8) = true ∧
    rejects ([0x04#8] ++ slot1 1#8 ++ z8 ++ z8 ++ z8) (.badOperand 0x04#8) = true := by decide

/-! ### The pure functions -/

/-- V-T6, V-T9, V-T16. -/
theorem test_ticksFor_exact :
    after (exec (.ticksFor 1250 1) State.reset) (fun t => t.ret == .ticks 100) = true ∧
    after (exec (.ticksFor 1250 16) State.reset) (fun t => t.ret == .ticks 6) = true ∧
    after (exec (.ticksFor 4294967295 1) State.reset) (fun t => t.ret == .ticks 343597383) = true := by decide
/-- V-T9, V-T8, V-T19. -/
theorem test_ticksFor_perPart :
    perPart 1250 5000000 = 5 ∧ perPart 50000 80000000 = 3999 ∧ perPart 166 26000000 = 3 := by decide
/-- R132; V-P13. -/
theorem test_pwmNibble :
    after (exec (.pwmNibble 10) State.reset) (fun t => t.ret == .pattern 0xD34#12) = true ∧
    after (exec (.pwmNibble 16) State.reset) (fun t => t.ret == .refused .unknownOperation && t.refused) = true := by
  decide
/-- V-P3, V-P2; V-P14. -/
theorem test_packByte :
    after (exec (.packByte 0xA5) State.reset) (fun t => t.ret == .word 0x0D3409A6#32) = true ∧
    after (exec (.packByte 0xFF) State.reset) (fun t => t.ret == .word 0x0DB60DB6#32) = true ∧
    after (exec (.packByte 256) State.reset) (fun t => t.ret == .refused .unknownOperation) = true := by decide
/-- V-L1, V-L4. -/
theorem test_trailerLen :
    after (exec (.trailerLen 1) State.reset) (fun t => t.ret == .trailerWords 8) = true ∧
    after (exec (.trailerLen 2) State.reset) (fun t => t.ret == .trailerWords 7) = true := by decide
/-- V-L10: the one trailer of 0. -/
theorem test_trailerLen_zero :
    trailerLen { Config.common with resetNs := 0, advanceFrames := 0 } 1 = 0 := by decide

/-! ### The registry -/

/-- V-R1. -/
theorem test_register_capacity_one :
    after (exec (.register .gpio 0) State.reset) (fun t => t.ret == .slot 0 && t.regGpio == [some 0] &&
      after (exec (.register .gpio 1) t) (fun u => u.ret == .full && u.regGpio == [some 0])) = true := by decide
/-- V-R3, its third and fourth registers. -/
theorem test_register_capacity_three :
    registerIn [some 7, some 8, none] 9 = some (2, [some 7, some 8, some 9]) ∧
    registerIn [some 7, some 8, some 9] 10 = none := by decide

/-! ### The GPIO engine -/

/-- R310: `order` at power-on is the configured value. -/
theorem test_powerOn_order :
    ((State.powerOn { Config.common with gpioLsb := [2] }).gpioCtx 2).order = .lsb ∧
    ((State.powerOn { Config.common with gpioLsb := [2] }).gpioCtx 0).order = .msb := by decide

/-- V-G2, V-G3. -/
theorem test_gpioInit_refused :
    after (exec (.gpioInit 0 4 5 .msb) (gpioIdle Config.common [])) (fun t => t.ret == .refused .reInit && t.refused)
      = true ∧
    after (exec (.gpioInit 0 4 4 .msb) State.reset) (fun t => t.ret == .refused .unsupportedConfig && t.regGpio == [none])
      = true := by decide
/-- V-R2, its second init. -/
theorem test_gpioInit_no_capacity :
    after (exec (.gpioInit 1 4 5 .msb) (gpioIdle Config.common [])) (fun t =>
      t.ret == .status .noCapacity && !t.refused && t.regGpio == [some 0] && !(t.gpioCtx 1).inited) = true := by decide
/-- V-G8; V-G9, its send. -/
theorem test_gpioSend :
    after (exec (.gpioSend 0 0x1000 3) (gpioIdle Config.common [])) (fun t =>
      (t.gpioCtx 0).state == .sending && (t.gpioCtx 0).pix == 0 && (t.gpioCtx 0).mask == 0x800000#32 &&
      t.tmr == { load := 100, auto := true, en := true, ie := true, pend := false, handler := true }) = true ∧
    firstMask Config.common .lsb = 1#32 ∧ lastMask Config.common .lsb = 0x800000#32 := by decide
/-- V-G6, V-G7, V-G16. -/
theorem test_gpioSend_bad :
    after (exec (.gpioSend 0 0x1002 1) (gpioIdle Config.common [])) (fun t => t.ret == .refused .badBuffer) = true ∧
    after (exec (.gpioSend 0 0x1002 0) (gpioIdle Config.common [])) (fun t => !t.refused && t.hist == []) = true ∧
    after (exec (.gpioSend 0 0x1000 1) (gpioIdle { Config.common with bitPeriodNs := 10 } [])) (fun t =>
      t.faults == [⟨.host, .ticksOutOfRange 0⟩] && (t.gpioCtx 0).state == .sending && !t.tmr.en) = true := by decide
/-- R171; V-G4. -/
theorem test_gpioIsSending :
    after (exec (.gpioIsSending 0) (gpioBusy Config.common [] (gsend 1#32 .msb) false)) (fun t => t.ret == .bool true)
      = true ∧
    after (exec (.gpioIsSending 0) (gpioIdle Config.common [])) (fun t => t.ret == .bool false) = true ∧
    after (exec (.gpioIsSending 0) State.reset) (fun t => t.ret == .refused .uninitialisedContext) = true := by decide
/-- R174, example: bit 23 of 0x00A50F is 0. -/
theorem test_gpioNmi_sending :
    after (exec .gpioNmi (gpioBusy Config.common memA50F (gsend 0x800000#32 .msb) true)) (fun t =>
      (t.gpioCtx 0).mask == 0x400000#32 && (t.gpioCtx 0).state == .sending && !t.tmr.pend &&
      t.hist == [.regWrite (.tmrPend false), .memRead 0x1000 0x00A50F#32, .gpioWrite 0 .clk false,
        .gpioWrite 0 .data false, .gpioWrite 0 .clk true]) = true := by decide
/-- V-G10: the last bit of a 32-bit pixel, LSB first; with one pixel the state is then `FINISH`. -/
theorem test_gpioNmi_last_bit :
    after (exec .gpioNmi (gpioBusy (cfgBpp 32) (word4 0x1000 0#8 0#8 0#8 0x80#8) (gsend 0x80000000#32 .lsb) true))
      (fun t => (t.gpioCtx 0).pix == 1 && (t.gpioCtx 0).mask == 1#32 && (t.gpioCtx 0).data &&
        (t.gpioCtx 0).clk && (t.gpioCtx 0).state == .finish) = true := by decide
/-- V-G12, V-G13. -/
theorem test_tmrExpire :
    after (exec .tmrExpire (gpioBusy Config.common [] (gsend 1#32 .msb) false)) (fun t => t.tmr.pend && t.tmr.en) = true ∧
    after (exec .tmrExpire (gpioBusy Config.common [] (gsend 1#32 .msb) true)) (fun t =>
      t.faults == [⟨.timer, .bitDeadlineMissed 100⟩] && t.halted .timer) = true := by decide
/-- V-G14. -/
theorem test_tmrExpire_one_shot :
    after (exec .tmrExpire { gpioIdle Config.common [] with tmr := { Tmr.powerOn with en := true, handler := true } })
      (fun t => !t.tmr.en && !t.tmr.pend) = true := by decide

/-! ### The FIFO engine -/

/-- V-F2. -/
theorem test_fifoInit_lsb :
    after (exec (.fifoInit 1 0 .lsb) State.reset) (fun t => t.ret == .refused .unsupportedConfig) = true := by decide
/-- V-F3. -/
theorem test_fifoSend :
    after (exec (.fifoSend 1 0x2000 1) (fifoIdle (cfgBpp 8) memA5)) (fun t =>
      t.ser.fifo == [0x0D3409A6#32, 0#32, 0#32, 0#32] && (t.fifoCtx 1).trailer == 5 &&
      (t.fifoCtx 1).state == .sending && t.ieNeed && !t.ieEmpty && t.ser.insPend == 1 && t.ser.clkRun) = true := by
  decide
/-- V-F6. -/
theorem test_fifoSend_all_at_once :
    after (exec (.fifoSend 1 0x2000 1) (fifoIdle { Config.common with fifoDepth := 16, lowWatermark := 4 }
      (word4 0x2000 0x56#8 0x34#8 0x12#8 0#8))) (fun t =>
      t.ser.fifo == [0x09260934#32, 0x093609A4#32, 0x09A609B4#32] ++ List.replicate 8 0#32 &&
      (t.fifoCtx 1).state == .reset && !t.ieNeed && t.ieEmpty) = true := by decide
/-- R221. -/
theorem test_fifoIsSending :
    after (exec (.fifoIsSending 1) (fifoBusy (cfgBpp 8) [] { fctx with state := .reset } [] 2#32 0#32))
      (fun t => t.ret == .bool true) = true ∧
    after (exec (.fifoIsSending 1) State.reset) (fun t => t.ret == .refused .uninitialisedContext) = true := by decide
/-- R212, example. -/
theorem test_fifoFill :
    after (exec (.fifoFill 1) (fifoBusy (cfgBpp 8) memA5 (fsend 8) [] 1#32 0#32)) (fun t =>
      t.ser.fifo == [0x0D3409A6#32, 0#32, 0#32, 0#32] && (t.fifoCtx 1).trailer == 5 &&
      (t.fifoCtx 1).state == .sending) = true := by decide
/-- V-F8: a fill that finds the FIFO full and nothing left. -/
theorem test_fifoFill_exhausted :
    after (exec (.fifoFill 1) (fifoBusy (cfgBpp 8) [] { fsend 0 with pix := 1 } [0#32, 0#32, 0#32, 0#32] 1#32 0#32))
      (fun t => t.level == 4 && (t.fifoCtx 1).state == .reset) = true := by decide
/-- V-F16, V-F15. -/
theorem test_serIrq_sending :
    after (exec .serIrq (fifoBusy (cfgBpp 8) memA5 (fsend 8) [] 5#32 5#32)) (fun t => t.serSt == 0#32 && t.level == 4)
      = true ∧
    after (exec .serIrq (fifoBusy (cfgBpp 8) memA5 (fsend 8) [] 5#32 4#32)) (fun t => t.serSt == 0#32 && t.level == 0)
      = true := by decide
/-- V-F17. -/
theorem test_serIrq_reset :
    after (exec .serIrq (fifoBusy (cfgBpp 8) [] { fctx with state := .reset } [7#32] 2#32 2#32)) (fun t =>
      (t.fifoCtx 1).state == .idle && !t.ser.clkRun && !t.ieEmpty && t.ser.fifo == [7#32]) = true := by decide
/-- V-F10, V-F11. -/
theorem test_serDrain_levels :
    after (exec .serDrain (fifoBusy (cfgBpp 8) [] (fsend 8) [7#32, 8#32, 9#32] 1#32 0#32)) (fun t =>
      t.ser.fifo == [8#32, 9#32] && t.stEmpty && !t.stNeed) = true ∧
    after (exec .serDrain (fifoBusy (cfgBpp 8) [] (fsend 8) [8#32, 9#32] 1#32 0#32)) (fun t =>
      t.stEmpty && t.stNeed && t.hist.head? == some (.regWrite .serFifoPop)) = true := by decide
/-- V-F12. -/
theorem test_serDrain_underrun :
    after (exec .serDrain (fifoBusy (cfgBpp 8) [] (fsend 8) [] 1#32 0#32)) (fun t =>
      t.faults == [⟨.serializer, .fifoUnderrun 0 0 8⟩] && t.hist == []) = true := by decide
/-- R234; R93. -/
theorem test_legacyRaise :
    after (exec (.legacyRaise 4#32) State.reset) (fun t => t.serSt == 4#32 && t.serIrqLine) = true ∧
    after (exec (.legacyRaise 0#32) State.reset) (fun t => t.ret == .refused .unknownOperation) = true ∧
    after (exec (.legacyRaise 6#32) State.reset) (fun t => t.ret == .refused .unknownOperation) = true := by decide

/-! ### The schedule -/

/-- V-D3, V-D4, V-D5, V-D6: what a host record may name. -/
theorem test_step_host_records :
    [([0x04#8] ++ z8 ++ z8 ++ z8 ++ z8), ([0x14#8] ++ z8 ++ z8 ++ z8 ++ z8), ([0x25#8] ++ z8 ++ z8 ++ z8 ++ z8)].all
      (fun r => after (step (about State.reset .host r)) (fun t => t.refused && t.regGpio == [none])) = true ∧
    after (step (about State.reset .host ([0x21#8] ++ slot2 0xE2#8 0x04#8 ++ slot1 16#8 ++ z8 ++ z8)))
      (fun t => t.ret == .ticks 6 && !t.refused) = true := by decide

/-- An operation placed by `withFetchWord` is performed by the very next step. -/
theorem test_withFetchWord :
    after (step (State.reset.withFetchWord 8 0x23)) (fun t => t.ret == .word 0x09240924#32 && t.schedule.isEmpty) = true ∧
    after (step (State.reset.withFetchWord 8 0x00)) (fun t => t.ret == .refused .unknownOperation) = true := by decide

/-- V-D4, V-D5 on placed records: a subroutine is no step of its own (R81). -/
theorem test_withFetchWord_subroutine :
    [0x14, 0x25].all (fun op => after (step (State.reset.withFetchWord 8 op)) (fun t =>
      t.ret == .refused .unknownOperation && t.refused && t.regGpio == [none] && t.hist == [])) = true := by decide

/-! ### Witnesses: for every obligation with hypotheses, a concrete state and operands that meet them together

`witness_X` is about `Obligations.X`; a statement with several clauses has one conjunct (or one theorem) for each, at a
boundary value. The attach result is a free value (log 8), so a clause under either of its values shares the witness of
the statement's other hypotheses. -/

/-- A record of `gpio.is_sending(0)`. -/
def askGpio : List Byte := [0x03#8] ++ z8 ++ z8 ++ z8 ++ z8

/-- A record without operands. -/
def bare (op : Byte) : List Byte := [op] ++ z8 ++ z8 ++ z8 ++ z8

/-- One pixel in transmission over GPIO, a request pending, the handler about to run. -/
def nmiDue : State := about (gpioBusy Config.common memA50F (gsend 0x800000#32 .msb) true) .nmiHandler (bare 0x04#8)

/-- One pixel in transmission over the FIFO, words left, the drain about to run. -/
def drainDue : State :=
  about (fifoBusy (cfgBpp 8) memA5 (fsend 5) [0x0D3409A6#32, 0#32, 0#32, 0#32] 5#32 0#32) .serializer (bare 0x16#8)

/-- Both engines in transmission, the NMI and the shared line pending. -/
def bothBusy : State :=
  { fifoBusy Config.common (memA50F ++ memA5) (fsend 5) [] 5#32 3#32 with
    regGpio := [some 0], gpio := [(0, gsend 0x800000#32 .msb)]
    tmr := { load := 100, auto := true, en := true, ie := true, pend := true, handler := true } }

/-- An instance whose bit period is 0 ticks (V-G16's 10 ns is below one tick of 1 MHz). -/
def cfgSlow : Config := { Config.common with clkHz := 1000000, bitPeriodNs := 10, resetNs := 10 }

/-- The reset time at the common clock is 4000 ticks, too many for 8 bits (V-G15's shape). -/
def cfgNarrow : Config := { Config.common with timerBits := 8 }

theorem witness_DecodeOfEncodeIsTheOperation :
    (Instr.gpioSend (2 ^ 64 - 1) (2 ^ 64 - 1) (2 ^ 32 - 1)).wf = true ∧ (Instr.legacyRaise 0xFFFFFFFF#32).wf = true := by
  decide

theorem witness_EncodeOfDecodeIsTheRecord :
    decode ([0x11#8] ++ slot1 2#8 ++ slot2 0x34#8 0x12#8 ++ slot1 1#8 ++ z8) = .ok (.fifoInit 2 0x1234 .lsb) := rfl

theorem witness_PixelWordIsItsFourBytes_read :
    let m := word4 (2 ^ 32 - 4) 1#8 2#8 3#8 4#8
    0xFFFFFFF8 + 4 * 1 + 4 ≤ 2 ^ Config.common.addrBits ∧ readByte m (0xFFFFFFF8 + 4 * 1) = some 1#8 ∧
      readByte m (0xFFFFFFF8 + 4 * 1 + 1) = some 2#8 ∧ readByte m (0xFFFFFFF8 + 4 * 1 + 2) = some 3#8 ∧
      readByte m (0xFFFFFFF8 + 4 * 1 + 3) = some 4#8 := by decide

theorem witness_PixelWordIsItsFourBytes_absent :
    2 ^ Config.common.addrBits < 0xFFFFFFFC + 4 * 1 + 4 ∧
    (3 < 4 ∧ readByte [(0, 1#8), (1, 2#8), (2, 3#8)] (0 + 4 * 0 + 3) = none) := by decide

theorem witness_StepRunsTheDecodedOperation :
    let s := about (gpioIdle Config.common []) .host askGpio
    s.schedule = { agent := .host, record := askGpio } :: [] ∧ s.halted .host = false ∧
      held { s with schedule := [] } .host = false ∧ decode askGpio = .ok (.gpioIsSending 0) ∧
      admission .host (.gpioIsSending 0) = .taken :=
  ⟨rfl, by decide, by decide, rfl, by decide⟩

theorem witness_AgentsTakeExactlyTheirOwnOperations :
    [(drainDue, Agent.serializer, Instr.serDrain), (about State.reset .timer (bare 0x16#8), .timer, .serDrain),
      (about State.reset .host (bare 0x14#8), .host, .fifoFill 0)].all (fun p =>
        match p.1.schedule with
        | [e] => decide (e.agent = p.2.1) && !p.1.halted p.2.1 && !held { p.1 with schedule := [] } p.2.1
            && reads e.record p.2.2
        | _ => false) = true := by decide

theorem witness_HostRecordOfAnotherAgentIsRefused :
    let s := about State.reset .host (bare 0x04#8)
    s.schedule = { agent := .host, record := bare 0x04#8 } :: [] ∧ s.halted .host = false ∧
      held { s with schedule := [] } .host = false ∧ decode (bare 0x04#8) = .ok .gpioNmi :=
  ⟨rfl, by decide, by decide, rfl⟩

theorem witness_InvalidRecordIsRefused :
    let s := about State.reset .timer (bare 0x20#8)
    s.schedule = { agent := .timer, record := bare 0x20#8 } :: [] ∧ s.halted .timer = false ∧
      held { s with schedule := [] } .timer = false ∧ decode (bare 0x20#8) = .error (.reservedOp 0x20#8) :=
  ⟨rfl, by decide, by decide, rfl⟩

theorem witness_HigherLevelsHoldLowerLevels :
    let s := about bothBusy .serHandler (bare 0x15#8)
    let u := about (fifoBusy (cfgBpp 8) memA5 (fsend 5) [] 5#32 1#32) .host askGpio
    let v := about bothBusy .timer (bare 0x05#8)
    s.schedule = { agent := .serHandler, record := bare 0x15#8 } :: [] ∧ s.faults = [] ∧
      hasStep (exec .gpioNmi { s with schedule := [] }) = true ∧
      u.schedule = { agent := .host, record := askGpio } :: [] ∧ u.faults = [] ∧
      hasStep (exec .gpioNmi { u with schedule := [] }) = false ∧
      hasStep (exec .serIrq { u with schedule := [] }) = true ∧
      v.schedule = { agent := .timer, record := bare 0x05#8 } :: [] ∧ v.faults = [] := by decide

theorem witness_HaltedAgentTakesNoStep :
    (⟨.timer, .bitDeadlineMissed 100⟩ : FaultRecord) ∈
      { about (gpioBusy Config.common [] (gsend 1#32 .msb) true) .timer (bare 0x05#8) with
        faults := [⟨.timer, .bitDeadlineMissed 100⟩] }.faults := by decide

theorem witness_AgentStepsExistExactlyWhereTheirGuardsHold :
    hasStep (exec .tmrExpire nmiDue) = true ∧ hasStep (exec .gpioNmi nmiDue) = true ∧
    hasStep (exec .serDrain drainDue) = true ∧ hasStep (exec .serIrq bothBusy) = true ∧
    stops (exec .tmrExpire State.reset) = true ∧ stops (exec .gpioNmi State.reset) = true ∧
    stops (exec .serDrain State.reset) = true ∧ stops (exec .serIrq State.reset) = true := by decide

theorem witness_NoStepWritesMemoryOrParameters : ∃ t, step nmiDue = .next t := ⟨_, rfl⟩

theorem witness_BookkeepingOnlyGrows :
    ∃ t, step (about (gpioBusy Config.common [] (gsend 1#32 .msb) true) .timer (bare 0x05#8)) = .next t ∧
      t.faults ≠ [] := ⟨_, rfl, by decide⟩

theorem witness_RegistrySlotsAreNeverEmptied :
    (∃ t, step nmiDue = .next t) ∧ nmiDue.regGpio[0]? = some (some 0) ∧
    (∃ t, step drainDue = .next t) ∧ drainDue.regFifo[0]? = some (some 1) :=
  ⟨⟨_, rfl⟩, by decide, ⟨_, rfl⟩, by decide⟩

theorem witness_StepKeepsCanonicalForm : Canonical nmiDue ∧ ∃ t, step nmiDue = .next t :=
  ⟨by unfold Canonical; decide, _, rfl⟩

theorem witness_StepKeepsHistoryComplete :
    let s := about State.reset .legacy ([0x17#8] ++ slot1 4#8 ++ z8 ++ z8 ++ z8)
    HistoryComplete s ∧ ∃ t, step s = .next t ∧ t.hist ≠ [] :=
  ⟨by unfold HistoryComplete; decide, _, rfl, by decide⟩

theorem nmiDue_only (c : Nat) (h : (nmiDue.gpioCtx c).inited = true) : c = 0 := by
  by_cases hc : c = 0
  · exact hc
  · simp [nmiDue, about, gpioBusy, gpioIdle, State.gpioCtx, fetch, lookup, hc, gpioAtPowerOn, GpioCtx.powerOn] at h

theorem witness_StepKeepsGpioInvariant : GpioInv nmiDue ∧ ∃ t, step nmiDue = .next t := by
  refine ⟨?_, _, rfl⟩
  constructor
  · decide
  · intro c h; cases nmiDue_only c h; decide
  · intro _; exact ⟨0, by decide⟩
  · intro c h _; cases nmiDue_only c h; decide
  · intro c h _; cases nmiDue_only c h; exact ⟨by decide, 23, by decide, by decide⟩
  · intro c h hs; cases nmiDue_only c h; revert hs; decide
  · intro c h hs; cases nmiDue_only c h; revert hs; decide
  · decide
  · intro c
    by_cases hc : c = 0
    · cases hc; decide
    · simp [nmiDue, about, gpioBusy, gpioIdle, State.gpioCtx, fetch, lookup, hc, gpioAtPowerOn, GpioCtx.powerOn]
  · decide

theorem drainDue_only (c : Nat) (h : (drainDue.fifoCtx c).inited = true) : c = 1 := by
  by_cases hc : c = 1
  · exact hc
  · simp [drainDue, about, fifoBusy, fifoIdle, State.fifoCtx, fetch, lookup, hc, fifoAtPowerOn, FifoCtx.powerOn] at h

theorem witness_StepKeepsFifoInvariant : FifoInv drainDue ∧ ∃ t, step drainDue = .next t := by
  refine ⟨?_, _, rfl⟩
  constructor
  · decide
  · intro c h; cases drainDue_only c h; decide
  · intro _; exact ⟨1, by decide⟩
  · intro c h; cases drainDue_only c h; decide
  · intro c h _; cases drainDue_only c h; decide
  · intro c h _; cases drainDue_only c h; decide
  · intro c h _; cases drainDue_only c h; decide
  · intro c h hs; cases drainDue_only c h; revert hs; decide
  · intro c h hs; cases drainDue_only c h; revert hs; decide
  · decide
  · decide
  · decide
  · intro c
    by_cases hc : c = 1
    · cases hc; decide
    · simp [drainDue, about, fifoBusy, fifoIdle, State.fifoCtx, fetch, lookup, hc, fifoAtPowerOn, FifoCtx.powerOn]

theorem witness_EnginesTouchDisjointState :
    (∃ t, exec .gpioNmi nmiDue = .next t) ∧ (∃ t, exec .serDrain drainDue = .next t) := ⟨⟨_, rfl⟩, ⟨_, rfl⟩⟩

theorem witness_NmiCommutesWithTheFifoEngine :
    ∃ t u v w, exec .gpioNmi bothBusy = .next t ∧ exec .serDrain t = .next u ∧ exec .serDrain bothBusy = .next v ∧
      exec .gpioNmi v = .next w ∧ u.faults ≠ [] := ⟨_, _, _, _, rfl, rfl, rfl, rfl, by decide⟩

theorem witness_GpioInitOfSlotZero :
    (State.reset.gpioCtx 0).inited = false ∧ admissible State.reset.cfg = true ∧ 4 ≠ 5 ∧
      State.reset.regGpio = none :: [] := by decide

theorem witness_FifoInitOfSlotZero :
    (State.reset.fifoCtx 1).inited = false ∧ admissible State.reset.cfg = true ∧
      State.reset.regFifo = none :: [] := by decide

theorem witness_InitOfAnInitedContextIsRefused :
    ((gpioIdle Config.common []).gpioCtx 0).inited = true ∧ ((fifoIdle Config.common []).fifoCtx 1).inited = true := by
  decide

theorem witness_UnsupportedConfigurationIsRefused :
    (State.reset.gpioCtx 0).inited = false ∧ (State.reset.fifoCtx 0).inited = false ∧
    ((State.powerOn (cfgBpp 12)).gpioCtx 0).inited = false ∧ (cfgBpp 12).bpp = 12 ∧
    { Config.common with lowWatermark := 4 }.fifoDepth ≤ { Config.common with lowWatermark := 4 }.lowWatermark := by
  decide

theorem witness_FullRegistryGivesNoCapacity :
    none ∉ (gpioIdle Config.common []).regGpio ∧ ((gpioIdle Config.common []).gpioCtx 1).inited = false ∧
    none ∉ (fifoIdle Config.common []).regFifo ∧ ((fifoIdle Config.common []).fifoCtx 2).inited = false ∧
    admissible Config.common = true ∧ 2 ^ 32 - 1 < 2 ^ Config.common.addrBits ∧ 2 ^ 32 - 1 < 2 ^ 32 := by decide

theorem witness_RegisterTakesTheFirstEmptySlot :
    none ∉ ([some 7, some 8] : List (Option Nat)) ∧
    { State.reset with regGpio := [some 7, some 8, none, none] }.regGpio = [some 7, some 8] ++ none :: [none] ∧
    none ∉ ([] : List (Option Nat)) ∧ State.reset.regFifo = [] ++ none :: [] := by decide

theorem witness_BusyOrEmptySendChangesNothing :
    let s := gpioBusy Config.common [] (gsend 1#32 .msb) false
    let u := fifoBusy Config.common [] (fsend 5) [] 5#32 0#32
    2 ^ 32 - 1 < 2 ^ s.cfg.addrBits ∧ 2 ^ 32 - 1 < 2 ^ 32 ∧
      (s.gpioCtx 0).inited = true ∧ (s.gpioCtx 0).state ≠ .idle ∧
      (u.fifoCtx 1).inited = true ∧ (u.fifoCtx 1).state ≠ .idle := by decide

theorem witness_UninitialisedContextIsRefused :
    2 ^ 32 - 1 < 2 ^ State.reset.cfg.addrBits ∧ 0 < 2 ^ 32 ∧ (State.reset.gpioCtx 0).inited = false ∧
      (State.reset.fifoCtx 0).inited = false := by decide

theorem witness_BadBufferIsRefused :
    let s := gpioIdle Config.common []
    let u := fifoIdle (cfgBpp 32) []
    0xFFFFFFFC < 2 ^ s.cfg.addrBits ∧ 2 < 2 ^ 32 ∧ 0 < 2 ∧ (s.gpioCtx 0).inited = true ∧
      (s.gpioCtx 0).state = .idle ∧ 2 ^ s.cfg.addrBits < 0xFFFFFFFC + 4 * 2 ∧ 0x1002 % 4 ≠ 0 ∧
      (u.fifoCtx 1).inited = true ∧ (u.fifoCtx 1).state = .idle ∧ 0 + 4 * 2 ^ 30 ≤ 2 ^ u.cfg.addrBits ∧
      2 ^ 32 ≤ 2 ^ 30 * (u.cfg.bpp / 8) ∧ 2 ^ 30 < 2 ^ 32 := by decide

theorem witness_OperandsOutsideTheirTypesAreRefused :
    16 ≤ 16 ∧ 256 ≤ 256 ∧ 2 ^ 32 ≤ 2 ^ 32 ∧ State.reset.cfg.clkHz % 3 ≠ 0 ∧
    2#32 &&& ~~~State.reset.cfg.legacyMask ≠ 0#32 ∧ 2 ^ State.reset.cfg.addrBits ≤ 2 ^ 32 := by decide

theorem witness_GpioSendStartsATransmission :
    let s := gpioIdle Config.common []
    0xFFFFFFFC < 2 ^ s.cfg.addrBits ∧ 1 < 2 ^ 32 ∧ (s.gpioCtx 0).inited = true ∧ (s.gpioCtx 0).state = .idle ∧ 0 < 1 ∧
      0xFFFFFFFC % 4 = 0 ∧ 0xFFFFFFFC + 4 * 1 ≤ 2 ^ s.cfg.addrBits ∧ 1 ≤ bitTicks s.cfg ∧
      bitTicks s.cfg ≤ 2 ^ s.cfg.timerBits - 1 := by decide

theorem witness_GpioSendFaultsOnTicksOutOfRange :
    let s := gpioIdle cfgSlow []
    0x1000 < 2 ^ s.cfg.addrBits ∧ 1 < 2 ^ 32 ∧ (s.gpioCtx 0).inited = true ∧ (s.gpioCtx 0).state = .idle ∧ 0 < 1 ∧
      0x1000 % 4 = 0 ∧ 0x1000 + 4 * 1 ≤ 2 ^ s.cfg.addrBits ∧ bitTicks s.cfg = 0 ∧
      2 ^ { Config.common with timerBits := 6 }.timerBits ≤ bitTicks { Config.common with timerBits := 6 } := by decide

theorem witness_NmiSendsOneBit :
    nmiDue.tmr.pend = true ∧ nmiDue.tmr.handler = true ∧ slotZero nmiDue.regGpio = some 0 ∧
      (nmiDue.gpioCtx 0).state = .sending ∧
      pixelWord nmiDue.cfg nmiDue.mem (nmiDue.gpioCtx 0).buf (nmiDue.gpioCtx 0).pix = some 0x0000A50F#32 := by decide

theorem witness_NmiFinishStep :
    let s := gpioBusy Config.common [] { gsend 1#32 .msb with state := .finish } true
    let u := gpioBusy cfgNarrow [] { gsend 1#32 .msb with state := .finish } true
    s.tmr.pend = true ∧ s.tmr.handler = true ∧ slotZero s.regGpio = some 0 ∧ (s.gpioCtx 0).state = .finish ∧
      1 ≤ resetTicks s.cfg ∧ resetTicks s.cfg ≤ 2 ^ s.cfg.timerBits - 1 ∧
      u.tmr.pend = true ∧ u.tmr.handler = true ∧ slotZero u.regGpio = some 0 ∧ (u.gpioCtx 0).state = .finish ∧
      2 ^ u.cfg.timerBits ≤ resetTicks u.cfg ∧ resetTicks cfgSlow = 0 := by decide

theorem witness_NmiResetOrIdleStep :
    let s := gpioBusy Config.common [] { gsend 1#32 .msb with state := .reset } true
    let u := gpioBusy Config.common [] gctx true
    s.tmr.pend = true ∧ s.tmr.handler = true ∧ slotZero s.regGpio = some 0 ∧ (s.gpioCtx 0).state = .reset ∧
      u.tmr.pend = true ∧ u.tmr.handler = true ∧ slotZero u.regGpio = some 0 ∧ (u.gpioCtx 0).state = .idle := by decide

theorem witness_NmiSkipsAnEmptySlot :
    let s := { gpioBusy Config.common [] gctx true with regGpio := [none] }
    s.tmr.pend = true ∧ s.tmr.handler = true ∧ s.regGpio = none :: [] := by decide

theorem witness_UnadmittedReadLeavesTheReaderStuck_nmi :
    let s := gpioBusy Config.common [] (gsend 1#32 .msb) true
    s.tmr.pend = true ∧ s.tmr.handler = true ∧ slotZero s.regGpio = some 0 ∧ (s.gpioCtx 0).state = .sending ∧
      pixelWord s.cfg s.mem (s.gpioCtx 0).buf (s.gpioCtx 0).pix = none := by decide

/-- The second of two pixels is not admitted; one byte of the first is left. -/
theorem witness_UnadmittedReadLeavesTheReaderStuck_fill :
    let s := fifoBusy (cfgBpp 16) memA5 { fsend 5 with len := 2, byteIdx := 1 } [0#32, 0#32] 5#32 1#32
    1 < s.cfg.fifoDepth - s.level ∧ (s.fifoCtx 1).pix ≤ (s.fifoCtx 1).len ∧
      (s.fifoCtx 1).byteIdx < s.cfg.bpp / 8 ∧ ((s.fifoCtx 1).pix = (s.fifoCtx 1).len → (s.fifoCtx 1).byteIdx = 0) ∧
      (∀ i, i < 1 → nextWord s 1 i ≠ none) ∧ nextWord s 1 1 = none ∧
      s.ser.handler = true ∧ s.serSt &&& s.serIe &&& 3#32 ≠ 0#32 ∧ slotZero s.regFifo = some 1 ∧
      (s.fifoCtx 1).state = .sending := by decide

theorem witness_UnadmittedReadLeavesTheReaderStuck_send :
    let s := fifoIdle (cfgBpp 8) memA5
    0x2000 < 2 ^ s.cfg.addrBits ∧ 2 < 2 ^ 32 ∧ admissible s.cfg = true ∧ (s.fifoCtx 1).inited = true ∧
      (s.fifoCtx 1).state = .idle ∧ 0 < 2 ∧ 0x2000 % 4 = 0 ∧ 0x2000 + 4 * 2 ≤ 2 ^ s.cfg.addrBits ∧
      2 * (s.cfg.bpp / 8) < 2 ^ 32 ∧ s.stNeed = false ∧ 1 < s.cfg.fifoDepth ∧
      (∀ i, i < 1 → streamWord s.cfg s.mem 0x2000 2 i ≠ none) ∧ streamWord s.cfg s.mem 0x2000 2 1 = none := by decide

theorem witness_TimerExpiry :
    let s := gpioBusy Config.common [] (gsend 1#32 .msb) true
    let u := gpioBusy Config.common [] (gsend 1#32 .msb) false
    let v := { gpioIdle Config.common [] with tmr := { Tmr.powerOn with en := true, handler := true } }
    s.tmr.en = true ∧ s.tmr.handler = true ∧ s.tmr.ie = true ∧ s.tmr.pend = true ∧
      u.tmr.en = true ∧ u.tmr.handler = true ∧ u.tmr.ie = true ∧ u.tmr.pend = false ∧
      v.tmr.en = true ∧ v.tmr.handler = true ∧ v.tmr.ie = false ∧ v.tmr.auto = false := by decide

theorem witness_GpioTransmissionStepCount :
    let s := gpioIdle Config.common memA50F
    0x1000 < 2 ^ s.cfg.addrBits ∧ 1 < 2 ^ 32 ∧ 0 < 1 ∧ admissible s.cfg = true ∧ slotZero s.regGpio = some 0 ∧
      s.tmr.handler = true ∧ s.tmr.pend = false ∧ (s.gpioCtx 0).inited = true ∧ (s.gpioCtx 0).state = .idle ∧
      0x1000 % 4 = 0 ∧ 0x1000 + 4 * 1 ≤ 2 ^ s.cfg.addrBits ∧ 1 ≤ bitTicks s.cfg ∧
      bitTicks s.cfg ≤ 2 ^ s.cfg.timerBits - 1 ∧ 1 ≤ resetTicks s.cfg ∧
      resetTicks s.cfg ≤ 2 ^ s.cfg.timerBits - 1 ∧
      bufferBits s.cfg s.mem (s.gpioCtx 0).order 0x1000 0 1 = some
        [false, false, false, false, false, false, false, false, true, false, true, false, false, true, false, true,
          false, false, false, false, true, true, true, true] := by decide

/-- Room for three of the six words left. -/
theorem witness_FillPushesTheStreamInOrder :
    let s := fifoBusy (cfgBpp 8) memA5 (fsend 5) [0#32] 5#32 0#32
    let words := [0x0D3409A6#32, 0#32, 0#32]
    admissible s.cfg = true ∧ (s.fifoCtx 1).pix ≤ (s.fifoCtx 1).len ∧ (s.fifoCtx 1).byteIdx < s.cfg.bpp / 8 ∧
      ((s.fifoCtx 1).pix = (s.fifoCtx 1).len → (s.fifoCtx 1).byteIdx = 0) ∧
      words.length = min (s.cfg.fifoDepth - s.level) ((s.fifoCtx 1).wordsLeft s.cfg) ∧
      ∀ j, j < 3 → nextWord s 1 j = words[j]? := by decide

/-- The last words fit, and a second pixel that is not admitted lies beyond the room. -/
theorem witness_FillPushesTheStreamInOrder_ends :
    let s := fifoBusy (cfgBpp 8) memA5 (fsend 1) [0#32, 0#32] 5#32 0#32
    let u := fifoBusy (cfgBpp 8) memA5 { fsend 5 with len := 2 } [0#32, 0#32, 0#32] 5#32 0#32
    [0x0D3409A6#32, 0#32].length = min (s.cfg.fifoDepth - s.level) ((s.fifoCtx 1).wordsLeft s.cfg) ∧
      [0x0D3409A6#32, 0#32].length = (s.fifoCtx 1).wordsLeft s.cfg ∧
      [0x0D3409A6#32].length = min (u.cfg.fifoDepth - u.level) ((u.fifoCtx 1).wordsLeft u.cfg) ∧
      nextWord u 1 0 = some 0x0D3409A6#32 ∧ nextWord u 1 1 = none := by decide

theorem witness_FillDoesBoundedWork :
    ∃ t, exec (.fifoFill 1) (fifoBusy (cfgBpp 8) memA5 (fsend 5) [0#32] 5#32 0#32) = .next t := ⟨_, rfl⟩

theorem witness_FifoSendStartsATransmission :
    let s := fifoIdle (cfgBpp 8) memA5
    let words := [0x0D3409A6#32, 0#32, 0#32, 0#32]
    0x2000 < 2 ^ s.cfg.addrBits ∧ 1 < 2 ^ 32 ∧ admissible s.cfg = true ∧ (s.fifoCtx 1).inited = true ∧
      (s.fifoCtx 1).state = .idle ∧ 0 < 1 ∧ 0x2000 % 4 = 0 ∧ 0x2000 + 4 * 1 ≤ 2 ^ s.cfg.addrBits ∧
      1 * (s.cfg.bpp / 8) < 2 ^ 32 ∧ s.stNeed = false ∧
      trailerLen s.cfg (1 * (s.cfg.bpp / 8)) = 8 ∧ trailerField 8 = 8 ∧
      words.length = min s.cfg.fifoDepth (1 * (s.cfg.bpp / 8) + 8) ∧
      ∀ j, j < 4 → streamWord s.cfg s.mem 0x2000 1 j = words[j]? := by decide

theorem witness_FifoSendFaultsOnARefillRace :
    let s := { fifoIdle (cfgBpp 8) memA5 with ser := { Ser.powerOn (cfgBpp 8) with handler := true, st := 1#32 } }
    0x2000 < 2 ^ s.cfg.addrBits ∧ 1 < 2 ^ 32 ∧ (s.fifoCtx 1).inited = true ∧ (s.fifoCtx 1).state = .idle ∧ 0 < 1 ∧
      0x2000 % 4 = 0 ∧ 0x2000 + 4 * 1 ≤ 2 ^ s.cfg.addrBits ∧ 1 * (s.cfg.bpp / 8) < 2 ^ 32 ∧ s.stNeed = true := by decide

theorem witness_IrqAcknowledgesAllAndStepsTheEngine :
    let s := fifoBusy (cfgBpp 8) memA5 (fsend 5) [] 5#32 4#32
    let u := fifoBusy (cfgBpp 8) memA5 (fsend 5) [] 5#32 5#32
    s.serSt &&& s.serIe ≠ 0#32 ∧ s.ser.handler = true ∧ s.serSt &&& s.serIe &&& 3#32 = 0#32 ∧
      u.serSt &&& u.serIe ≠ 0#32 ∧ u.ser.handler = true ∧ u.serSt &&& u.serIe &&& 3#32 ≠ 0#32 ∧
      slotZero u.regFifo = some 1 ∧ slotZero { u with regFifo := [none] }.regFifo = none := by decide

theorem witness_IrqInSendingFills :
    let s := fifoBusy (cfgBpp 8) memA5 (fsend 5) [0#32] 5#32 5#32
    let words := [0x0D3409A6#32, 0#32, 0#32]
    admissible s.cfg = true ∧ s.ser.handler = true ∧ s.serSt &&& s.serIe &&& 3#32 ≠ 0#32 ∧
      slotZero s.regFifo = some 1 ∧ (s.fifoCtx 1).state = .sending ∧ (s.fifoCtx 1).pix ≤ (s.fifoCtx 1).len ∧
      (s.fifoCtx 1).byteIdx < s.cfg.bpp / 8 ∧ ((s.fifoCtx 1).pix = (s.fifoCtx 1).len → (s.fifoCtx 1).byteIdx = 0) ∧
      words.length = min (s.cfg.fifoDepth - s.level) ((s.fifoCtx 1).wordsLeft s.cfg) ∧
      ∀ j, j < 3 → nextWord s 1 j = words[j]? := by decide

theorem witness_IrqInResetIdleOrTrailer :
    [FifoState.reset, .idle, .trailer].all (fun st =>
      let s := fifoBusy (cfgBpp 8) memA5 { fsend 0 with state := st } [7#32] 2#32 2#32
      s.ser.handler && decide (s.serSt &&& s.serIe &&& 3#32 ≠ 0#32) && decide (slotZero s.regFifo = some 1)
        && decide ((s.fifoCtx 1).state = st) && decide ((s.fifoCtx 1).state ≠ .sending)) = true := by decide

theorem witness_DrainEmitsOneFrame :
    let s := fifoBusy (cfgBpp 8) memA5 (fsend 5) [7#32] 5#32 0#32
    let u := { s with ser := { s.ser with insPend := 1, fifo := [] } }
    s.ser.clkRun = true ∧ s.ser.handler = true ∧ s.ser.insPend = 0 ∧ s.ser.fifo ≠ [] ∧
      u.ser.clkRun = true ∧ u.ser.handler = true ∧ 0 < u.ser.insPend := by decide

theorem witness_DrainUnderrun :
    [FifoState.sending, .reset, .idle, .trailer].all (fun st =>
      let s := fifoBusy (cfgBpp 8) memA5 { fsend 0 with state := st } [] 2#32 0#32
      s.ser.clkRun && s.ser.handler && decide (s.ser.insPend = 0) && decide (s.ser.fifo = [])
        && decide (slotZero s.regFifo = some 1) && decide ((s.fifoCtx 1).state = st)) = true := by decide

theorem witness_DrainUnderrun_emptySlot :
    let s := { fifoBusy (cfgBpp 8) memA5 fctx [] 2#32 0#32 with regFifo := [none] }
    s.ser.clkRun = true ∧ s.ser.handler = true ∧ s.ser.insPend = 0 ∧ s.ser.fifo = [] ∧ slotZero s.regFifo = none := by decide

theorem witness_LegacyRaiseSetsItsBits :
    let cfg := { Config.common with legacyMask := 0x80000004#32 }
    0x80000000#32 ≠ 0#32 ∧ 0x80000000#32 &&& ~~~(State.powerOn cfg).cfg.legacyMask = 0#32 ∧
      (State.powerOn cfg).serIe &&& (State.powerOn cfg).cfg.legacyMask = (State.powerOn cfg).cfg.legacyMask := by decide

theorem witness_TrailerCoversTheGapWithEvenTotal :
    0 < 1 ∧ 2 ^ 32 - 1 < 2 ^ 32 ∧ State.reset.cfg.insertedFrames = 1 := by decide

theorem witness_TicksForIsExact :
    2 ^ 32 - 1 < 2 ^ 32 ∧ 1 ≤ 1 ∧ State.reset.cfg.clkHz % 1 = 0 ∧ State.reset.cfg.clkHz % 16 = 0 ∧
      State.reset.cfg.ticksMode = .exact := by decide

theorem witness_TicksForZeroIsZero : 1 ≤ 80000000 ∧ State.reset.cfg.clkHz % 80000000 = 0 := by decide

theorem witness_TicksForIsMonotone : Config.common.ticksMode = .exact ∧ 1249 ≤ 1250 := by decide

theorem witness_PerPartLosesAtMostTwoTicks :
    let s := State.powerOn { Config.common with ticksMode := .perPart }
    50000 < 2 ^ 32 ∧ 1 ≤ 1 ∧ s.cfg.clkHz % 1 = 0 ∧ s.cfg.ticksMode = .perPart := by decide

theorem witness_PwmNibbleIsTheTable :
    ([0x924#12, 0x926#12, 0x934#12, 0x936#12, 0x9A4#12, 0x9A6#12, 0x9B4#12, 0x9B6#12, 0xD24#12, 0xD26#12, 0xD34#12,
      0xD36#12, 0xDA4#12, 0xDA6#12, 0xDB4#12, 0xDB6#12] : List (BitVec 12))[15]? = some 0xDB6#12 := by decide

theorem witness_PackByteLaysOutEveryBit : 255 < 256 := by decide

end Sys2Proof.Tests
end

section
/-! What a step does with a decoded entry (30 R81, 60 R280, R290), and the obligations of the scope. -/

namespace Sys2Proof.Machine

/-! ### What the scheduler makes of a decoded operation -/

theorem admission_taken {a : Agent} {i : Instr} (h : ownAgent i = some a ∨ isFn i = true) : admission a i = .taken :=
  if_pos (by simpa using h.symm)

theorem admission_host_unknown {i : Instr} (h : ¬(ownAgent i = some .host ∨ isFn i = true)) :
    admission .host i = .unknown :=
  if_neg (by simpa [and_comm] using h)

theorem admission_noStep {a : Agent} {i : Instr} (h : ¬(ownAgent i = some a ∨ isFn i = true)) (ha : a ≠ .host) :
    admission a i = .noStep (.notItsStep a) :=
  (if_neg (by simpa [and_comm] using h)).trans (if_neg ha)

/-! ### A step by what becomes of its entry -/

section entry
variable {s : State} {e : Entry} {rest : List Entry} {i : Instr}

/-- A step performs the head of the schedule. -/
theorem step_of_schedule (hs : s.schedule = e :: rest) : step s = perform e { s with schedule := rest } := by
  unfold step
  rw [hs]

/-- Where the entry's agent may step and its record decodes, the admission of the operation decides the outcome. -/
theorem step_of_decode (hs : s.schedule = e :: rest) (hh : s.halted e.agent = false)
    (hp : held { s with schedule := rest } e.agent = false) (hd : decode e.record = .ok i) :
    (admission e.agent i = .taken → step s = exec i { s with schedule := rest }) ∧
    (admission e.agent i = .unknown → step s = .next (refuse .unknownOperation { s with schedule := rest })) ∧
    (∀ r, admission e.agent i = .noStep r → step s = .refused r) := by
  have hh' : State.halted { s with schedule := rest } e.agent = false := hh
  rw [step_of_schedule hs]
  refine ⟨fun ha => ?_, fun ha => ?_, fun r ha => ?_⟩ <;> simp [perform, hh', hp, hd, ha]

end entry

/-! ### The obligation -/

/-- Settles O7: the operations the statement gives an agent are those `ownAgent` and `isFn` give it, on which `admission`
splits. -/
theorem agentsTakeExactlyTheirOwnOperations : Obligations.AgentsTakeExactlyTheirOwnOperations := by
  intro s e rest i hs hh hp hd own
  obtain ⟨taken, unknown, noStep⟩ := step_of_decode hs hh hp hd
  have hown : own ↔ ownAgent i = some e.agent ∨ isFn i = true := by
    cases i <;> simp [own, ownAgent, isFn, eq_comm]
  rw [hown]
  refine ⟨fun h => ?_, fun h hhost => ?_, fun h hhost => ?_⟩
  · exact ⟨admission_taken h, taken (admission_taken h)⟩
  · rw [hhost] at h unknown
    exact unknown (admission_host_unknown h)
  · exact noStep _ (admission_noStep h hhost)

end Sys2Proof.Machine
end

section
/-! The inits and the sends by outcome (42_registry R145, 43_gpio_engine R164, R165, 44_fifo_engine R203, R204), what the admission
of an operation says of it, and what each engine's operations leave: the lemmas that the whole-machine rules below use. -/

namespace Sys2Proof.Machine

/-! ### Admission and the registry of one slot -/

/-- A taken operation is the agent's own or a pure function. -/
theorem own_of_admission_taken {a : Agent} {i : Instr} (h : admission a i = .taken) :
    ownAgent i = some a ∨ isFn i = true := by
  by_contra hown
  by_cases ha : a = .host
  · subst ha
    rw [admission_host_unknown hown] at h
    cases h
  · rw [admission_noStep hown ha] at h
    cases h

/-- In a registry of one slot the scan fills that slot, which was `EMPTY`. -/
theorem registerIn_single {r r' : List (Option Nat)} {c i : Nat} (hl : r.length = 1) (h : registerIn r c = some (i, r')) :
    r = [none] ∧ i = 0 ∧ r' = [some c] := by
  obtain ⟨taken, rest, -, rfl, rfl, rfl⟩ := registerIn_some h
  simp only [List.length_append, List.length_cons] at hl
  obtain rfl : taken = [] := List.eq_nil_of_length_eq_zero (by omega)
  obtain rfl : rest = [] := List.eq_nil_of_length_eq_zero (by omega)
  exact ⟨rfl, rfl, rfl⟩

/-! ### Inits and sends -/

/-- `gpio.init` refuses, finds no slot, or registers an uninited context of an admitted configuration: in slot 0 with the setup, which
fails or attaches the handler, and in another slot without. -/
theorem gpioInit_cases (c k d : Nat) (o : Order) (s : State) :
    (∃ r, gpioInit c k d o s = refuse r s) ∨ gpioInit c k d o s = returns (.status .noCapacity) s ∨
    (s.gpioCtx c).inited = false ∧ admissible s.cfg = true ∧ ∃ slot reg, registerIn s.regGpio c = some (slot, reg) ∧
      (slot = 0 ∧ gpioInit c k d o s
          = raise .host (.initHardwareFailure .gpio) (gpioClearTimer (s.setRegistry .gpio reg)).countDraw ∨
        slot = 0 ∧ gpioInit c k d o s
          = gpioConfigure c k d o (writeReg (.tmrHandler true) (gpioClearTimer (s.setRegistry .gpio reg)).countDraw) ∨
        slot ≠ 0 ∧ gpioInit c k d o s = gpioConfigure c k d o (s.setRegistry .gpio reg)) := by
  unfold gpioInit
  split
  · exact .inl ⟨_, rfl⟩
  rename_i hinit
  split
  · exact .inl ⟨_, rfl⟩
  rename_i hadm
  cases hreg : registerIn s.regGpio c with
  | none => exact .inr (.inl rfl)
  | some p =>
    obtain ⟨slot, reg⟩ := p
    refine .inr (.inr ⟨by simpa using hinit, by rw [Bool.or_eq_true, not_or] at hadm; simpa using hadm.1, slot, reg, rfl, ?_⟩)
    by_cases h0 : slot = 0
    · cases ha : Config.freeAttach s.draws with
      | true => exact .inr (.inl ⟨h0, by simp only [h0, if_true, gpioSetup_attached (s := s.setRegistry .gpio reg) ha]⟩)
      | false => exact .inl ⟨h0, by simp only [h0, if_true, gpioSetup_failed (s := s.setRegistry .gpio reg) ha]⟩
    · exact .inr (.inr ⟨h0, by simp only [h0, if_false]⟩)

/-- `fifo.init`, likewise. -/
theorem fifoInit_cases (c g : Nat) (o : Order) (s : State) :
    (∃ r, fifoInit c g o s = refuse r s) ∨ fifoInit c g o s = returns (.status .noCapacity) s ∨
    (s.fifoCtx c).inited = false ∧ admissible s.cfg = true ∧ ∃ slot reg, registerIn s.regFifo c = some (slot, reg) ∧
      (slot = 0 ∧ fifoInit c g o s
          = raise .host (.initHardwareFailure .fifo) (fifoClearSerializer g (s.setRegistry .fifo reg)).countDraw ∨
        slot = 0 ∧ fifoInit c g o s
          = fifoConfigure c (writeReg (.serHandler true) (fifoClearSerializer g (s.setRegistry .fifo reg)).countDraw) ∨
        slot ≠ 0 ∧ fifoInit c g o s = fifoConfigure c (s.setRegistry .fifo reg)) := by
  unfold fifoInit
  split
  · exact .inl ⟨_, rfl⟩
  rename_i hinit
  split
  · exact .inl ⟨_, rfl⟩
  rename_i hadm
  cases hreg : registerIn s.regFifo c with
  | none => exact .inr (.inl rfl)
  | some p =>
    obtain ⟨slot, reg⟩ := p
    refine .inr (.inr ⟨by simpa using hinit, by rw [Bool.or_eq_true, not_or] at hadm; simpa using hadm.1, slot, reg, rfl, ?_⟩)
    by_cases h0 : slot = 0
    · cases ha : Config.freeAttach s.draws with
      | true => exact .inr (.inl ⟨h0, by simp only [h0, if_true, fifoSetup_attached (s := s.setRegistry .fifo reg) g ha]⟩)
      | false => exact .inl ⟨h0, by simp only [h0, if_true, fifoSetup_failed (s := s.setRegistry .fifo reg) g ha]⟩
    · exact .inr (.inr ⟨h0, by simp only [h0, if_false]⟩)

/-- Arming the timer: where BIT_TICKS does not fit nothing is written and the host faults (R166). -/
theorem gpioArm_cases (s : State) :
    (1 ≤ bitTicks s.cfg ∧ bitTicks s.cfg ≤ 2 ^ s.cfg.timerBits - 1) ∧ gpioArm s = .ok (writeReg (.tmrIe true)
      (writeReg (.tmrEn true) (writeReg (.tmrAuto true) (writeReg (.tmrLoad (bitTicks s.cfg)) s)))) ∨
    gpioArm s = .error (raise .host (.ticksOutOfRange (bitTicks s.cfg)) s) := by
  unfold gpioArm
  rcases ticks_cases s.cfg (bitTicks s.cfg) with ⟨h1, h2⟩ | h
  · exact .inl ⟨⟨h1, h2⟩, by rw [loadTimer_fits _ _ h1 h2]⟩
  · exact .inr (by rw [loadTimer_outOfRange _ _ h])

/-- `gpio.send` refuses, is a no-op, or starts an idle context with an accepted buffer: the context is written, and then the
timer is armed or the host faults. -/
theorem gpioSend_cases (c buf len : Nat) (s : State) :
    (∃ r, gpioSend c buf len s = refuse r s) ∨ gpioSend c buf len s = returns .void s ∨
    ((s.gpioCtx c).inited = true ∧ (s.gpioCtx c).state = .idle ∧ sendTyped s.cfg buf len = true ∧ 0 < len ∧
        gpioBufferOk s.cfg buf len = true) ∧
      ∃ u, u = s.setGpio c (gpioStarted s.cfg buf len (s.gpioCtx c)) ∧
        ((1 ≤ bitTicks s.cfg ∧ bitTicks s.cfg ≤ 2 ^ s.cfg.timerBits - 1) ∧ gpioSend c buf len s = returns .void
            (writeReg (.tmrIe true) (writeReg (.tmrEn true) (writeReg (.tmrAuto true)
              (writeReg (.tmrLoad (bitTicks s.cfg)) u)))) ∨
          gpioSend c buf len s = raise .host (.ticksOutOfRange (bitTicks s.cfg)) u) := by
  unfold gpioSend
  split
  · exact .inl ⟨_, rfl⟩
  rename_i htyped
  split
  · exact .inl ⟨_, rfl⟩
  rename_i hinit
  split
  · exact .inr (.inl rfl)
  rename_i hidle
  split
  · exact .inr (.inl rfl)
  rename_i hlen
  split
  · exact .inl ⟨_, rfl⟩
  rename_i hbuf
  refine .inr (.inr ⟨⟨by simpa using hinit, by simpa [GpioCtx.isSending] using hidle, by simpa using htyped, by omega,
    by simpa using hbuf⟩, _, rfl, ?_⟩)
  rcases gpioArm_cases (s.setGpio c (gpioStarted s.cfg buf len (s.gpioCtx c))) with ⟨hfits, h⟩ | h
  · exact .inl ⟨hfits, by rw [h]; rfl⟩
  · exact .inr (by rw [h]; rfl)

/-- `fifo.send` refuses, is a no-op, or runs for an idle context with an accepted buffer. -/
theorem execFifoSend_cases (c buf len : Nat) (s : State) :
    (∃ r, execFifoSend c buf len s = .next (refuse r s)) ∨ execFifoSend c buf len s = .next (returns .void s) ∨
    ((s.fifoCtx c).inited = true ∧ (s.fifoCtx c).state = .idle ∧ sendTyped s.cfg buf len = true ∧ 0 < len ∧
        fifoBufferOk s.cfg buf len = true) ∧ execFifoSend c buf len s = fifoAccepted c buf len s := by
  unfold execFifoSend
  split
  · exact .inl ⟨_, rfl⟩
  rename_i htyped
  split
  · exact .inl ⟨_, rfl⟩
  rename_i hinit
  split
  · exact .inr (.inl rfl)
  rename_i hidle
  split
  · exact .inr (.inl rfl)
  rename_i hlen
  split
  · exact .inl ⟨_, rfl⟩
  rename_i hbuf
  exact .inr (.inr ⟨⟨by simpa using hinit, by simpa [FifoCtx.isSending] using hidle, by simpa using htyped, by omega,
    by simpa using hbuf⟩, rfl⟩)

/-! ### What the other engine, a pure function and a fill leave (R300, 44_fifo_engine R212) -/

/-- The primitives of the FIFO engine leave the configuration and the GPIO side as they were (R300). -/
theorem Path.fifo_sameGpioSide {s t : State} (path : Path Prim.Fifo s t) : t.cfg = s.cfg ∧ SameGpioSide s t := by
  induction path with
  | refl => exact ⟨rfl, fun _ => rfl, rfl, rfl⟩
  | step p _ hp ih =>
    obtain ⟨hcfg, hctx, hreg, htmr⟩ := ih
    cases p with
    | gpioCtx | line => exact hp.elim
    | reg w =>
      refine ⟨hcfg, hctx, hreg, Eq.trans ?_ htmr⟩
      cases w with
      | tmrLoad | tmrAuto | tmrEn | tmrIe | tmrPend | tmrHandler => cases hp
      | _ => rfl
    | registry e r => cases hp; exact ⟨hcfg, hctx, hreg, htmr⟩
    | _ => exact ⟨hcfg, hctx, hreg, htmr⟩

/-- The primitives of the GPIO engine leave the configuration and the FIFO side as they were (R300). -/
theorem Path.gpio_sameFifoSide {s t : State} (path : Path Prim.Gpio s t) : t.cfg = s.cfg ∧ SameFifoSide s t := by
  induction path with
  | refl => exact ⟨rfl, fun _ => rfl, rfl, rfl⟩
  | step p _ hp ih =>
    obtain ⟨hcfg, hctx, hreg, hser⟩ := ih
    cases p with
    | fifoCtx | push => exact hp.elim
    | reg w =>
      refine ⟨hcfg, hctx, hreg, Eq.trans ?_ hser⟩
      cases w with
      | tmrLoad | tmrAuto | tmrEn | tmrIe | tmrPend | tmrHandler => rfl
      | _ => cases hp
    | registry e r => cases hp; exact ⟨hcfg, hctx, hreg, hser⟩
    | _ => exact ⟨hcfg, hctx, hreg, hser⟩

/-- A pure function changes neither engine's side. -/
theorem exec_fn_sides {i : Instr} (hi : isFn i = true) {s t : State} (ht : exec i s = .next t) :
    t.cfg = s.cfg ∧ SameGpioSide s t ∧ SameFifoSide s t := by
  rcases exec_fn hi s with ⟨r, hr⟩ | hr <;> rw [hr] at ht <;> cases ht <;>
    exact ⟨rfl, ⟨fun _ => rfl, rfl, rfl⟩, fun _ => rfl, rfl, rfl⟩

theorem fillData_frame {c : Nat} (room : Nat) {s t : State} (h : fillData c room s = .ok t) : FillFrame c s t := by
  induction room generalizing s with
  | zero => cases h; exact .refl c _
  | succ room ih =>
    unfold fillData at h
    split at h
    · split at h
      · cases h
      · exact (pushData_ok ‹_›).1.trans (ih h)
    · cases h; exact .refl c _

theorem fillTrailer_frame (c room : Nat) (s : State) : FillFrame c s (fillTrailer c room s) := by
  induction room generalizing s with
  | zero => exact .refl c s
  | succ room ih =>
    unfold fillTrailer
    split
    · exact (pushTrailer_spec c s).1.trans (ih _)
    · exact .refl c s

theorem fillExhausted_frame (c : Nat) (s : State) : FillFrame c s (fillExhausted c s) := by
  by_cases h : (s.fifoCtx c).pix = (s.fifoCtx c).len ∧ (s.fifoCtx c).trailer = 0
  · exact (fillExhausted_done h.1 h.2).1
  · rw [fillExhausted, if_neg h]
    exact .refl c s

/-- What no fill changes, wherever the cursor stands. -/
theorem fill_frame {c : Nat} {s t : State} (h : fill c s = .ok t) : FillFrame c s t := by
  unfold fill at h
  split at h
  · cases h
  · cases h
    exact ((fillData_frame _ ‹_›).trans (fillTrailer_frame _ _ _)).trans (fillExhausted_frame _ _)

/-! ### Invariants -/

/-- What does not depend on the schedule, and a refusal and every operation that an agent may take keep, every step keeps. -/
theorem step_keeps {I : State → Prop} (hschedule : ∀ s rest, I s → I { s with schedule := rest })
    (hrefuse : ∀ s r, I s → I (refuse r s))
    (hexec : ∀ (i : Instr) (a : Agent) (s t : State), ownAgent i = some a ∨ isFn i = true → I s → exec i s = .next t → I t)
    (s t : State) (h : I s) (ht : step s = .next t) : I t := by
  obtain ⟨e, rest, -, -, rfl | ⟨i, -, hadm, hi⟩⟩ := step_cases ht
  · exact hrefuse _ _ (hschedule s rest h)
  · exact hexec i _ _ t (own_of_admission_taken hadm) (hschedule s rest h) hi

end Sys2Proof.Machine
end

section
/-! HIST as a complete account of the control registers (10_state R37, 20_memory R66): each primitive update changes the timer
and the serializer exactly as the events it adds to HIST say. -/

namespace Sys2Proof.Machine

theorem replay_append_event (cfg : Config) (h : List Event) (e : Event) :
    replay cfg (h ++ [e]) = replayEvent cfg (replay cfg h) e :=
  List.foldl_concat ..

theorem replayEvent_neutral {e : Event} (he : e.isNeutral = true) (cfg : Config) (r : Tmr × Ser) :
    replayEvent cfg r e = r := by
  cases e with
  | regWrite | fifoPush => cases he
  | _ => rfl

/-- An event that replays as the change of the timer and the serializer keeps the account complete. -/
theorem HistoryComplete.after_event {s t : State} {e : Event} (h : HistoryComplete s) (hcfg : t.cfg = s.cfg)
    (hhist : t.hist = s.hist ++ [e]) (hregs : (t.tmr, t.ser) = replayEvent s.cfg (s.tmr, s.ser) e) :
    HistoryComplete t := by
  rw [HistoryComplete, hcfg, hhist, replay_append_event, ← h, hregs]

theorem HistoryComplete.after_prim {p : Prim} (hp : p.Any) {s : State} (h : HistoryComplete s) :
    HistoryComplete (p.apply s) := by
  cases p with
  | log e => exact h.after_event rfl rfl (replayEvent_neutral hp _ _).symm
  | reg w => exact h.after_event (e := .regWrite w) rfl rfl rfl
  | push w => exact h.after_event (e := .fifoPush w) rfl rfl rfl
  | line c l b => exact h.after_event (e := .gpioWrite c l b) rfl rfl rfl
  | registry e r => cases e <;> exact h
  | _ => exact h

/-- Settles O17: a step is a path of primitive updates, and each keeps the account complete. -/
theorem stepKeepsHistoryComplete : Obligations.StepKeepsHistoryComplete := by
  intro s t hs ht
  obtain ⟨_, _, -, path⟩ := step_path ht
  exact path.induct (R := fun s t => HistoryComplete s → HistoryComplete t) (fun _ h => h)
    (fun _ _ _ hp ih h => (ih h).after_prim hp) hs

end Sys2Proof.Machine
end

section
/-! The invariant of the GPIO engine (10_state R26, 20_memory R65, 43_gpio_engine R170, 60_exceptions R288) over a step. At most
one context is inited, the one in slot 0, so the invariant is a fact about that context and the timer (`GpioActive`), beside the
widths of the others; each part of an operation is then a lemma about `GpioActive`. -/

namespace Sys2Proof.Machine

/-! ### The context in slot 0 and the timer -/

theorem GpioUpdate.ctx {s t : State} {c : Nat} {x : GpioCtx} {ev : List Event} (h : GpioUpdate s t c x ev) :
    t.gpioCtx c = x := h.2.1
theorem GpioUpdate.others {s t : State} {c : Nat} {x : GpioCtx} {ev : List Event} (h : GpioUpdate s t c x ev) :
    ∀ c', c' ≠ c → t.gpioCtx c' = s.gpioCtx c' := h.2.2

/-- The field widths of a GPIO context (R24). -/
def GpioCtx.Fits (cfg : Config) (x : GpioCtx) : Prop := x.buf < 2 ^ cfg.addrBits ∧ x.len < 2 ^ 32 ∧ x.pix < 2 ^ 32

/-- What the invariant says of the inited context `x` and the timer `t`. -/
structure GpioActive (cfg : Config) (x : GpioCtx) (t : Tmr) : Prop where
  buffer : x.state ≠ .idle → gpioBufferOk cfg x.buf x.len = true ∧ x.len < 2 ^ 32
  cursor : x.state = .sending → x.pix < x.len ∧ OneHotBelow cfg.bpp x.mask
  sent : x.state = .finish ∨ x.state = .reset → x.pix = x.len
  idle : x.state = .idle → t.en = false ∧ t.ie = false ∧ t.pend = false
  armed : t.ie = t.en ∧ (t.en = true → t.auto = true) ∧ (t.pend = true → t.en = true)
  widths : x.Fits cfg
  load : t.load < 2 ^ cfg.timerBits

theorem GpioActive.of_idle {cfg : Config} {x : GpioCtx} {t : Tmr} (hs : x.state = .idle) (hen : t.en = false)
    (hie : t.ie = false) (hpend : t.pend = false) (widths : x.Fits cfg) (load : t.load < 2 ^ cfg.timerBits) :
    GpioActive cfg x t where
  buffer hne := absurd hs hne
  cursor := by rw [hs]; nofun
  sent := by rw [hs]; nofun
  idle _ := ⟨hen, hie, hpend⟩
  armed := ⟨hie.trans hen.symm, by rw [hen]; nofun, by rw [hpend]; nofun⟩
  widths := widths
  load := load

section views
variable {s t : State} {c : Nat}

/-- The invariant depends on the configuration and the GPIO side of the state alone. -/
theorem GpioInv.congr (h : GpioInv s) (hcfg : t.cfg = s.cfg) (hside : SameGpioSide s t) : GpioInv t := by
  obtain ⟨hctx, hreg, htmr⟩ := hside
  constructor <;> simp only [hcfg, hctx, hreg, htmr]
  exacts [h.capacity, h.inited, h.attached, h.buffer, h.cursor, h.sent, h.idle, h.armed, h.widths, h.load]

/-- An inited context is active. -/
theorem GpioInv.active (h : GpioInv s) (hc : (s.gpioCtx c).inited = true) : GpioActive s.cfg (s.gpioCtx c) s.tmr where
  buffer := h.buffer c hc
  cursor := h.cursor c hc
  sent := h.sent c hc
  idle := h.idle c hc
  armed := h.armed (h.inited c hc).2.2
  widths := h.widths c
  load := h.load

theorem GpioInv.admissible_of_inited (h : GpioInv s) (hc : (s.gpioCtx c).inited = true) : admissible s.cfg = true :=
  (h.inited c hc).2.1

/-- At most one context is inited. -/
theorem GpioInv.inited_unique (h : GpioInv s) (hc : (s.gpioCtx c).inited = true) {c' : Nat} (hne : c' ≠ c) :
    (s.gpioCtx c').inited = false := by
  by_contra hc'
  have hslot := (h.inited c' (by simpa using hc')).1
  rw [(h.inited c hc).1] at hslot
  exact hne (Option.some.inj hslot).symm

/-- The invariant from one active context in slot 0, where no other is inited. -/
theorem GpioInv.of_active (capacity : s.regGpio.length = s.cfg.maxCtxGpio) (slot : slotZero s.regGpio = some c)
    (adm : admissible s.cfg = true) (handler : s.tmr.handler = true) (inited : (s.gpioCtx c).inited = true)
    (active : GpioActive s.cfg (s.gpioCtx c) s.tmr)
    (others : ∀ c', c' ≠ c → (s.gpioCtx c').inited = false ∧ (s.gpioCtx c').Fits s.cfg) : GpioInv s := by
  have only {c' : Nat} (hc' : (s.gpioCtx c').inited = true) : c' = c := by
    by_contra hne
    rw [(others c' hne).1] at hc'
    cases hc'
  refine ⟨capacity, fun c' hc' => ?_, fun _ => ⟨c, slot, inited⟩, fun c' hc' => ?_, fun c' hc' => ?_, fun c' hc' => ?_,
    fun c' hc' => ?_, fun _ => active.armed, fun c' => ?_, active.load⟩
  · exact ⟨only hc' ▸ slot, adm, handler⟩
  · exact only hc' ▸ active.buffer
  · exact only hc' ▸ active.cursor
  · exact only hc' ▸ active.sent
  · exact only hc' ▸ active.idle
  · by_cases hne : c' = c
    · exact hne ▸ active.widths
    · exact (others c' hne).2

/-- The invariant where no context is inited and the handler is detached. -/
theorem GpioInv.of_detached (capacity : s.regGpio.length = s.cfg.maxCtxGpio) (handler : s.tmr.handler = false)
    (inited : ∀ c, (s.gpioCtx c).inited = false) (widths : ∀ c, (s.gpioCtx c).Fits s.cfg)
    (load : s.tmr.load < 2 ^ s.cfg.timerBits) : GpioInv s := by
  have no {P : Prop} {c : Nat} (hc : (s.gpioCtx c).inited = true) : P := by rw [inited c] at hc; cases hc
  have off {P : Prop} (ht : s.tmr.handler = true) : P := by rw [handler] at ht; cases ht
  exact ⟨capacity, fun _ hc => no hc, fun ht => off ht, fun _ hc => no hc, fun _ hc => no hc, fun _ hc => no hc,
    fun _ hc => no hc, fun ht => off ht, widths, load⟩

/-- With slot 0 `EMPTY`, no context is inited and the handler is detached. -/
theorem GpioInv.detached_of_empty (h : GpioInv s) (hslot : slotZero s.regGpio = none) :
    (∀ c, (s.gpioCtx c).inited = false) ∧ s.tmr.handler = false := by
  refine ⟨fun c => ?_, ?_⟩
  · by_contra hc
    have hs := (h.inited c (by simpa using hc)).1
    rw [hslot] at hs
    cases hs
  · by_contra ht
    obtain ⟨c, hs, -⟩ := h.attached (by simpa using ht)
    rw [hslot] at hs
    cases hs

/-- A change of the context in slot 0 to `x`, and of the timer, that leaves it active keeps the invariant. -/
theorem GpioInv.update {x : GpioCtx} (h : GpioInv s) (hc : (s.gpioCtx c).inited = true) (hcfg : t.cfg = s.cfg)
    (hreg : t.regGpio = s.regGpio) (hhandler : t.tmr.handler = s.tmr.handler) (hx : t.gpioCtx c = x)
    (hothers : ∀ c', c' ≠ c → t.gpioCtx c' = s.gpioCtx c') (hinited : x.inited = true)
    (active : GpioActive s.cfg x t.tmr) : GpioInv t := by
  obtain ⟨slot, adm, handler⟩ := h.inited c hc
  refine .of_active (c := c) ?_ ?_ ?_ (hhandler.trans handler) ?_ ?_ fun c' hne => ?_
  · rw [hreg, hcfg, h.capacity]
  · rw [hreg, slot]
  · rw [hcfg, adm]
  · rw [hx, hinited]
  · rwa [hcfg, hx]
  · rw [hothers c' hne, hcfg]
    exact ⟨h.inited_unique hc hne, h.widths c'⟩

end views

/-! ### Init (43_gpio_engine R164) -/

@[simp] theorem gpioClearTimer_cfg (s : State) : (gpioClearTimer s).cfg = s.cfg := rfl
@[simp] theorem gpioClearTimer_regGpio (s : State) : (gpioClearTimer s).regGpio = s.regGpio := rfl
@[simp] theorem gpioClearTimer_gpioCtx (s : State) (c : Nat) : (gpioClearTimer s).gpioCtx c = s.gpioCtx c := rfl
@[simp] theorem gpioClearTimer_tmr (s : State) : (gpioClearTimer s).tmr =
    { load := 0, auto := false, en := false, ie := false, pend := false, handler := s.tmr.handler } := rfl

/-- Init keeps the invariant: it registers the first context of a configuration with one slot, and attaches the handler or faults with
the handler detached. -/
theorem GpioInv.after_init {s : State} (h : GpioInv s) (c k d : Nat) (o : Order) : GpioInv (gpioInit c k d o s) := by
  rcases gpioInit_cases c k d o s with ⟨r, he⟩ | he | ⟨-, hadm, slot, reg, hreg, hout⟩
  · exact he ▸ h.congr rfl ⟨fun _ => rfl, rfl, rfl⟩
  · exact he ▸ h.congr rfl ⟨fun _ => rfl, rfl, rfl⟩
  obtain ⟨-, -, -, hcap, -⟩ := admissible_bpp hadm
  obtain ⟨hempty, rfl, rfl⟩ := registerIn_single (h.capacity.trans hcap) hreg
  obtain ⟨hnone, hdetached⟩ := h.detached_of_empty (by rw [hempty]; rfl)
  have hfits : ∀ c, (s.gpioCtx c).Fits s.cfg := h.widths
  rcases hout with ⟨-, he⟩ | ⟨-, he⟩ | ⟨hne, -⟩
  · rw [he]
    exact .of_detached (by simp [hcap]) (by simp [hdetached]) (by simp [hnone]) (by simpa using hfits) (by simp)
  · rw [he]
    obtain ⟨u, hu, upd⟩ := gpioConfigure_spec c k d o
      (writeReg (.tmrHandler true) (gpioClearTimer (s.setRegistry .gpio [some c])).countDraw)
    rw [hu]
    have hcfg : u.cfg = s.cfg := by simpa using upd.cfg
    have hreg : u.regGpio = [some c] := by simpa using upd.regGpio
    have htmr : u.tmr = { load := 0, auto := false, en := false, ie := false, pend := false, handler := true } := by
      simpa [tmrEffect] using upd.tmr
    have hx : u.gpioCtx c = { s.gpioCtx c with
        clkLine := k, dataLine := d, order := o, clk := false, data := false, state := .idle, inited := true } := by
      simpa using upd.ctx
    have hothers : ∀ c', c' ≠ c → u.gpioCtx c' = s.gpioCtx c' := by simpa using upd.others
    refine .of_active (c := c) (by simp [hreg, hcfg, hcap]) (by simp [hreg, slotZero]) (by simp [hcfg, hadm])
      (by simp [htmr]) (by simp [hx]) ?_ fun c' hne => ?_
    · rw [returns_cfg, returns_gpioCtx, returns_tmr, hcfg, hx, htmr]
      exact .of_idle rfl rfl rfl rfl (h.widths c) (Nat.two_pow_pos _)
    · rw [returns_gpioCtx, returns_cfg, hothers c' hne, hcfg]
      exact ⟨hnone c', h.widths c'⟩
  · exact absurd rfl hne

/-! ### Send (R165) -/

theorem firstMask_oneHot {cfg : Config} (hb : 1 ≤ cfg.bpp) (o : Order) : OneHotBelow cfg.bpp (firstMask cfg o) := by
  cases o with
  | msb => exact ⟨cfg.bpp - 1, by omega, rfl⟩
  | lsb => exact ⟨0, by omega, rfl⟩

/-- The context of an accepted send is active, whatever timer with its enables together. -/
theorem GpioActive.started {cfg : Config} {buf len : Nat} {x : GpioCtx} {t : Tmr} (hb : 1 ≤ cfg.bpp)
    (htyped : sendTyped cfg buf len = true) (hlen : 0 < len) (hbuf : gpioBufferOk cfg buf len = true)
    (armed : t.ie = t.en ∧ (t.en = true → t.auto = true) ∧ (t.pend = true → t.en = true))
    (load : t.load < 2 ^ cfg.timerBits) : GpioActive cfg (gpioStarted cfg buf len x) t := by
  obtain ⟨haddr, hlen32⟩ : buf < 2 ^ cfg.addrBits ∧ len < 2 ^ 32 := by simpa [sendTyped] using htyped
  exact {
    buffer := fun _ => ⟨hbuf, hlen32⟩
    cursor := fun _ => ⟨hlen, firstMask_oneHot hb x.order⟩
    sent := nofun
    idle := nofun
    armed := armed
    widths := ⟨haddr, hlen32, Nat.two_pow_pos _⟩
    load := load }

theorem GpioInv.after_send {s : State} (h : GpioInv s) (c buf len : Nat) : GpioInv (gpioSend c buf len s) := by
  rcases gpioSend_cases c buf len s with
    ⟨r, he⟩ | he | ⟨⟨hc, hidle, htyped, hlen, hbuf⟩, u, rfl, ⟨⟨-, hmax⟩, he⟩ | he⟩
  · exact he ▸ h.congr rfl ⟨fun _ => rfl, rfl, rfl⟩
  · exact he ▸ h.congr rfl ⟨fun _ => rfl, rfl, rfl⟩
  all_goals
    have hb : 1 ≤ s.cfg.bpp := le_trans (by decide) (admissible_bpp (h.admissible_of_inited hc)).1
    rw [he]
    refine h.update (x := gpioStarted s.cfg buf len (s.gpioCtx c)) hc rfl rfl rfl (by simp)
      (fun _ hne => by simp [gpioCtx_setGpio_other _ _ hne]) hc ?_
  · have hp : 0 < 2 ^ s.cfg.timerBits := Nat.two_pow_pos _
    refine .started hb htyped hlen hbuf ⟨rfl, fun _ => rfl, fun _ => rfl⟩ ?_
    show bitTicks s.cfg < _
    omega
  · exact .started hb htyped hlen hbuf (h.active hc).armed h.load

/-! ### The cursor (R26, R174) -/

theorem maskAt_oneHot {cfg : Config} {j : Nat} (hj : j < cfg.bpp) (o : Order) : OneHotBelow cfg.bpp (maskAt cfg o j) := by
  cases o with
  | msb => exact ⟨cfg.bpp - 1 - j, by omega, rfl⟩
  | lsb => exact ⟨j, hj, rfl⟩

/-- A one-hot mask is the cursor at some bit of the pixel. -/
theorem OneHotBelow.eq_maskAt {cfg : Config} {m : Word} (h : OneHotBelow cfg.bpp m) (o : Order) :
    ∃ j, j < cfg.bpp ∧ m = maskAt cfg o j := by
  obtain ⟨k, hk, rfl⟩ := h
  cases o with
  | msb => exact ⟨cfg.bpp - 1 - k, by omega, by rw [maskAt, bitIdx, Nat.sub_sub_self (by omega)]⟩
  | lsb => exact ⟨k, hk, rfl⟩

/-- One bit on: the cursor moves inside the pixel, to the next pixel, or past the last to `FINISH`. -/
theorem GpioActive.advance {cfg : Config} {x : GpioCtx} {t : Tmr} (h : GpioActive cfg x t)
    (hb : 1 ≤ cfg.bpp ∧ cfg.bpp ≤ 32) (hs : x.state = .sending) : GpioActive cfg (gpioAdvance cfg x) t := by
  obtain ⟨hpix, honehot⟩ := h.cursor hs
  obtain ⟨hbuf, hlen⟩ := h.buffer (by rw [hs]; nofun)
  obtain ⟨j, hj, hmask⟩ := honehot.eq_maskAt x.order
  by_cases hlast : j + 1 = cfg.bpp
  · rw [gpioAdvance_last hb hlast hmask]
    have hwidths : x.buf < 2 ^ cfg.addrBits ∧ x.len < 2 ^ 32 ∧ x.pix + 1 < 2 ^ 32 :=
      ⟨h.widths.1, hlen, by omega⟩
    by_cases hdone : x.pix + 1 = x.len
    · rw [if_pos hdone]
      exact ⟨fun _ => ⟨hbuf, hlen⟩, nofun, fun _ => hdone, nofun, h.armed, hwidths, h.load⟩
    · rw [if_neg hdone, hs]
      exact ⟨fun _ => ⟨hbuf, hlen⟩, fun _ => ⟨by show x.pix + 1 < x.len; omega, maskAt_oneHot hb.1 _⟩, nofun, nofun, h.armed,
        hwidths, h.load⟩
  · rw [gpioAdvance_inside hb (by omega) hmask (by omega)]
    exact ⟨h.buffer, fun _ => ⟨hpix, maskAt_oneHot (by omega) _⟩, h.sent, h.idle, h.armed, h.widths, h.load⟩

/-! ### The NMI handler (R172 to R176) -/

/-- The lines do not matter to the invariant. -/
theorem GpioActive.lines {cfg : Config} {x : GpioCtx} {t : Tmr} (h : GpioActive cfg x t) (clk data : Bool) :
    GpioActive cfg { x with clk := clk, data := data } t :=
  ⟨h.buffer, h.cursor, h.sent, h.idle, h.armed, h.widths, h.load⟩

theorem gpioAdvance_inited (cfg : Config) (x : GpioCtx) : (gpioAdvance cfg x).inited = x.inited := by
  unfold gpioAdvance
  dsimp only
  split <;> split <;> rfl

section nmi
variable {s t : State} {c : Nat} (h : GpioInv s) (hc : (s.gpioCtx c).inited = true)
include h hc

theorem GpioInv.after_stepSending (hs : (s.gpioCtx c).state = .sending) (ht : stepSending c s = .next t) : GpioInv t := by
  cases hw : pixelWord s.cfg s.mem (s.gpioCtx c).buf (s.gpioCtx c).pix with
  | none => rw [stepSending_stuck hw] at ht; cases ht
  | some w =>
    obtain ⟨u, hu, upd⟩ := stepSending_spec hw
    rw [hu] at ht
    cases ht
    have hbpp := admissible_bpp (h.admissible_of_inited hc)
    have htmr := upd.tmr
    exact h.update hc upd.cfg upd.regGpio (by rw [htmr]) upd.ctx upd.others ((gpioAdvance_inited _ _).trans hc)
      (htmr ▸ ((h.active hc).lines _ _).advance ⟨by omega, by omega⟩ hs)

theorem GpioInv.after_stepFinish (hs : (s.gpioCtx c).state = .finish) : GpioInv (stepFinish c s) := by
  have active := (h.active hc).lines false false
  rcases ticks_cases s.cfg (resetTicks s.cfg) with ⟨h1, h2⟩ | hout
  · obtain ⟨u, upd, hu⟩ := stepFinish_spec (c := c) h1 h2
    have htmr : ((writeReg (.tmrLoad (resetTicks s.cfg)) u).setGpio c
        { s.gpioCtx c with clk := false, data := false, state := .reset }).tmr = { s.tmr with load := resetTicks s.cfg } := by
      rw [setGpio_tmr, writeReg_tmr, upd.tmr]; rfl
    rw [hu]
    refine h.update hc upd.cfg upd.regGpio (by rw [htmr]) (gpioCtx_setGpio_same _ c _)
      (fun c' hne => (gpioCtx_setGpio_other _ _ hne).trans (upd.others c' hne)) hc ?_
    rw [htmr]
    have hp : 0 < 2 ^ s.cfg.timerBits := Nat.two_pow_pos _
    exact ⟨fun _ => active.buffer (by rw [hs]; nofun), nofun, fun _ => active.sent (.inl hs), nofun, active.armed,
      active.widths, by show resetTicks s.cfg < _; omega⟩
  · obtain ⟨u, upd, hu⟩ := stepFinish_outOfRange (c := c) hout
    rw [hu]
    exact h.update hc upd.cfg upd.regGpio (congrArg Tmr.handler upd.tmr) upd.ctx upd.others hc (upd.tmr ▸ active)

theorem GpioInv.after_stepReset (hpend : s.tmr.pend = false) : GpioInv (stepReset c s) :=
  h.update hc rfl rfl rfl (gpioCtx_setGpio_same _ c _) (fun _ hne => gpioCtx_setGpio_other _ _ hne) hc
    (.of_idle rfl rfl rfl hpend (h.widths c) h.load)

/-- Taking the request. -/
theorem GpioInv.after_takeRequest : GpioInv (writeReg (.tmrPend false) s) := by
  have active := h.active hc
  obtain ⟨htogether, hauto, -⟩ := active.armed
  exact h.update hc rfl rfl rfl rfl (fun _ _ => rfl) hc
    { active with
      idle := fun hs => by
        obtain ⟨en, ie, -⟩ := active.idle hs
        exact ⟨en, ie, rfl⟩
      armed := ⟨htogether, hauto, nofun⟩ }

end nmi

theorem GpioInv.after_nmi {s t : State} (h : GpioInv s) (ht : execGpioNmi s = .next t) : GpioInv t := by
  unfold execGpioNmi at ht
  split at ht
  case isFalse => cases ht
  rename_i hguard
  obtain ⟨c, hslot, hc⟩ := h.attached (by simp only [nmiGuard, Bool.and_eq_true] at hguard; exact hguard.2)
  have h₁ := h.after_takeRequest hc
  simp only [gpioNmi, writeReg_regGpio, hslot] at ht
  split at ht
  · exact h₁.after_stepSending hc ‹_› ht
  · cases ht; exact h₁.after_stepFinish hc ‹_›
  · cases ht; exact h₁.after_stepReset hc rfl
  · cases ht; exact h₁.after_stepReset hc rfl

/-! ### The timer (R178) -/

/-- An expiry finds a transmission in progress, so the timer reloads and its interrupt is enabled: the request is set, or is
already pending and the timer faults. -/
theorem GpioInv.after_expire {s t : State} (h : GpioInv s) (ht : execTmrExpire s = .next t) : GpioInv t := by
  unfold execTmrExpire at ht
  split at ht
  case isFalse => cases ht
  rename_i hguard
  cases ht
  obtain ⟨hen, hhandler⟩ : s.tmr.en = true ∧ s.tmr.handler = true := by simpa [expireGuard] using hguard
  obtain ⟨c, -, hc⟩ := h.attached hhandler
  have active := h.active hc
  obtain ⟨htogether, hauto, -⟩ := active.armed
  by_cases hpend : s.tmr.pend = true
  · simp only [tmrExpire, log_tmr, htogether, hen, hpend, if_true]
    exact h.congr rfl ⟨fun _ => rfl, rfl, rfl⟩
  · simp only [tmrExpire, log_tmr, htogether, hen, hpend, if_true, stopOneShot, writeReg_tmr, tmrEffect, hauto hen]
    refine h.update hc rfl rfl rfl rfl (fun _ _ => rfl) hc
      { active with
        idle := fun hs => ?_
        armed := ⟨htogether, hauto, fun _ => hen⟩ }
    obtain ⟨hstopped, -, -⟩ := active.idle hs
    rw [hstopped] at hen
    cases hen

/-! ### Every operation of a step -/

theorem GpioInv.after_exec {i : Instr} {a : Agent} (hi : ownAgent i = some a ∨ isFn i = true) {s t : State} (h : GpioInv s)
    (ht : exec i s = .next t) : GpioInv t := by
  cases i with
  | gpioInit c k d o => cases ht; exact h.after_init c k d o
  | gpioSend c buf len => cases ht; exact h.after_send c buf len
  | gpioIsSending c => cases ht; split <;> exact h.congr rfl ⟨fun _ => rfl, rfl, rfl⟩
  | gpioNmi => exact h.after_nmi ht
  | tmrExpire => exact h.after_expire ht
  | fifoInit | fifoSend | fifoIsSending | fifoFill | serIrq | serDrain | legacyRaise =>
    obtain ⟨hcfg, hside⟩ := (exec_path_fifo rfl ht).fifo_sameGpioSide
    exact h.congr hcfg hside
  | ticksFor | pwmNibble | packByte | trailerLen =>
    obtain ⟨hcfg, hside, -⟩ := exec_fn_sides rfl ht
    exact h.congr hcfg hside
  | register => simp [ownAgent, isFn] at hi

/-- Settles O18, by what each operation an agent may take does to the context in slot 0 and the timer. -/
theorem stepKeepsGpioInvariant : Obligations.StepKeepsGpioInvariant :=
  step_keeps (fun _ _ h => h.congr rfl ⟨fun _ => rfl, rfl, rfl⟩)
    (fun _ _ h => h.congr rfl ⟨fun _ => rfl, rfl, rfl⟩) fun _ _ _ _ hi h ht => h.after_exec hi ht

end Sys2Proof.Machine
end

section
/-! The invariant of the FIFO engine (10_state R28, R29, R34, 44_fifo_engine R226, R241, 60_exceptions R278, R288) over a step. As
on the GPIO side at most one context is inited, and the invariant is a fact about that context and the serializer (`FifoActive`),
beside the widths of the others. -/

namespace Sys2Proof.Machine

/-! ### The context in slot 0 and the serializer -/

/-- The field widths of a FIFO context (R27). -/
def FifoCtx.Fits (cfg : Config) (x : FifoCtx) : Prop :=
  x.buf < 2 ^ cfg.addrBits ∧ x.len < 2 ^ 32 ∧ x.pix < 2 ^ 32 ∧ x.byteIdx < 2 ^ 8 ∧ x.trailer < 2 ^ 32

/-- The legacy enables are those of the configuration (R34). -/
def Ser.LegacyEnables (cfg : Config) (r : Ser) : Prop :=
  r.ie &&& cfg.legacyMask = if cfg.legacyIe then cfg.legacyMask else 0#32

/-- What the invariant says of the inited context `x` and the serializer `r`. -/
structure FifoActive (cfg : Config) (x : FifoCtx) (r : Ser) : Prop where
  noTrailer : x.state ≠ .trailer
  buffer : x.state ≠ .idle → fifoBufferOk cfg x.buf x.len = true ∧ x.len < 2 ^ 32
  cursor : x.state = .sending ∨ x.state = .reset → CursorOk cfg x
  sending : x.state = .sending → ¬(x.pix = x.len ∧ x.trailer = 0) ∧
    r.ie.getLsbD 0 = true ∧ r.ie.getLsbD 1 = false ∧ r.clkRun = true
  reset : x.state = .reset → x.pix = x.len ∧ x.trailer = 0 ∧
    r.ie.getLsbD 0 = false ∧ r.ie.getLsbD 1 = true ∧ r.clkRun = true
  idle : x.state = .idle → r.ie.getLsbD 0 = false ∧ r.ie.getLsbD 1 = false ∧
    r.st.getLsbD 0 = false ∧ r.st.getLsbD 1 = false ∧ r.clkRun = false
  level : r.fifo.length ≤ cfg.fifoDepth
  inserted : r.insPend ≤ cfg.insertedFrames
  legacy : r.LegacyEnables cfg
  widths : x.Fits cfg

theorem FifoActive.of_idle {cfg : Config} {x : FifoCtx} {r : Ser} (hs : x.state = .idle)
    (quiet : r.ie.getLsbD 0 = false ∧ r.ie.getLsbD 1 = false ∧ r.st.getLsbD 0 = false ∧ r.st.getLsbD 1 = false ∧
      r.clkRun = false)
    (level : r.fifo.length ≤ cfg.fifoDepth) (inserted : r.insPend ≤ cfg.insertedFrames) (legacy : r.LegacyEnables cfg)
    (widths : x.Fits cfg) : FifoActive cfg x r where
  noTrailer := by rw [hs]; nofun
  buffer hne := absurd hs hne
  cursor := by rw [hs]; nofun
  sending := by rw [hs]; nofun
  reset := by rw [hs]; nofun
  idle _ := quiet
  level := level
  inserted := inserted
  legacy := legacy
  widths := widths

section views
variable {s t : State} {c : Nat}

theorem legacyEnables_iff : s.ser.LegacyEnables s.cfg ↔
    s.serIe &&& s.cfg.legacyMask = if s.cfg.legacyIe then s.cfg.legacyMask else 0#32 := by
  rw [serIe_legacy]
  rfl

/-- An inited context is active. -/
theorem FifoInv.active (h : FifoInv s) (hc : (s.fifoCtx c).inited = true) : FifoActive s.cfg (s.fifoCtx c) s.ser where
  noTrailer := h.noTrailer c hc
  buffer := h.buffer c hc
  cursor hs := by
    obtain ⟨pix, byteIdx, done⟩ := h.cursor c hc hs
    exact ⟨pix, byteIdx, done⟩
  sending := by rw [← ieNeed_eq, ← ieEmpty_eq]; exact h.sending c hc
  reset := by rw [← ieNeed_eq, ← ieEmpty_eq]; exact h.reset c hc
  idle := by rw [← ieNeed_eq, ← ieEmpty_eq, ← stNeed_eq, ← stEmpty_eq]; exact h.idle c hc
  level := h.level (h.inited c hc).2.2
  inserted := h.inserted (h.inited c hc).2.2
  legacy := legacyEnables_iff.mpr h.legacyEnables
  widths := h.widths c

theorem FifoInv.admissible_of_inited (h : FifoInv s) (hc : (s.fifoCtx c).inited = true) : admissible s.cfg = true :=
  (h.inited c hc).2.1

/-- At most one context is inited. -/
theorem FifoInv.inited_unique (h : FifoInv s) (hc : (s.fifoCtx c).inited = true) {c' : Nat} (hne : c' ≠ c) :
    (s.fifoCtx c').inited = false := by
  by_contra hc'
  have hslot := (h.inited c' (by simpa using hc')).1
  rw [(h.inited c hc).1] at hslot
  exact hne (Option.some.inj hslot).symm

/-- The invariant from one active context in slot 0, where no other is inited. -/
theorem FifoInv.of_active (capacity : s.regFifo.length = s.cfg.maxCtxFifo) (slot : slotZero s.regFifo = some c)
    (adm : admissible s.cfg = true) (handler : s.ser.handler = true) (inited : (s.fifoCtx c).inited = true)
    (active : FifoActive s.cfg (s.fifoCtx c) s.ser)
    (others : ∀ c', c' ≠ c → (s.fifoCtx c').inited = false ∧ (s.fifoCtx c').Fits s.cfg) : FifoInv s := by
  have only {c' : Nat} (hc' : (s.fifoCtx c').inited = true) : c' = c := by
    by_contra hne
    rw [(others c' hne).1] at hc'
    cases hc'
  exact {
    capacity := capacity
    inited := fun c' hc' => ⟨only hc' ▸ slot, adm, handler⟩
    attached := fun _ => ⟨c, slot, inited⟩
    noTrailer := fun c' hc' => only hc' ▸ active.noTrailer
    buffer := fun c' hc' => only hc' ▸ active.buffer
    cursor := fun c' hc' hs => by
      obtain ⟨pix, byteIdx, done⟩ := active.cursor (only hc' ▸ hs)
      exact only hc' ▸ ⟨pix, byteIdx, done⟩
    sending := fun c' hc' => by rw [only hc', ieNeed_eq, ieEmpty_eq]; exact active.sending
    reset := fun c' hc' => by rw [only hc', ieNeed_eq, ieEmpty_eq]; exact active.reset
    idle := fun c' hc' => by rw [only hc', ieNeed_eq, ieEmpty_eq, stNeed_eq, stEmpty_eq]; exact active.idle
    level := fun _ => active.level
    inserted := fun _ => active.inserted
    legacyEnables := legacyEnables_iff.mp active.legacy
    widths := fun c' => by
      by_cases hne : c' = c
      · exact hne ▸ active.widths
      · exact (others c' hne).2 }

/-- The invariant where no context is inited and the handler is detached. -/
theorem FifoInv.of_detached (capacity : s.regFifo.length = s.cfg.maxCtxFifo) (handler : s.ser.handler = false)
    (inited : ∀ c, (s.fifoCtx c).inited = false) (widths : ∀ c, (s.fifoCtx c).Fits s.cfg)
    (legacy : s.ser.LegacyEnables s.cfg) : FifoInv s := by
  have no {P : Prop} {c : Nat} (hc : (s.fifoCtx c).inited = true) : P := by rw [inited c] at hc; cases hc
  have off {P : Prop} (ht : s.ser.handler = true) : P := by rw [handler] at ht; cases ht
  exact ⟨capacity, fun _ hc => no hc, fun ht => off ht, fun _ hc => no hc, fun _ hc => no hc, fun _ hc => no hc,
    fun _ hc => no hc, fun _ hc => no hc, fun _ hc => no hc, fun ht => off ht, fun ht => off ht,
    legacyEnables_iff.mp legacy, widths⟩

/-- With slot 0 `EMPTY`, no context is inited. -/
theorem FifoInv.uninited_of_empty (h : FifoInv s) (hslot : slotZero s.regFifo = none) (c : Nat) :
    (s.fifoCtx c).inited = false := by
  by_contra hc
  have hs := (h.inited c (by simpa using hc)).1
  rw [hslot] at hs
  cases hs

/-- With no context inited, the handler is detached. -/
theorem FifoInv.detached_of_uninited (h : FifoInv s) (hnone : ∀ c, (s.fifoCtx c).inited = false) :
    s.ser.handler = false := by
  by_contra ht
  obtain ⟨c, -, hc⟩ := h.attached (by simpa using ht)
  rw [hnone c] at hc
  cases hc

/-- A change of the context in slot 0 to `x`, and of the serializer, that leaves it active keeps the invariant. -/
theorem FifoInv.update {x : FifoCtx} (h : FifoInv s) (hc : (s.fifoCtx c).inited = true) (hcfg : t.cfg = s.cfg)
    (hreg : t.regFifo = s.regFifo) (hhandler : t.ser.handler = s.ser.handler) (hx : t.fifoCtx c = x)
    (hothers : ∀ c', c' ≠ c → t.fifoCtx c' = s.fifoCtx c') (hinited : x.inited = true)
    (active : FifoActive s.cfg x t.ser) : FifoInv t := by
  obtain ⟨slot, adm, handler⟩ := h.inited c hc
  refine .of_active (c := c) ?_ ?_ ?_ (hhandler.trans handler) ?_ ?_ fun c' hne => ?_
  · rw [hreg, hcfg, h.capacity]
  · rw [hreg, slot]
  · rw [hcfg, adm]
  · rw [hx, hinited]
  · rwa [hcfg, hx]
  · rw [hothers c' hne, hcfg]
    exact ⟨h.inited_unique hc hne, h.widths c'⟩

/-- A change of the status bits that leaves NEED and EMPTY clear in `IDLE` keeps the invariant. -/
theorem FifoInv.status {st : Word} (h : FifoInv s) (hcfg : t.cfg = s.cfg) (hctx : ∀ c, t.fifoCtx c = s.fifoCtx c)
    (hreg : t.regFifo = s.regFifo) (hser : t.ser = { s.ser with st := st })
    (hst : ∀ c, (s.fifoCtx c).inited = true → (s.fifoCtx c).state = .idle → st.getLsbD 0 = false ∧ st.getLsbD 1 = false) :
    FifoInv t := by
  by_cases hex : ∃ c, (s.fifoCtx c).inited = true
  · obtain ⟨c, hc⟩ := hex
    refine h.update hc hcfg hreg (by rw [hser]) (hctx c) (fun c' _ => hctx c') hc ?_
    rw [hser]
    refine { h.active hc with idle := fun hs => ?_ }
    obtain ⟨need, empty, -, -, clkRun⟩ := (h.active hc).idle hs
    exact ⟨need, empty, (hst c hc hs).1, (hst c hc hs).2, clkRun⟩
  · have hnone : ∀ c, (s.fifoCtx c).inited = false := by simpa using hex
    refine .of_detached ?_ ?_ (fun c => ?_) (fun c => ?_) ?_
    · rw [hreg, hcfg, h.capacity]
    · rw [hser]; exact h.detached_of_uninited hnone
    · rw [hctx, hnone]
    · rw [hctx, hcfg]; exact h.widths c
    · rw [hser, hcfg]; exact legacyEnables_iff.mpr h.legacyEnables

/-- The invariant depends on the configuration and the FIFO side of the state alone. -/
theorem FifoInv.congr (h : FifoInv s) (hcfg : t.cfg = s.cfg) (hside : SameFifoSide s t) : FifoInv t := by
  obtain ⟨hctx, hreg, hser⟩ := hside
  refine h.status (st := s.ser.st) hcfg hctx hreg hser fun c hc hs => ?_
  obtain ⟨-, -, need, empty, -⟩ := (h.active hc).idle hs
  exact ⟨need, empty⟩

end views

/-! ### Init (44_fifo_engine R203) -/

theorem fifoConfigure_same (c : Nat) (s : State) : (fifoConfigure c s).fifoCtx c =
    { s.fifoCtx c with order := .msb, state := .idle, inited := true } := fifoCtx_setFifo_same s c _

theorem fifoConfigure_other {c c' : Nat} (s : State) (h : c' ≠ c) : (fifoConfigure c s).fifoCtx c' = s.fifoCtx c' :=
  fifoCtx_setFifo_other s _ h

/-- Init keeps the invariant: it registers the first context of a configuration with one slot, and attaches the handler or faults with
the handler detached. -/
theorem FifoInv.after_init {s : State} (h : FifoInv s) (c g : Nat) (o : Order) : FifoInv (fifoInit c g o s) := by
  rcases fifoInit_cases c g o s with ⟨r, he⟩ | he | ⟨-, hadm, slot, reg, hreg, hout⟩
  · exact he ▸ h.congr rfl ⟨fun _ => rfl, rfl, rfl⟩
  · exact he ▸ h.congr rfl ⟨fun _ => rfl, rfl, rfl⟩
  obtain ⟨-, -, -, -, hcap⟩ := admissible_bpp hadm
  obtain ⟨hempty, rfl, rfl⟩ := registerIn_single (h.capacity.trans hcap) hreg
  have hnone := h.uninited_of_empty (by rw [hempty]; rfl)
  have hfits : ∀ c, (s.fifoCtx c).Fits s.cfg := h.widths
  obtain ⟨ie, hclear, need, empty, hbits⟩ := fifoClearSerializer_eq g (s.setRegistry .fifo [some c])
  have hlegacy : ie &&& s.cfg.legacyMask = if s.cfg.legacyIe then s.cfg.legacyMask else 0#32 :=
    (and_legacy_congr hadm hbits).trans (legacyEnables_iff.mpr h.legacyEnables)
  rw [hclear] at hout
  rcases hout with ⟨-, he⟩ | ⟨-, he⟩ | ⟨hne, -⟩
  · rw [he]
    exact .of_detached hcap.symm (h.detached_of_uninited hnone) hnone hfits hlegacy
  · rw [he]
    refine .of_active (c := c) hcap.symm rfl hadm rfl ?_ ?_ fun c' hne => ?_
    · rw [fifoConfigure_same]
    · rw [fifoConfigure_same]
      exact .of_idle rfl ⟨need, empty, BitVec.getLsbD_zero, BitVec.getLsbD_zero, rfl⟩ (Nat.zero_le _) (Nat.zero_le _) hlegacy
        (h.widths c)
    · rw [fifoConfigure_other _ hne]
      exact ⟨hnone c', h.widths c'⟩
  · exact absurd rfl hne

/-! ### The fill (R212) -/

/-- What a fill starts from: a context in `SENDING` with its cursor in range, NEED enabled and EMPTY not. -/
structure FillReady (cfg : Config) (x : FifoCtx) (r : Ser) : Prop where
  state : x.state = .sending
  buffer : fifoBufferOk cfg x.buf x.len = true
  cursor : CursorOk cfg x
  need : r.ie.getLsbD 0 = true
  empty : r.ie.getLsbD 1 = false
  level : r.fifo.length ≤ cfg.fifoDepth
  legacy : r.LegacyEnables cfg
  addr : x.buf < 2 ^ cfg.addrBits
  len : x.len < 2 ^ 32
  trailer : x.trailer < 2 ^ 32

theorem FifoActive.fillReady {cfg : Config} {x : FifoCtx} {r : Ser} (h : FifoActive cfg x r) (hs : x.state = .sending) :
    FillReady cfg x r := by
  obtain ⟨hbuf, hlen⟩ := h.buffer (by rw [hs]; nofun)
  obtain ⟨-, need, empty, -⟩ := h.sending hs
  obtain ⟨addr, -, -, -, trailer⟩ := h.widths
  exact ⟨hs, hbuf, h.cursor (.inl hs), need, empty, h.level, h.legacy, addr, hlen, trailer⟩

/-- After a fill the context is active, in `SENDING` or `RESET` as there are words left or not, with any serializer that holds the
enables and the words that the fill left, and whose clock runs. -/
theorem FillReady.active {s t : State} {c : Nat} {r : Ser} (h : FillReady s.cfg (s.fifoCtx c) s.ser)
    (hadm : admissible s.cfg = true) (ht : fill c s = .ok t) (hie : r.ie = t.ser.ie) (hfifo : r.fifo = t.ser.fifo)
    (hclk : r.clkRun = true) (hins : r.insPend ≤ s.cfg.insertedFrames) : FifoActive s.cfg (t.fifoCtx c) r := by
  obtain ⟨frame, cursor, level, hbits, done, more, trailer⟩ := fill_ok h.cursor ht
  rw [frame.cfg] at cursor
  rw [ieNeed_eq, ieEmpty_eq, ← hie] at done
  rw [← hie] at more
  have hlegacy : r.LegacyEnables s.cfg := by
    rw [← hie] at hbits
    exact (and_legacy_congr hadm hbits).trans h.legacy
  have hlevel : r.fifo.length ≤ s.cfg.fifoDepth := hfifo ▸ level h.level
  have hbuffer : fifoBufferOk s.cfg (t.fifoCtx c).buf (t.fifoCtx c).len = true ∧ (t.fifoCtx c).len < 2 ^ 32 := by
    rw [frame.buf, frame.len]
    exact ⟨h.buffer, h.len⟩
  have hwidths : (t.fifoCtx c).Fits s.cfg := by
    have hbpp := admissible_bpp hadm
    have hpix := cursor.pix
    have hbyte := cursor.byteIdx
    have htrailer := h.trailer
    exact ⟨frame.buf ▸ h.addr, hbuffer.2, by omega, by omega, by omega⟩
  by_cases hleft : (t.fifoCtx c).pix = (t.fifoCtx c).len ∧ (t.fifoCtx c).trailer = 0
  · obtain ⟨hs, need, empty⟩ := done hleft
    exact ⟨by rw [hs]; nofun, fun _ => hbuffer, fun _ => cursor, by rw [hs]; nofun,
      fun _ => ⟨hleft.1, hleft.2, need, empty, hclk⟩, by rw [hs]; nofun, hlevel, hins, hlegacy, hwidths⟩
  · obtain ⟨hs, hsame⟩ := more hleft
    rw [h.state] at hs
    exact ⟨by rw [hs]; nofun, fun _ => hbuffer, fun _ => cursor, fun _ => ⟨hleft, hsame ▸ h.need, hsame ▸ h.empty, hclk⟩,
      by rw [hs]; nofun, by rw [hs]; nofun, hlevel, hins, hlegacy, hwidths⟩

/-! ### Send (R204) -/

theorem trailerField_lt (n : Nat) : trailerField n < 2 ^ 32 := by
  unfold trailerField
  split
  · assumption
  · exact (Config.freeTrailer n).isLt

/-- The engine bits of an enable word after a write of one of them. -/
theorem withBit_valid_getLsbD (cfg : Config) (w bit : Word) (b : Bool) {i : Nat} (hi : i < 2) :
    (withBit w bit b &&& validBits cfg).getLsbD i = if bit.getLsbD i then b else w.getLsbD i := by
  have hvalid : (validBits cfg).getLsbD i = true := by
    rw [validBits_getLsbD, Bool.or_eq_true, Bool.or_eq_true, decide_eq_true_eq, decide_eq_true_eq]
    omega
  rw [BitVec.getLsbD_and, hvalid, Bool.and_true, withBit_getLsbD]

/-- Writing an enable of an engine condition leaves the legacy enables. -/
theorem legacyEnables_withBit {cfg : Config} (hadm : admissible cfg = true) {r : Ser} (h : r.LegacyEnables cfg) {bit : Word}
    (hbit : ∀ i, 2 ≤ i → bit.getLsbD i = false) (b : Bool) :
    (withBit r.ie bit b &&& validBits cfg) &&& cfg.legacyMask = if cfg.legacyIe then cfg.legacyMask else 0#32 := by
  refine (and_legacy_congr hadm fun i hi => ?_).trans h
  simp only [BitVec.getLsbD_and, withBit_getLsbD, hbit i hi]
  simp

theorem fifoStart_ctx (c buf len : Nat) (s : State) :
    (fifoStart c buf len s).fifoCtx c = fifoStarted s.cfg buf len (s.fifoCtx c) := by
  simp [fifoStart]

theorem fifoStart_other {c c' : Nat} (buf len : Nat) (s : State) (h : c' ≠ c) :
    (fifoStart c buf len s).fifoCtx c' = s.fifoCtx c' := by
  simp [fifoStart, fifoCtx_setFifo_other _ _ h]

/-- An accepted send finds NEED clear, so it starts the context, fills and launches. -/
theorem FifoInv.after_accepted {s t : State} {c buf len : Nat} (h : FifoInv s) (hc : (s.fifoCtx c).inited = true)
    (hidle : (s.fifoCtx c).state = .idle) (htyped : sendTyped s.cfg buf len = true)
    (hbuf : fifoBufferOk s.cfg buf len = true) (ht : fifoAccepted c buf len s = .next t) : FifoInv t := by
  obtain ⟨haddr, hlen32⟩ : buf < 2 ^ s.cfg.addrBits ∧ len < 2 ^ 32 := by simpa [sendTyped] using htyped
  have hadm := h.admissible_of_inited hc
  have hbpp := admissible_bpp hadm
  have active := h.active hc
  obtain ⟨-, hempty, hneed, -, -⟩ := active.idle hidle
  obtain ⟨u, hu⟩ : ∃ u, u = writeReg (.serIeNeed true) (readStatus (fifoStart c buf len s)) := ⟨_, rfl⟩
  have hcfg : u.cfg = s.cfg := by rw [hu]; rfl
  have hctx : u.fifoCtx c = fifoStarted s.cfg buf len (s.fifoCtx c) := by
    rw [hu, writeReg_fifoCtx, readStatus_fifoCtx, fifoStart_ctx]
  have hser : u.ser = { s.ser with fifo := [], insPend := 0, ie := withBit s.ser.ie needBit true &&& validBits s.cfg } := by
    rw [hu]; rfl
  have hready : FillReady u.cfg (u.fifoCtx c) u.ser := by
    rw [hcfg, hctx, hser]
    exact {
      state := rfl
      buffer := hbuf
      cursor := ⟨Nat.zero_le _, by show 0 < s.cfg.bpp / 8; omega, fun _ => rfl⟩
      need := by rw [withBit_valid_getLsbD _ _ _ _ (by decide), needBit_getLsbD]; rfl
      empty := by rw [withBit_valid_getLsbD _ _ _ _ (by decide), needBit_getLsbD]; exact hempty
      level := Nat.zero_le _
      legacy := legacyEnables_withBit hadm active.legacy (fun i hi => by simp; omega) true
      addr := haddr
      len := hlen32
      trailer := trailerField_lt _ }
  have hrace : (readStatus (fifoStart c buf len s)).stNeed = false := (stNeed_eq _).trans hneed
  simp only [fifoAccepted, hrace, Bool.false_eq_true, if_false, ← hu] at ht
  split at ht
  · cases ht
  rename_i v hv
  cases ht
  have frame := fill_frame hv
  have hactive : FifoActive u.cfg (v.fifoCtx c) (fifoLaunch v).ser :=
    hready.active (hcfg ▸ hadm) hv rfl rfl rfl (le_of_eq (congrArg Config.insertedFrames frame.cfg))
  refine h.update hc (frame.cfg.trans hcfg) ?_ ?_ rfl (fun c' hne => ?_) ?_ (hcfg ▸ hactive)
  · exact frame.regFifo.trans (by rw [hu]; rfl)
  · exact frame.handler.trans (by rw [hser])
  · refine (frame.others c' hne).trans ?_
    rw [hu, writeReg_fifoCtx, readStatus_fifoCtx, fifoStart_other _ _ _ hne]
  · refine frame.inited.trans ?_
    rw [hctx]
    exact hc

theorem FifoInv.after_send {s t : State} {c buf len : Nat} (h : FifoInv s) (ht : execFifoSend c buf len s = .next t) :
    FifoInv t := by
  rcases execFifoSend_cases c buf len s with ⟨r, he⟩ | he | ⟨⟨hc, hidle, htyped, -, hbuf⟩, he⟩ <;> rw [he] at ht
  · cases ht; exact h.congr rfl ⟨fun _ => rfl, rfl, rfl⟩
  · cases ht; exact h.congr rfl ⟨fun _ => rfl, rfl, rfl⟩
  · exact h.after_accepted hc hidle htyped hbuf ht

/-! ### The serializer handler (R222 to R226) -/

/-- The entry of the handler clears every status bit (R222). -/
theorem irqAcknowledge_ser (s : State) : (irqAcknowledge s).ser = { s.ser with st := 0#32 } := by
  rw [← ack_all s.ser.st s.cfg]
  rfl

theorem FifoInv.after_acknowledge {s : State} (h : FifoInv s) : FifoInv (irqAcknowledge s) :=
  h.status rfl (fun _ => rfl) rfl (irqAcknowledge_ser s) fun _ _ _ => ⟨BitVec.getLsbD_zero, BitVec.getLsbD_zero⟩

section irq
variable {s t : State} {c : Nat} (h : FifoInv s) (hc : (s.fifoCtx c).inited = true)
include h hc

theorem FifoInv.after_fill (hs : (s.fifoCtx c).state = .sending) (ht : fill c s = .ok t) : FifoInv t := by
  have active := h.active hc
  have hready := active.fillReady hs
  have frame := fill_frame ht
  obtain ⟨-, -, -, hclk⟩ := active.sending hs
  refine h.update hc frame.cfg frame.regFifo frame.handler rfl frame.others (frame.inited.trans hc) ?_
  exact hready.active (h.admissible_of_inited hc) ht rfl rfl (frame.clkRun.trans hclk) (frame.insPend ▸ active.inserted)

/-- The end of a transmission, the status bits acknowledged. -/
theorem FifoInv.after_stepReset (hs : (s.fifoCtx c).state = .reset) (hst : s.ser.st = 0#32) : FifoInv (fifoStepReset c s) := by
  have active := h.active hc
  obtain ⟨-, -, hneed, -, -⟩ := active.reset hs
  have hclear {i : Nat} : s.ser.st.getLsbD i = false := by rw [hst]; exact BitVec.getLsbD_zero
  have hser : (fifoStepReset c s).ser =
      { s.ser with clkRun := false, ie := withBit s.ser.ie emptyBit false &&& validBits s.cfg } := rfl
  refine h.update (x := { s.fifoCtx c with state := .idle }) hc rfl rfl rfl (by simp [fifoStepReset])
    (fun _ hne => by simp [fifoStepReset, fifoCtx_setFifo_other _ _ hne]) hc ?_
  rw [hser]
  refine .of_idle rfl ⟨?_, ?_, hclear, hclear, rfl⟩ active.level active.inserted
    (legacyEnables_withBit (h.admissible_of_inited hc) active.legacy (fun i hi => by simp; omega) false) active.widths
  · rw [withBit_valid_getLsbD _ _ _ _ (by decide), emptyBit_getLsbD]; exact hneed
  · rw [withBit_valid_getLsbD _ _ _ _ (by decide), emptyBit_getLsbD]; rfl

theorem FifoInv.after_engineStep (hst : s.ser.st = 0#32) (ht : fifoStep c s = .next t) : FifoInv t := by
  unfold fifoStep at ht
  split at ht
  · split at ht
    · cases ht
    · cases ht; exact h.after_fill hc ‹_› ‹_›
  · cases ht; exact h.after_stepReset hc ‹_› hst
  · cases ht; exact h
  · exact absurd ‹_› (h.noTrailer c hc)

end irq

theorem FifoInv.after_irq {s t : State} (h : FifoInv s) (ht : execSerIrq s = .next t) : FifoInv t := by
  unfold execSerIrq at ht
  split at ht
  case isFalse => cases ht
  rename_i hguard
  obtain ⟨c, hslot, hc⟩ := h.attached (by simp only [irqGuard, Bool.and_eq_true] at hguard; exact hguard.2)
  unfold serIrq at ht
  dsimp only at ht
  split at ht
  · cases ht; exact h.after_acknowledge
  · rw [show (irqAcknowledge s).regFifo = s.regFifo from rfl, hslot] at ht
    exact h.after_acknowledge.after_engineStep hc (congrArg Ser.st (irqAcknowledge_ser s)) ht

/-! ### The drain (R230 to R232) -/

/-- What a drain leaves: the contexts, the registry, the enables and the clock, with no more words and inserted frames than
before. -/
structure Drained (s t : State) : Prop where
  cfg : t.cfg = s.cfg
  ctx : ∀ c, t.fifoCtx c = s.fifoCtx c
  regFifo : t.regFifo = s.regFifo
  ie : t.ser.ie = s.ser.ie
  clkRun : t.ser.clkRun = s.ser.clkRun
  handler : t.ser.handler = s.ser.handler
  level : t.ser.fifo.length ≤ s.ser.fifo.length
  inserted : t.ser.insPend ≤ s.ser.insPend

theorem Drained.of_same {s t : State} (hcfg : t.cfg = s.cfg) (hside : SameFifoSide s t) : Drained s t := by
  obtain ⟨hctx, hreg, hser⟩ := hside
  exact ⟨hcfg, hctx, hreg, by rw [hser], by rw [hser], by rw [hser], by rw [hser], by rw [hser]⟩

theorem drainUnderrun_side {s t : State} (h : drainUnderrun s = .ok t ∨ drainUnderrun s = .error t) :
    t.cfg = s.cfg ∧ SameFifoSide s t := by
  unfold drainUnderrun at h
  split at h
  · rcases h with h | h <;> cases h
    exact ⟨rfl, fun _ => rfl, rfl, rfl⟩
  · split at h <;> rcases h with h | h <;> cases h <;> exact ⟨rfl, fun _ => rfl, rfl, rfl⟩

theorem drainFrame_drained {s t : State} (h : drainFrame s = .ok t ∨ drainFrame s = .error t) : Drained s t := by
  unfold drainFrame at h
  split at h
  · rcases h with h | h <;> cases h
    exact ⟨rfl, fun _ => rfl, rfl, rfl, rfl, rfl, le_rfl, Nat.sub_le _ _⟩
  split at h
  · rcases h with h | h <;> cases h
    exact ⟨rfl, fun _ => rfl, rfl, rfl, rfl, rfl, by simp [serEffect], le_rfl⟩
  · obtain ⟨hcfg, hside⟩ := drainUnderrun_side h
    exact .of_same hcfg hside

theorem serDrain_drained (s : State) : Drained s (serDrain s) := by
  unfold serDrain
  split
  · exact drainFrame_drained (.inr ‹_›)
  · rename_i u hu
    obtain ⟨st, events, he, -⟩ := raiseStatus_frame u
    have hd := drainFrame_drained (.inl hu)
    rw [he]
    exact ⟨hd.cfg, hd.ctx, hd.regFifo, hd.ie, hd.clkRun, hd.handler, hd.level, hd.inserted⟩

/-- Outside `IDLE` the invariant leaves the status bits free, so draining keeps it. -/
theorem FifoActive.drained {s t : State} {c : Nat} (h : FifoActive s.cfg (s.fifoCtx c) s.ser)
    (hidle : (s.fifoCtx c).state ≠ .idle) (hd : Drained s t) : FifoActive s.cfg (s.fifoCtx c) t.ser where
  __ := h
  sending := by rw [hd.ie, hd.clkRun]; exact h.sending
  reset := by rw [hd.ie, hd.clkRun]; exact h.reset
  idle hs := absurd hs hidle
  level := hd.level.trans h.level
  inserted := hd.inserted.trans h.inserted
  legacy := by rw [Ser.LegacyEnables, hd.ie]; exact h.legacy

/-- The clock runs, so the context is not in `IDLE`. -/
theorem FifoInv.after_drain {s t : State} (h : FifoInv s) (ht : execSerDrain s = .next t) : FifoInv t := by
  unfold execSerDrain at ht
  split at ht
  case isFalse => cases ht
  rename_i hguard
  cases ht
  obtain ⟨hclk, hhandler⟩ : s.ser.clkRun = true ∧ s.ser.handler = true := by simpa [drainGuard] using hguard
  obtain ⟨c, -, hc⟩ := h.attached hhandler
  have active := h.active hc
  have hidle : (s.fifoCtx c).state ≠ .idle := by
    intro hs
    obtain ⟨-, -, -, -, hstopped⟩ := active.idle hs
    rw [hstopped] at hclk
    cases hclk
  have hd := serDrain_drained s
  exact h.update hc hd.cfg hd.regFifo hd.handler (hd.ctx c) (fun c' _ => hd.ctx c') hc (active.drained hidle hd)

/-! ### The legacy logic (R234) -/

/-- The legacy bits are no engine conditions, so raising them leaves NEED and EMPTY. -/
theorem FifoInv.after_legacy {s : State} (h : FifoInv s) {bits : Word} (htyped : legacyTyped s.cfg bits = true) :
    FifoInv (writeReg (.serStLegacy bits) s) := by
  refine h.status (st := (s.ser.st ||| bits) &&& validBits s.cfg) rfl (fun _ => rfl) rfl rfl fun c hc hs => ?_
  obtain ⟨h0, h1⟩ := legacyMask_engine_bits (h.admissible_of_inited hc)
  obtain ⟨-, -, need, empty, -⟩ := (h.active hc).idle hs
  have hsubset : bits &&& ~~~s.cfg.legacyMask = 0#32 := by
    simp only [legacyTyped, Bool.and_eq_true, decide_eq_true_eq] at htyped
    exact htyped.2
  have outside {i : Nat} (hi : i < 32) (hm : s.cfg.legacyMask.getLsbD i = false) : bits.getLsbD i = false := by
    have hbit := congrArg (·.getLsbD i) hsubset
    simpa only [BitVec.getLsbD_and, BitVec.getLsbD_not, hi, hm, decide_true, Bool.not_false, Bool.and_true,
      BitVec.getLsbD_zero] using hbit
  simp only [BitVec.getLsbD_and, BitVec.getLsbD_or, need, empty, outside (by decide) h0, outside (by decide) h1,
    Bool.or_false, Bool.false_and, and_self]

/-! ### Every operation of a step -/

theorem FifoInv.after_exec {i : Instr} {a : Agent} (hi : ownAgent i = some a ∨ isFn i = true) {s t : State} (h : FifoInv s)
    (ht : exec i s = .next t) : FifoInv t := by
  cases i with
  | fifoInit c g o => cases ht; exact h.after_init c g o
  | fifoSend c buf len => exact h.after_send ht
  | fifoIsSending c => cases ht; split <;> exact h.congr rfl ⟨fun _ => rfl, rfl, rfl⟩
  | serIrq => exact h.after_irq ht
  | serDrain => exact h.after_drain ht
  | legacyRaise bits =>
    cases ht
    split
    · exact h.after_legacy ‹_›
    · exact h.congr rfl ⟨fun _ => rfl, rfl, rfl⟩
  | gpioInit | gpioSend | gpioIsSending | gpioNmi | tmrExpire =>
    obtain ⟨hcfg, hside⟩ := (exec_path_gpio rfl ht).gpio_sameFifoSide
    exact h.congr hcfg hside
  | ticksFor | pwmNibble | packByte | trailerLen =>
    obtain ⟨hcfg, -, hside⟩ := exec_fn_sides rfl ht
    exact h.congr hcfg hside
  | fifoFill | register => simp [ownAgent, isFn] at hi

/-- Settles O19, by what each operation an agent may take does to the context in slot 0 and the serializer. -/
theorem stepKeepsFifoInvariant : Obligations.StepKeepsFifoInvariant :=
  step_keeps (fun _ _ h => h.congr rfl ⟨fun _ => rfl, rfl, rfl⟩)
    (fun _ _ h => h.congr rfl ⟨fun _ => rfl, rfl, rfl⟩) fun _ _ _ _ hi h ht => h.after_exec hi ht

end Sys2Proof.Machine
end

section
/-! The bookkeeping of a step (10_state R37, 60_exceptions R270, R271): HIST and REFUSED by the primitive updates, of which every
step is made; FAULTS by the operations, each of which raises at most one fault, as its own agent. -/

namespace Sys2Proof.Machine

/-! ### HIST, REFUSED and the schedule -/

/-- HIST has grown at its end, REFUSED has not been cleared, the schedule is as before. -/
structure HistoryGrows (s t : State) : Prop where
  schedule : t.schedule = s.schedule
  hist : ∃ events, t.hist = s.hist ++ events
  refused : s.refused = true → t.refused = true

theorem HistoryGrows.after_prim {s t : State} (h : HistoryGrows s t) (p : Prim) : HistoryGrows s (p.apply t) := by
  obtain ⟨schedule, ⟨events, hist⟩, refused⟩ := h
  have event (e : Event) : ∃ events, t.hist ++ [e] = s.hist ++ events :=
    ⟨events ++ [e], by rw [hist, List.append_assoc]⟩
  cases p with
  | log | reg | line | push => exact ⟨schedule, event _, refused⟩
  | refuse => exact ⟨schedule, ⟨events, hist⟩, fun _ => rfl⟩
  | registry e => cases e <;> exact ⟨schedule, ⟨events, hist⟩, refused⟩
  | _ => exact ⟨schedule, ⟨events, hist⟩, refused⟩

theorem Path.historyGrows {P : Prim → Prop} {s t : State} (path : Path P s t) : HistoryGrows s t :=
  path.induct (fun _ => ⟨rfl, ⟨[], (List.append_nil _).symm⟩, id⟩) (fun p _ _ _ h => h.after_prim p)

/-! ### FAULTS -/

/-- FAULTS is as before, or has gained one record of the agent `a`. -/
def FaultsBy (a : Agent) (s t : State) : Prop := t.faults = s.faults ∨ ∃ k, t.faults = s.faults ++ [⟨a, k⟩]

theorem raise_faultsBy (a : Agent) (k : FaultKind) {s t : State} (h : t.faults = s.faults) :
    FaultsBy a s (raise a k t) := by
  rw [FaultsBy, raise_faults, h]
  split
  · exact .inl rfl
  · exact .inr ⟨k, rfl⟩

/-! ### The GPIO engine's faults -/

@[simp] theorem gpioClearTimer_faults (s : State) : (gpioClearTimer s).faults = s.faults := by
  simp [gpioClearTimer]
@[simp] theorem gpioConfigure_faults (c k d : Nat) (o : Order) (s : State) : (gpioConfigure c k d o s).faults = s.faults := by
  simp [gpioConfigure]

theorem gpioInit_faultsBy (c k d : Nat) (o : Order) (s : State) : FaultsBy .host s (gpioInit c k d o s) := by
  rcases gpioInit_cases c k d o s with ⟨r, he⟩ | he | ⟨-, -, slot, reg, -, ⟨-, he⟩ | ⟨-, he⟩ | ⟨-, he⟩⟩ <;> rw [he]
  · exact .inl rfl
  · exact .inl rfl
  · exact raise_faultsBy _ _ (by simp)
  · exact .inl (by simp)
  · exact .inl (by simp)

theorem gpioSend_faultsBy (c buf len : Nat) (s : State) : FaultsBy .host s (gpioSend c buf len s) := by
  rcases gpioSend_cases c buf len s with ⟨r, he⟩ | he | ⟨-, u, rfl, ⟨-, he⟩ | he⟩ <;> rw [he]
  · exact .inl rfl
  · exact .inl rfl
  · exact .inl rfl
  · exact raise_faultsBy _ _ rfl

theorem stepSending_faults {c : Nat} {s t : State} (h : stepSending c s = .next t) : t.faults = s.faults := by
  cases hw : pixelWord s.cfg s.mem (s.gpioCtx c).buf (s.gpioCtx c).pix with
  | none => rw [stepSending_stuck hw] at h; cases h
  | some w =>
    obtain ⟨u, hu, upd⟩ := stepSending_spec hw
    rw [hu] at h
    cases h
    exact upd.faults

theorem stepFinish_faultsBy (c : Nat) (s : State) : FaultsBy .nmiHandler s (stepFinish c s) := by
  rcases ticks_cases s.cfg (resetTicks s.cfg) with ⟨h1, h2⟩ | hout
  · obtain ⟨u, upd, hu⟩ := stepFinish_spec (c := c) h1 h2
    exact hu ▸ .inl upd.faults
  · obtain ⟨u, upd, hu⟩ := stepFinish_outOfRange (c := c) hout
    exact hu ▸ raise_faultsBy _ _ upd.faults

theorem execGpioNmi_faultsBy {s t : State} (h : execGpioNmi s = .next t) : FaultsBy .nmiHandler s t := by
  unfold execGpioNmi at h
  split at h
  case isFalse => cases h
  unfold gpioNmi at h
  dsimp only at h
  split at h
  · cases h; exact .inl rfl
  split at h
  · exact .inl (stepSending_faults (s := writeReg (.tmrPend false) s) h)
  · cases h; exact stepFinish_faultsBy _ (writeReg (.tmrPend false) s)
  · cases h; exact .inl rfl
  · cases h; exact .inl rfl

theorem stopOneShot_faults (s : State) : (stopOneShot s).faults = s.faults := by
  unfold stopOneShot
  split <;> rfl

theorem execTmrExpire_faultsBy {s t : State} (h : execTmrExpire s = .next t) : FaultsBy .timer s t := by
  unfold execTmrExpire at h
  split at h
  case isFalse => cases h
  cases h
  unfold tmrExpire
  dsimp only
  split
  · split
    · exact raise_faultsBy _ _ rfl
    · exact .inl (stopOneShot_faults _)
  · exact .inl (stopOneShot_faults _)

/-! ### The FIFO engine's faults -/

@[simp] theorem fifoClearSerializer_faults (g : Nat) (s : State) : (fifoClearSerializer g s).faults = s.faults := by
  simp [fifoClearSerializer]
@[simp] theorem fifoConfigure_faults (c : Nat) (s : State) : (fifoConfigure c s).faults = s.faults := by
  simp [fifoConfigure]

theorem fifoInit_faultsBy (c g : Nat) (o : Order) (s : State) : FaultsBy .host s (fifoInit c g o s) := by
  rcases fifoInit_cases c g o s with ⟨r, he⟩ | he | ⟨-, -, slot, reg, -, ⟨-, he⟩ | ⟨-, he⟩ | ⟨-, he⟩⟩ <;> rw [he]
  · exact .inl rfl
  · exact .inl rfl
  · exact raise_faultsBy _ _ (by simp)
  · exact .inl (by simp)
  · exact .inl (by simp)

theorem fifoAccepted_faultsBy {c buf len : Nat} {s t : State} (h : fifoAccepted c buf len s = .next t) :
    FaultsBy .host s t := by
  unfold fifoAccepted at h
  dsimp only at h
  split at h
  · cases h; exact raise_faultsBy _ _ rfl
  · split at h
    · cases h
    · rename_i u hu
      cases h
      exact .inl (fill_frame hu).faults

theorem execFifoSend_faultsBy {c buf len : Nat} {s t : State} (h : execFifoSend c buf len s = .next t) :
    FaultsBy .host s t := by
  rcases execFifoSend_cases c buf len s with ⟨r, he⟩ | he | ⟨-, he⟩ <;> rw [he] at h
  · cases h; exact .inl rfl
  · cases h; exact .inl rfl
  · exact fifoAccepted_faultsBy h

theorem fifoStep_faultsBy {c : Nat} {s t : State} (h : fifoStep c s = .next t) : FaultsBy .serHandler s t := by
  unfold fifoStep at h
  split at h
  · split at h
    · cases h
    · cases h; exact .inl (fill_frame ‹_›).faults
  · cases h; exact .inl rfl
  · cases h; exact .inl rfl
  · cases h; exact raise_faultsBy _ _ rfl

theorem execSerIrq_faultsBy {s t : State} (h : execSerIrq s = .next t) : FaultsBy .serHandler s t := by
  unfold execSerIrq at h
  split at h
  case isFalse => cases h
  unfold serIrq at h
  dsimp only at h
  split at h
  · cases h; exact .inl rfl
  split at h
  · cases h; exact .inl rfl
  · exact fifoStep_faultsBy (s := irqAcknowledge s) h

/-- A drain that emits a frame raises no fault. -/
theorem drainFrame_ok_faults {s t : State} (h : drainFrame s = .ok t) : t.faults = s.faults := by
  unfold drainFrame at h
  split at h
  · cases h; rfl
  split at h
  · cases h; rfl
  unfold drainUnderrun at h
  split at h
  · cases h; rfl
  · split at h <;> cases h <;> rfl

/-- A drain that does not raises one as the serializer. -/
theorem drainFrame_error_faultsBy {s t : State} (h : drainFrame s = .error t) : FaultsBy .serializer s t := by
  unfold drainFrame at h
  split at h
  · cases h
  split at h
  · cases h
  unfold drainUnderrun at h
  split at h
  · cases h
  · split at h <;> cases h <;> exact raise_faultsBy _ _ rfl

theorem raiseStatus_faults (s : State) : (raiseStatus s).faults = s.faults := by
  obtain ⟨st, events, he, -⟩ := raiseStatus_frame s
  rw [he]

theorem execSerDrain_faultsBy {s t : State} (h : execSerDrain s = .next t) : FaultsBy .serializer s t := by
  unfold execSerDrain at h
  split at h
  case isFalse => cases h
  cases h
  unfold serDrain
  split <;> rename_i u hu
  · exact drainFrame_error_faultsBy hu
  · exact .inl ((raiseStatus_faults u).trans (drainFrame_ok_faults hu))

/-! ### Every operation of a step -/

/-- An operation that an agent may take raises at most one fault, as that agent. -/
theorem exec_faultsBy {i : Instr} {a : Agent} (hi : ownAgent i = some a ∨ isFn i = true) {s t : State}
    (ht : exec i s = .next t) : FaultsBy a s t := by
  rcases hi with hi | hi
  · cases i with
    | gpioInit c k d o => cases hi; cases ht; exact gpioInit_faultsBy c k d o s
    | gpioSend c buf len => cases hi; cases ht; exact gpioSend_faultsBy c buf len s
    | gpioIsSending | fifoIsSending | legacyRaise => cases ht; split <;> exact .inl rfl
    | gpioNmi => cases hi; exact execGpioNmi_faultsBy ht
    | tmrExpire => cases hi; exact execTmrExpire_faultsBy ht
    | fifoInit c g o => cases hi; cases ht; exact fifoInit_faultsBy c g o s
    | fifoSend => cases hi; exact execFifoSend_faultsBy ht
    | serIrq => cases hi; exact execSerIrq_faultsBy ht
    | serDrain => cases hi; exact execSerDrain_faultsBy ht
    | fifoFill | ticksFor | pwmNibble | packByte | trailerLen | register => cases hi
  · rcases exec_fn hi s with ⟨r, hr⟩ | hr <;> rw [hr] at ht <;> cases ht <;> exact .inl rfl

/-- Settles O14, by the path of a step and by the faults of its operation. -/
theorem bookkeepingOnlyGrows : Obligations.BookkeepingOnlyGrows := by
  intro s t ht
  obtain ⟨e, rest, hs, -, rfl | ⟨i, -, hadm, hi⟩⟩ := step_cases ht
  · exact ⟨e, rest, hs, rfl, ⟨[], (List.append_nil _).symm⟩, fun _ => rfl, .inl rfl⟩
  · obtain ⟨schedule, hist, refused⟩ := (exec_path hi).historyGrows
    exact ⟨e, rest, hs, schedule, hist, refused,
      exec_faultsBy (s := { s with schedule := rest }) (own_of_admission_taken hadm) hi⟩

end Sys2Proof.Machine
end

section
/-! A pixel word as its four bytes (20_memory R61, R63, R67): the bytes of a read one by one, and the value they stand for as a
word. -/

namespace Sys2Proof.Machine

/-- The lowest byte of a little-endian value is the last of its word. -/
theorem ofNat_leValue_cons (n : Nat) (b : Byte) (bs : List Byte) :
    BitVec.ofNat (n + 8) (leValue (b :: bs)) = BitVec.ofNat n (leValue bs) ++ b := by
  have hb : b.toNat < 2 ^ 8 := b.isLt
  have hdiv : (b.toNat + 256 * leValue bs) / 2 ^ 8 = leValue bs := by omega
  apply BitVec.eq_of_toNat_eq
  rw [leValue, BitVec.toNat_append, BitVec.toNat_ofNat, BitVec.toNat_ofNat, ← Nat.shiftLeft_add_eq_or_of_lt hb,
    Nat.shiftLeft_eq, Nat.pow_add, Nat.mul_comm (2 ^ n), Nat.mod_mul, hdiv]
  omega

/-- Four bytes, the least significant first, as one word. -/
theorem ofNat_leValue_four (b₀ b₁ b₂ b₃ : Byte) :
    BitVec.ofNat 32 (leValue [b₀, b₁, b₂, b₃]) = b₃ ++ b₂ ++ b₁ ++ b₀ := by
  have top : BitVec.ofNat 8 (leValue [b₃]) = b₃ := BitVec.ofNat_toNat 8 b₃
  rw [ofNat_leValue_cons 24, ofNat_leValue_cons 16, ofNat_leValue_cons 8, top]

/-- The bytes of an admitted read are listed. -/
theorem readByte_of_readBytes {m : List Host.Cell} {a n : Nat} {bs : List Byte} (h : readBytes m a n = some bs) {k : Nat}
    (hk : k < n) : ∃ b, readByte m (a + k) = some b := by
  induction n generalizing a bs k with
  | zero => omega
  | succ n ih =>
    unfold readBytes at h
    split at h
    case h_2 => cases h
    rename_i b _ hb hrest
    cases k with
    | zero => exact ⟨b, hb⟩
    | succ k =>
      rw [Nat.add_comm k, ← Nat.add_assoc]
      exact ih hrest (by omega)

/-- A read inside the address space is admitted as its bytes are. -/
theorem pixelWord_of_fits {cfg : Config} (m : List Host.Cell) {buf i : Nat} (h : buf + 4 * i + 4 ≤ 2 ^ cfg.addrBits) :
    pixelWord cfg m buf i
      = (readBytes m (buf + 4 * i) 4).map fun bs => BitVec.ofNat 32 (leValue (orderBytes cfg.memEndian bs)) := by
  rw [pixelWord, memRead, pixelAddr, if_pos h, Option.map_map]
  rfl

/-- Past the address space no read is admitted. -/
theorem pixelWord_past_end {cfg : Config} (m : List Host.Cell) {buf i : Nat} (h : 2 ^ cfg.addrBits < buf + 4 * i + 4) :
    pixelWord cfg m buf i = none := by
  rw [pixelWord, memRead, pixelAddr, if_neg (by omega)]
  rfl

/-- Settles O5: inside the address space the word is the value of the bytes read, in either order, and a byte that is not listed
fails the read; past it every read fails. -/
theorem pixelWordIsItsFourBytes : Obligations.PixelWordIsItsFourBytes := by
  intro cfg m buf i
  constructor
  · intro b₀ b₁ b₂ b₃ hfits h₀ h₁ h₂ h₃
    have hbytes : readBytes m (buf + 4 * i) 4 = some [b₀, b₁, b₂, b₃] := by simp [readBytes, h₀, h₁, h₂, h₃]
    rw [pixelWord_of_fits m hfits, hbytes, Option.map_some]
    cases cfg.memEndian with
    | little => exact congrArg some (ofNat_leValue_four b₀ b₁ b₂ b₃)
    | big => exact congrArg some (ofNat_leValue_four b₃ b₂ b₁ b₀)
  · intro h
    by_cases hfits : buf + 4 * i + 4 ≤ 2 ^ cfg.addrBits
    · obtain ⟨k, hk, habsent⟩ := h.resolve_left (by omega)
      rw [pixelWord_of_fits m hfits, Option.map_eq_none_iff, Option.eq_none_iff_forall_ne_some]
      intro bs hbs
      obtain ⟨b, hb⟩ := readByte_of_readBytes hbs hk
      rw [habsent] at hb
      cases hb
    · exact pixelWord_past_end m (by omega)

end Sys2Proof.Machine
end

section
/-! What every step keeps of memory and the tables (20_memory R60, R67, 10_state R20): a step is a path of primitive updates, none of
which writes a parameter or memory, and each of which writes the context tables through `put`. -/

namespace Sys2Proof.Machine

/-- No primitive update writes a parameter. -/
@[simp] theorem Prim.apply_cfg (p : Prim) (s : State) : (p.apply s).cfg = s.cfg := by
  cases p with
  | registry e r => cases e <;> rfl
  | _ => rfl

/-- No primitive update writes memory. -/
@[simp] theorem Prim.apply_mem (p : Prim) (s : State) : (p.apply s).mem = s.mem := by
  cases p with
  | registry e r => cases e <;> rfl
  | _ => rfl

theorem Path.cfg_mem {P : Prim → Prop} {s t : State} (path : Path P s t) : t.cfg = s.cfg ∧ t.mem = s.mem :=
  path.induct (R := fun s t => t.cfg = s.cfg ∧ t.mem = s.mem) (fun _ => ⟨rfl, rfl⟩)
    fun p _ t _ ⟨hcfg, hmem⟩ => ⟨(p.apply_cfg t).trans hcfg, (p.apply_mem t).trans hmem⟩

/-- Settles O13: no primitive update of a step's path writes a parameter or memory. -/
theorem noStepWritesMemoryOrParameters : Obligations.NoStepWritesMemoryOrParameters := by
  intro s t ht
  obtain ⟨_, _, -, path⟩ := step_path ht
  obtain ⟨hcfg, hmem⟩ := path.cfg_mem
  exact ⟨hcfg, fun a => congrArg (readByte · a) hmem⟩

theorem Canonical.after_prim {s : State} (h : Canonical s) (p : Prim) : Canonical (p.apply s) := by
  obtain ⟨mem, gpio, fifo⟩ := h
  cases p with
  | gpioCtx c x => exact ⟨mem, canonical_put _ _ _ _ gpio, fifo⟩
  | line c l b => exact ⟨mem, canonical_put _ _ _ _ gpio, fifo⟩
  | fifoCtx c x => exact ⟨mem, gpio, canonical_put _ _ _ _ fifo⟩
  | registry e r => cases e <;> exact ⟨mem, gpio, fifo⟩
  | _ => exact ⟨mem, gpio, fifo⟩

/-- Settles O16: each primitive update of a step's path keeps the canonical form. -/
theorem stepKeepsCanonicalForm : Obligations.StepKeepsCanonicalForm := by
  intro s t hs ht
  obtain ⟨_, _, -, path⟩ := step_path ht
  exact path.induct (R := fun s t => Canonical s → Canonical t) (fun _ h => h)
    (fun p _ _ _ ih h => (ih h).after_prim p) hs

end Sys2Proof.Machine
end

section
/-! The reader that is stuck at a pixel read (20_memory R67): each reader is stuck where the read of its shared routine is, the NMI
handler's where `step_sending` is, the others' where the fill is (`fill_stuck`). -/

namespace Sys2Proof.Machine

/-- With its guard true and a transmission in `SENDING`, `gpio.nmi` is one `step_sending` after the request is taken (R172). -/
theorem execGpioNmi_sending {s : State} {c : Nat} (hpend : s.tmr.pend = true) (hhandler : s.tmr.handler = true)
    (hslot : slotZero s.regGpio = some c) (hs : (s.gpioCtx c).state = .sending) :
    execGpioNmi s = stepSending c (writeReg (.tmrPend false) s) := by
  simp [execGpioNmi, nmiGuard, gpioNmi, hpend, hhandler, hslot, hs]

/-- With an enabled engine condition, `ser.irq` is the engine step of the context in slot 0 after the acknowledge (R222). -/
theorem execSerIrq_fifoStep {s : State} {c : Nat} (hhandler : s.ser.handler = true)
    (hcond : s.serSt &&& s.serIe &&& 3#32 ≠ 0#32) (hslot : slotZero s.regFifo = some c) :
    execSerIrq s = fifoStep c (irqAcknowledge s) := by
  have hguard : irqGuard s = true := by
    rw [irqGuard, State.serIrqLine, hhandler, Bool.and_true, decide_eq_true_eq]
    exact fun h => hcond (by rw [h, BitVec.zero_and])
  have hown : (irqAcknowledge s).ownConditions s.serSt ≠ 0#32 := hcond
  have hslot' : slotZero (irqAcknowledge s).regFifo = some c := hslot
  rw [execSerIrq, if_pos hguard]
  simp only [serIrq, if_neg hown, hslot']

/-- The engine step of a transmission in `SENDING` is stuck where its fill is (R224). -/
theorem fifoStep_stuck {s : State} {c a : Nat} (hs : (s.fifoCtx c).state = .sending) (hfill : fill c s = .error a) :
    fifoStep c s = .fault (.readNotAdmitted a) := by
  simp only [fifoStep, hs, hfill]

/-- An idle context with a well-typed, accepted buffer runs the send (R204). -/
theorem execFifoSend_accepted {s : State} {c buf len : Nat} (htyped : sendTyped s.cfg buf len = true)
    (hc : (s.fifoCtx c).inited = true) (hidle : (s.fifoCtx c).state = .idle) (hlen : 0 < len)
    (hbuf : fifoBufferOk s.cfg buf len = true) : execFifoSend c buf len s = fifoAccepted c buf len s := by
  simp [execFifoSend, FifoCtx.isSending, htyped, hc, hidle, hbuf, show len ≠ 0 by omega]

/-- Past the race check, an accepted send is stuck where its fill is. -/
theorem fifoAccepted_stuck {s : State} {c buf len a : Nat} (hrace : s.stNeed = false)
    (hfill : fill c (writeReg (.serIeNeed true) (readStatus (fifoStart c buf len s))) = .error a) :
    fifoAccepted c buf len s = .fault (.readNotAdmitted a) := by
  have hrace' : (readStatus (fifoStart c buf len s)).stNeed = false := by rw [stNeed_eq] at hrace ⊢; exact hrace
  simp [fifoAccepted, hrace', hfill]

/-- The fill of an accepted send is stuck at the first word of the buffer's stream within the FIFO whose read is not admitted. -/
theorem fill_started_stuck {s : State} {c buf len j : Nat} (hbpp : 0 < s.cfg.bpp / 8)
    (hj : j < s.cfg.fifoDepth) (hw : ∀ i, i < j → streamWord s.cfg s.mem buf len i ≠ none)
    (hn : streamWord s.cfg s.mem buf len j = none) :
    fill c (writeReg (.serIeNeed true) (readStatus (fifoStart c buf len s)))
      = .error (buf + 4 * (j / (s.cfg.bpp / 8))) := by
  obtain ⟨u, hu⟩ : ∃ u, u = writeReg (.serIeNeed true) (readStatus (fifoStart c buf len s)) := ⟨_, rfl⟩
  have hcfg : u.cfg = s.cfg := by rw [hu]; rfl
  have hmem : u.mem = s.mem := by rw [hu]; rfl
  have hctx : u.fifoCtx c = fifoStarted s.cfg buf len (s.fifoCtx c) := by
    rw [hu, writeReg_fifoCtx, readStatus_fifoCtx, fifoStart_ctx]
  have hroom : u.room = s.cfg.fifoDepth := by rw [hu]; rfl
  have hposition : (u.fifoCtx c).position u.cfg = 0 := by simp [hctx, FifoCtx.position, fifoStarted]
  have hnext (i : Nat) : nextWord u c i = streamWord s.cfg s.mem buf len i := by
    rw [nextWord, hposition, hcfg, hmem, hctx, Nat.zero_add]
    rfl
  have hcursor : CursorOk u.cfg (u.fifoCtx c) := by
    rw [hcfg, hctx]
    exact ⟨Nat.zero_le _, hbpp, fun _ => rfl⟩
  have hstuck := fill_stuck hcursor (hroom ▸ hj) (fun i hi => hnext i ▸ hw i hi) ((hnext j).trans hn)
  rw [hposition, hcfg, hctx, Nat.zero_add] at hstuck
  exact hu ▸ hstuck

/-- Settles O41: the NMI handler by `step_sending`, the fill by itself, in `ser.irq` and in `fifo.send` by `fill_stuck`. -/
theorem unadmittedReadLeavesTheReaderStuck : Obligations.UnadmittedReadLeavesTheReaderStuck := by
  intro s c
  refine ⟨?nmi, ?fill, ?send⟩
  case nmi =>
    intro hpend hhandler hslot hs hread
    exact (execGpioNmi_sending hpend hhandler hslot hs).trans (stepSending_stuck (s := writeReg (.tmrPend false) s) hread)
  case fill =>
    intro j hj hpix hbyte hdone hw hn pixel
    have stuck : fill c s = .error ((s.fifoCtx c).buf + 4 * pixel) := fill_stuck ⟨hpix, hbyte, hdone⟩ hj hw hn
    have stuck_ack : fill c (irqAcknowledge s) = .error ((s.fifoCtx c).buf + 4 * pixel) :=
      fill_stuck (s := irqAcknowledge s) ⟨hpix, hbyte, hdone⟩ hj hw hn
    refine ⟨by simp only [exec, execFifoFill, stuck], fun hhandler hcond hslot hs => ?_⟩
    exact (execSerIrq_fifoStep hhandler hcond hslot).trans (fifoStep_stuck (s := irqAcknowledge s) hs stuck_ack)
  case send =>
    intro buf len j haddr hlen32 hadm hc hidle hlen halign hend hbytes hrace hj hw hn
    have hbpp := admissible_bpp hadm
    have hbuf : fifoBufferOk s.cfg buf len = true := fifoBufferOk_iff.mpr ⟨⟨halign, hend⟩, hbytes⟩
    exact (execFifoSend_accepted (sendTyped_of haddr hlen32) hc hidle hlen hbuf).trans
      (fifoAccepted_stuck hrace (fill_started_stuck (by omega) hj hw hn))

end Sys2Proof.Machine
end

section
/-! Records and operations (30_encoding R80, R81, R93, R94): a record decodes to an operation exactly when it is the encoder's record
of it and the operands have their types. The obligations on decoding follow. -/

namespace Sys2Proof

/-! ### The codes an operand slot holds (log 3) -/

@[simp] theorem bitOrderOf_eq_some {n : Nat} {o : Order} : bitOrderOf n = some o ↔ n = orderCode o := by
  cases o <;> grind [bitOrderOf, orderCode]

@[simp] theorem engineOf_eq_some {n : Nat} {r : Engine} : engineOf n = some r ↔ n = engineCode r := by
  cases r <;> grind [engineOf, engineCode]

@[simp] theorem maskOf_eq_some {n : Nat} {w : Word} : maskOf n = some w ↔ n = w.toNat := by
  have hw : w.toNat < 2 ^ 32 := w.isLt
  unfold maskOf
  split
  · rename_i hn
    rw [Option.some_inj, ← BitVec.toNat_inj, BitVec.toNat_ofNat, Nat.mod_eq_of_lt hn]
  · simp only [reduceCtorEq, false_iff]
    omega

/-- An operation is accepted when its slots name it, its unused slots are 0 and its operands have their types (R93). -/
theorem accept_eq_ok {op : Byte} {unused : List Nat} {x : Option Instr} {i : Instr} :
    accept op unused x = .ok i ↔ x = some i ∧ (∀ n ∈ unused, n = 0) ∧ i.wf = true := by
  cases x with
  | none => simp [accept]
  | some j =>
    simp only [accept, Option.some.injEq]
    split
    case isTrue h =>
      rw [Bool.and_eq_true, List.all_eq_true] at h
      simp only [Except.ok.injEq]
      exact ⟨fun e => ⟨e, by simpa using h.1, e ▸ h.2⟩, And.left⟩
    case isFalse h =>
      simp only [reduceCtorEq, false_iff]
      rintro ⟨rfl, hunused, hwf⟩
      exact h (by simpa [hwf] using hunused)

/-! ### What decodes -/

/-- The decoder's dispatch, arm by arm: the id is the operation's, and the slots hold its operands. -/
theorem decodeOp_sound {op : Byte} {a b c d : Nat} {i : Instr} (h : decodeOp op a b c d = .ok i) :
    op = opOf i ∧ operandSlots i = (a, b, c, d) ∧ i.wf = true := by
  unfold decodeOp at h
  split at h
  case h_18 => cases h
  all_goals
    rename_i hop
    obtain ⟨hi, hunused, hwf⟩ := accept_eq_ok.mp h
  case h_1 | h_6 | h_12 | h_17 =>
    obtain ⟨x, hx, rfl⟩ := Option.map_eq_some_iff.mp hi
    exact ⟨BitVec.eq_of_toNat_eq hop, by simp_all [operandSlots], hwf⟩
  all_goals
    obtain rfl := Option.some_inj.mp hi
    exact ⟨BitVec.eq_of_toNat_eq hop, by simp_all [operandSlots], hwf⟩

/-- An operation's id and slots select it. -/
theorem decodeOp_operandSlots {i : Instr} (h : i.wf = true) :
    decodeOp (opOf i) (operandSlots i).1 (operandSlots i).2.1 (operandSlots i).2.2.1 (operandSlots i).2.2.2 = .ok i := by
  cases i <;> simp [decodeOp, opOf, operandSlots, accept_eq_ok, h]

/-- The decoder reads the encoder's record back (R80). -/
theorem decode_encode {i : Instr} (h : i.wf = true) : decode (encode i) = .ok i := by
  obtain ⟨h₀, h₁, h₂, h₃⟩ := operandSlots_lt i h
  obtain ⟨hlen, e₀, e₁, e₂, e₃⟩ := slots_of_leBytes _ _ _ _ h₀ h₁ h₂ h₃
  rw [encode, decode, if_pos hlen, e₀, e₁, e₂, e₃, decodeOp_operandSlots h]

/-- What decodes is the encoder's record, with operands of their types (R93). -/
theorem encode_of_decode {bytes : List Byte} {i : Instr} (h : decode bytes = .ok i) : encode i = bytes ∧ i.wf = true := by
  unfold decode at h
  split at h
  · cases h
  · rename_i op operands
    split at h
    · rename_i hlen
      obtain ⟨rfl, hslots, hwf⟩ := decodeOp_sound h
      refine ⟨?_, hwf⟩
      rw [encode, hslots]
      exact congrArg (opOf i :: ·) (leBytes_of_slots operands hlen)
    · cases h

/-- Settles O2: the record's four slots read back as the operand values, and the dispatch selects the operation by its id. -/
theorem decodeOfEncodeIsTheOperation : Obligations.DecodeOfEncodeIsTheOperation :=
  fun _ => decode_encode

/-- Settles O3: the dispatch is sound, and four slots determine the 32 operand bytes. -/
theorem encodeOfDecodeIsTheRecord : Obligations.EncodeOfDecodeIsTheRecord :=
  fun _ _ => encode_of_decode

/-- Settles O1: each record is, byte for byte, the encoder's record of its operation. -/
theorem tableWordsDecodeToTheirOperations : Obligations.TableWordsDecodeToTheirOperations :=
  ⟨decode_encode (i := .gpioInit 7 4 5 .lsb) rfl, decode_encode (i := .gpioSend 1 0x1234 3) rfl,
    decode_encode (i := .gpioIsSending 9) rfl, decode_encode (i := .gpioNmi) rfl, decode_encode (i := .tmrExpire) rfl,
    decode_encode (i := .fifoInit 2 0x5678 .lsb) rfl, decode_encode (i := .fifoSend 1 0x2000 5) rfl,
    decode_encode (i := .fifoIsSending 3) rfl, decode_encode (i := .fifoFill 6) rfl, decode_encode (i := .serIrq) rfl,
    decode_encode (i := .serDrain) rfl, decode_encode (i := .legacyRaise 0x104#32) rfl,
    decode_encode (i := .ticksFor 1250 16) rfl, decode_encode (i := .pwmNibble 10) rfl,
    decode_encode (i := .packByte 0xA5) rfl, decode_encode (i := .trailerLen 256) rfl,
    decode_encode (i := .register .fifo 3) rfl⟩

/-! ### Which ids decode (R94) -/

theorem opOf_mem_tableIds (i : Instr) : opOf i ∈ tableIds := by
  cases i <;> simp [opOf, tableIds]

/-- Each id of the table decodes with operand bytes of zeros. -/
theorem decode_zeros_of_mem_tableIds {op : Byte} (h : op ∈ tableIds) :
    ∃ i, decode (op :: List.replicate 32 0#8) = .ok i := by
  have all : tableIds.all (fun op => (decode (op :: List.replicate 32 0#8)).isOk) = true := by decide
  have hop := List.all_eq_true.mp all op h
  cases hd : decode (op :: List.replicate 32 0#8) with
  | ok i => exact ⟨i, rfl⟩
  | error e => rw [hd] at hop; cases hop

/-- Some operands make an id decode exactly when it is one of the table's. -/
theorem exists_decode_iff_mem_tableIds {op : Byte} :
    (∃ operands i, decode (op :: operands) = .ok i) ↔ op ∈ tableIds := by
  constructor
  · rintro ⟨operands, i, h⟩
    obtain ⟨hrecord, -⟩ := encode_of_decode h
    obtain ⟨rfl, -⟩ := List.cons.inj hrecord
    exact opOf_mem_tableIds i
  · intro h
    exact ⟨_, decode_zeros_of_mem_tableIds h⟩

/-- The ids that are not in the table are the reserved ids. -/
theorem notMem_tableIds_iff {op : Byte} : op ∉ tableIds ↔
    op = 0x00#8 ∨ (0x06 ≤ op.toNat ∧ op.toNat ≤ 0x10) ∨ (0x18 ≤ op.toNat ∧ op.toNat ≤ 0x20) ∨ 0x26 ≤ op.toNat := by
  simp only [tableIds, List.cons_append, List.nil_append, List.mem_cons, List.not_mem_nil, ← BitVec.toNat_inj,
    BitVec.toNat_ofNat, or_false]
  omega

/-- Settles O4: an id that no operands make decode is one outside the table, and those are the reserved ids. -/
theorem exactlyTheReservedIdsAreInvalid : Obligations.ExactlyTheReservedIdsAreInvalid := by
  intro op
  rw [← notMem_tableIds_iff, ← exists_decode_iff_mem_tableIds]
  simp only [not_exists, ne_eq]

end Sys2Proof
end

section
/-! Steps that only refuse, and the step of a decoded entry (30_encoding R81, R93, 60_exceptions R271, R280). -/

namespace Sys2Proof.Machine

/-- Settles O6: the admission is the case `taken` of `step_of_decode`. -/
theorem stepRunsTheDecodedOperation : Obligations.StepRunsTheDecodedOperation := by
  intro s e rest i hs hh hp hd ha
  obtain ⟨taken, -, -⟩ := step_of_decode hs hh hp hd
  exact taken ha

/-- Settles O8: none of these operations is the host's own or a pure function. -/
theorem hostRecordOfAnotherAgentIsRefused : Obligations.HostRecordOfAnotherAgentIsRefused := by
  intro s e rest i hs hhost hh hp hd hi
  have hother : ¬(ownAgent i = some .host ∨ isFn i = true) := by
    rcases hi with rfl | rfl | rfl | rfl | ⟨b, rfl⟩ | ⟨c, rfl⟩ | ⟨r, c, rfl⟩ <;> simp [ownAgent, isFn]
  obtain ⟨-, unknown, -⟩ := step_of_decode hs (hhost ▸ hh) (hhost ▸ hp) hd
  exact unknown (hhost ▸ admission_host_unknown hother)

/-- Settles O9: past the two checks of the agent, `perform` refuses a record that does not decode. -/
theorem invalidRecordIsRefused : Obligations.InvalidRecordIsRefused := by
  intro s e rest err hs hh hp hd
  have hh' : State.halted { s with schedule := rest } e.agent = false := hh
  rw [step_of_schedule hs]
  simp [perform, hh', hp, hd, refuse]

/-! ### Operands outside their types (R93, R96, log 18) -/

section untyped
variable {s : State}

theorem exec_pwmNibble_untyped {v : Nat} (h : nibbleTyped v = false) :
    exec (.pwmNibble v) s = .next (refuse .unknownOperation s) := by
  simp [exec, execPwmNibble, h]

theorem exec_packByte_untyped {b : Nat} (h : byteTyped b = false) :
    exec (.packByte b) s = .next (refuse .unknownOperation s) := by
  simp [exec, execPackByte, h]

theorem exec_ticksFor_untyped {t d : Nat} (h : ticksTyped s.cfg t d = false) :
    exec (.ticksFor t d) s = .next (refuse .unknownOperation s) := by
  simp [exec, execTicksFor, h]

theorem exec_trailerLen_untyped {n : Nat} (h : nbytesTyped n = false) :
    exec (.trailerLen n) s = .next (refuse .unknownOperation s) := by
  simp [exec, execTrailerLen, h]

theorem exec_legacyRaise_untyped {bits : Word} (h : legacyTyped s.cfg bits = false) :
    exec (.legacyRaise bits) s = .next (refuse .unknownOperation s) := by
  simp [exec, execLegacyRaise, h]

theorem exec_gpioSend_untyped {c buf len : Nat} (h : sendTyped s.cfg buf len = false) :
    exec (.gpioSend c buf len) s = .next (refuse .unknownOperation s) := by
  simp [exec, execGpioSend, gpioSend, h]

theorem exec_fifoSend_untyped {c buf len : Nat} (h : sendTyped s.cfg buf len = false) :
    exec (.fifoSend c buf len) s = .next (refuse .unknownOperation s) := by
  simp [exec, execFifoSend, h]

end untyped

theorem ticksTyped_eq_false {cfg : Config} {t d : Nat} :
    ticksTyped cfg t d = false ↔ 2 ^ 32 ≤ t ∨ d = 0 ∨ cfg.clkHz % d ≠ 0 := by
  simp only [ticksTyped, Bool.and_eq_false_iff, decide_eq_false_iff_not, not_lt, not_le, Nat.lt_one_iff, beq_eq_false_iff_ne,
    or_assoc]

theorem nbytesTyped_eq_false {n : Nat} : nbytesTyped n = false ↔ n = 0 ∨ 2 ^ 32 ≤ n := by
  simp only [nbytesTyped, Bool.and_eq_false_iff, decide_eq_false_iff_not, not_lt, Nat.le_zero]

theorem legacyTyped_eq_false {cfg : Config} {bits : Word} :
    legacyTyped cfg bits = false ↔ bits = 0#32 ∨ bits &&& ~~~cfg.legacyMask ≠ 0#32 := by
  simp only [legacyTyped, Bool.and_eq_false_iff, decide_eq_false_iff_not, ne_eq, not_not]

theorem sendTyped_eq_false {cfg : Config} {buf len : Nat} :
    sendTyped cfg buf len = false ↔ 2 ^ cfg.addrBits ≤ buf ∨ 2 ^ 32 ≤ len := by
  simp only [sendTyped, Bool.and_eq_false_iff, decide_eq_false_iff_not, not_lt]

/-- Settles O34: each operation first checks the types of its operands, and these are the operands that fail the check. -/
theorem operandsOutsideTheirTypesAreRefused : Obligations.OperandsOutsideTheirTypesAreRefused := by
  intro s
  refine ⟨fun v hv => ?_, fun b hb => ?_, fun t d h => ?_, fun n h => ?_, fun b h => ?_, fun c buf len h => ⟨?_, ?_⟩⟩
  · exact exec_pwmNibble_untyped (decide_eq_false (Nat.not_lt.mpr hv))
  · exact exec_packByte_untyped (decide_eq_false (Nat.not_lt.mpr hb))
  · exact exec_ticksFor_untyped (ticksTyped_eq_false.mpr h)
  · exact exec_trailerLen_untyped (nbytesTyped_eq_false.mpr h)
  · exact exec_legacyRaise_untyped (legacyTyped_eq_false.mpr h)
  · exact exec_gpioSend_untyped (sendTyped_eq_false.mpr h)
  · exact exec_fifoSend_untyped (sendTyped_eq_false.mpr h)

end Sys2Proof.Machine
end

section
/-! The tick converter in both modes (40_tick_converter R110 to R115). -/

namespace Sys2Proof.Machine

/-! ### What `ticks_for` returns -/

theorem ticksTyped_of_admissible {cfg : Config} {t d : Nat} (ht : t < 2 ^ 32) (hd : 1 ≤ d) (hdvd : cfg.clkHz % d = 0) :
    ticksTyped cfg t d = true := by
  simp only [ticksTyped, ht, hd, hdvd, decide_true, beq_self_eq_true, Bool.and_self]

theorem exec_ticksFor_typed {s : State} {t d : Nat} (h : ticksTyped s.cfg t d = true) :
    exec (.ticksFor t d) s = .next { s with ret := .ticks (ticksFor s.cfg t d) } := by
  simp [exec, execTicksFor, h, returns]

@[simp] theorem ticksFor_zero (cfg : Config) (d : Nat) : ticksFor cfg 0 d = 0 := rfl

theorem ticksFor_of_exact {cfg : Config} (h : cfg.ticksMode = .exact) (t d : Nat) :
    ticksFor cfg t d = t * (cfg.clkHz / d) / 10 ^ 9 := by
  obtain rfl | ht := eq_or_ne t 0
  · simp
  · simp only [ticksFor, if_neg ht, h]

theorem perPart_zero (f : Nat) : perPart 0 f = 0 := by
  simp [perPart]

theorem ticksFor_of_perPart {cfg : Config} (h : cfg.ticksMode = .perPart) (t d : Nat) :
    ticksFor cfg t d = perPart t (cfg.clkHz / d) := by
  obtain rfl | ht := eq_or_ne t 0
  · rw [ticksFor_zero, perPart_zero]
  · simp only [ticksFor, if_neg ht, h]

/-! ### Exact mode (R111, R113, R114) -/

/-- Settles O55: the divisor divides `CLK_HZ`, so it may be divided out of the product before the floor. -/
theorem ticksForIsExact : Obligations.TicksForIsExact := by
  intro s t d ht hd hdvd hexact
  have hfloor : t * s.cfg.clkHz / (d * 10 ^ 9) = t * (s.cfg.clkHz / d) / 10 ^ 9 := by
    rw [← Nat.div_div_eq_div_mul, Nat.mul_div_assoc t (Nat.dvd_of_mod_eq_zero hdvd)]
  refine ⟨?_, hfloor⟩
  rw [exec_ticksFor_typed (ticksTyped_of_admissible ht hd hdvd), ticksFor_of_exact hexact, hfloor]

/-- Settles O56: the guard admits 0 ns, and `ticks_for` is 0 there before it looks at the mode. -/
theorem ticksForZeroIsZero : Obligations.TicksForZeroIsZero := by
  intro s d hd hdvd
  rw [exec_ticksFor_typed (ticksTyped_of_admissible (by decide) hd hdvd), ticksFor_zero]

/-- Settles O57: the floor of a product that grows with the duration. -/
theorem ticksForIsMonotone : Obligations.TicksForIsMonotone := by
  intro cfg t u d hexact htu
  rw [ticksFor_of_exact hexact, ticksFor_of_exact hexact]
  exact Nat.div_le_div_right (Nat.mul_le_mul_right _ htu)

/-! ### Per-part mode (R112, R115) -/

/-- The three parts of R112 lose nothing before their floors. -/
theorem coarse_add_chunks_add_residue (t f : Nat) :
    t / 1024 * f * 1024 + t % 1024 / 64 * f * 64 + t % 1024 % 64 * f = t * f := by
  calc t / 1024 * f * 1024 + t % 1024 / 64 * f * 64 + t % 1024 % 64 * f
      = (1024 * (t / 1024) + (64 * (t % 1024 / 64) + t % 1024 % 64)) * f := by ring
    _ = t * f := by rw [Nat.div_add_mod, Nat.div_add_mod]

/-- Each of the three floors drops less than one tick. -/
theorem three_floors_bounds (a b c : Nat) :
    a / 10 ^ 9 + b / 10 ^ 9 + c / 10 ^ 9 ≤ (a + b + c) / 10 ^ 9 ∧
      (a + b + c) / 10 ^ 9 ≤ a / 10 ^ 9 + b / 10 ^ 9 + c / 10 ^ 9 + 2 := by
  omega

/-- R115: the direct path is the direct value, and the decomposed path floors three parts of the same product. -/
theorem perPart_bounds (t f : Nat) : perPart t f ≤ t * f / 10 ^ 9 ∧ t * f / 10 ^ 9 ≤ perPart t f + 2 := by
  unfold perPart
  split
  case isTrue => exact ⟨le_rfl, Nat.le_add_right _ 2⟩
  case isFalse =>
    rw [← coarse_add_chunks_add_residue t f]
    exact three_floors_bounds _ _ _

/-- Settles O58: the returned value is `perPart` by definition, whose bounds are those of the three floors. -/
theorem perPartLosesAtMostTwoTicks : Obligations.PerPartLosesAtMostTwoTicks := by
  intro s t d ht hd hdvd hmode f n
  have hret : ticksFor s.cfg t d = n := ticksFor_of_perPart hmode t d
  refine ⟨?_, perPart_bounds t f⟩
  rw [exec_ticksFor_typed (ticksTyped_of_admissible ht hd hdvd), hret]

end Sys2Proof.Machine
end

section
/-! The PWM nibble table and byte packing (41_pwm_table R130 to R133, 30_encoding R84, R85). -/

namespace Sys2Proof.Machine

/-! ### What `pwm_nibble` and `pack_byte` return -/

theorem exec_pwmNibble_typed {s : State} {v : Nat} (h : nibbleTyped v = true) :
    exec (.pwmNibble v) s = .next { s with ret := .pattern (pwmNibble v) } := by
  simp [exec, execPwmNibble, h, returns]

theorem exec_packByte_typed {s : State} {b : Nat} (h : byteTyped b = true) :
    exec (.packByte b) s = .next { s with ret := .word (packByte b) } := by
  simp [exec, execPackByte, h, returns]

/-! ### The table (R131) -/

theorem map_pwmNibble_range :
    (List.range 16).map pwmNibble =
      [0x924#12, 0x926#12, 0x934#12, 0x936#12, 0x9A4#12, 0x9A6#12, 0x9B4#12, 0x9B6#12, 0xD24#12, 0xD26#12, 0xD34#12,
        0xD36#12, 0xDA4#12, 0xDA6#12, 0xDB4#12, 0xDB6#12] := by decide

/-- Settles O59: the table is `pwmNibble` of 0 to 15, so an index in the table is an operand in its type. -/
theorem pwmNibbleIsTheTable : Obligations.PwmNibbleIsTheTable := by
  intro s v p hp
  rw [← map_pwmNibble_range] at hp
  obtain ⟨hv, rfl⟩ := List.getElem?_eq_some_iff.mp hp
  rw [List.length_map, List.length_range] at hv
  rw [List.getElem_map, List.getElem_range, exec_pwmNibble_typed (decide_eq_true hv)]

/-! ### The bits of a slot, of a nibble's pattern and of a packed word -/

/-- `110` or `100`: bit 2 is set, bit 1 is the source bit, and all others are clear. -/
theorem getLsbD_slotPattern (b : Bool) (k : Nat) : (slotPattern b).getLsbD k = (decide (k = 2) || decide (k = 1) && b) := by
  obtain hk | hk := Nat.lt_or_ge k 12
  · revert k
    cases b <;> decide
  · simp [BitVec.getLsbD_of_ge _ _ hk, show k ≠ 2 by omega, show k ≠ 1 by omega]

/-- The pattern of nibble bit `j` stands alone in bits `[3j+2:3j]` (R130): at each of the twelve positions only one
of the four shifted slots can be set. -/
theorem getLsbD_pwmNibble (v : Nat) {j k : Nat} (hj : j < 4) (hk : k < 3) :
    (pwmNibble v).getLsbD (3 * j + k) = (slotPattern (v.testBit j)).getLsbD k := by
  simp only [pwmNibble, BitVec.getLsbD_or, BitVec.getLsbD_shiftLeft, getLsbD_slotPattern]
  interval_cases j <;> interval_cases k <;> simp

/-- The upper half of a packed word is the high nibble's pattern, the lower half the low nibble's (R133). -/
theorem getLsbD_packByte (b : Nat) {h k : Nat} (hh : h < 2) (hk : k < 16) :
    (packByte b).getLsbD (16 * h + k) = (pwmNibble (b / 2 ^ (4 * h) % 2 ^ 4)).getLsbD k := by
  simp only [packByte, BitVec.getLsbD_or, BitVec.getLsbD_shiftLeft, BitVec.getLsbD_setWidth]
  obtain rfl | rfl : h = 0 ∨ h = 1 := by omega
  · simp [hk, show k < 32 by omega]
  · have hlow : (pwmNibble (b % 16)).getLsbD (16 + k) = false := BitVec.getLsbD_of_ge _ _ (by omega)
    simp [hlow, show 16 + k < 32 by omega, show k < 32 by omega]

/-- Bit `j` of the byte has its slot at `3j` in the lower half and, above the four clear bits of that half, at `3j + 4` in
the upper one (R84, R85). -/
theorem getLsbD_packByte_slot (b : Nat) {j k : Nat} (hj : j < 8) (hk : k < 3) :
    (packByte b).getLsbD (3 * j + 4 * (j / 4) + k) = (slotPattern (b.testBit j)).getLsbD k := by
  have hpos : 3 * j + 4 * (j / 4) + k = 16 * (j / 4) + (3 * (j % 4) + k) := by omega
  have hbit : (b / 2 ^ (4 * (j / 4)) % 2 ^ 4).testBit (j % 4) = b.testBit j := by
    rw [Nat.testBit_mod_two_pow, Nat.testBit_div_two_pow, Nat.mod_add_div, decide_eq_true (Nat.mod_lt j (by decide)),
      Bool.true_and]
  rw [hpos, getLsbD_packByte b (by omega) (by omega), getLsbD_pwmNibble _ (by omega) hk, hbit]

/-- A nibble's pattern fills 12 of the 16 bits of its half. -/
theorem getLsbD_packByte_of_ge (b : Nat) {h k : Nat} (hh : h < 2) (hk : 12 ≤ k) (hk' : k < 16) :
    (packByte b).getLsbD (16 * h + k) = false := by
  rw [getLsbD_packByte b hh hk', BitVec.getLsbD_of_ge _ _ hk]

/-- The mask `0xF000F000` is the top four bits of each half. -/
theorem getLsbD_clearMask : ∀ i, i < 32 → (0xF000F000#32).getLsbD i = decide (12 ≤ i % 16) := by decide

theorem packByte_and_clearMask (b : Nat) : packByte b &&& 0xF000F000#32 = 0#32 := by
  apply BitVec.eq_of_getLsbD_eq
  intro i hi
  rw [BitVec.getLsbD_and, getLsbD_clearMask i hi, BitVec.getLsbD_zero]
  by_cases htop : 12 ≤ i % 16
  case pos =>
    have hclear := getLsbD_packByte_of_ge b (h := i / 16) (by omega) htop (Nat.mod_lt i (by decide))
    rw [Nat.div_add_mod] at hclear
    rw [hclear, Bool.false_and]
  case neg => rw [decide_eq_false htop, Bool.and_false]

/-- Settles O60: each slot of the packed word is `slotPattern` of its bit, whose three bits are known. -/
theorem packByteLaysOutEveryBit : Obligations.PackByteLaysOutEveryBit := by
  intro s b hb
  refine ⟨packByte b, exec_packByte_typed (decide_eq_true hb), fun j hj => ?_, packByte_and_clearMask b⟩
  have hslot (k : Nat) (hk : k < 3) :
      (packByte b).getLsbD (3 * j + 4 * (j / 4) + k) = (decide (k = 2) || decide (k = 1) && b.testBit j) := by
    rw [getLsbD_packByte_slot b hj hk, getLsbD_slotPattern]
  exact ⟨hslot 2 (by decide), hslot 1 (by decide), hslot 0 (by decide)⟩

end Sys2Proof.Machine
end

section
/-! The registries (42_registry R145 to R148): `register` by outcome, what a full registry makes of an init, and that no step empties a
slot. Only the inits and `register` write a registry, by the scan; every other operation leaves both. -/

namespace Sys2Proof.Machine

/-! ### `register` (R145 to R147) -/

theorem exec_register_slot {e : Engine} {c i : Nat} {s : State} {r : List (Option Nat)}
    (h : registerIn (s.registry e) c = some (i, r)) :
    exec (.register e c) s = .next (returns (.slot i) (s.setRegistry e r)) := by
  simp only [exec, execRegister, h]

theorem exec_register_full {e : Engine} (c : Nat) {s : State} (h : none ∉ s.registry e) :
    exec (.register e c) s = .next (returns .full s) := by
  simp only [exec, execRegister, registerIn_full c h]

/-- Settles O29, by the scan over the taken slots (`registerIn_first`). -/
theorem registerTakesTheFirstEmptySlot : Obligations.RegisterTakesTheFirstEmptySlot := by
  intro s c taken rest htaken
  have scan := registerIn_first taken rest c htaken
  exact ⟨fun hreg => exec_register_slot (e := .gpio) (hreg ▸ scan), fun hreg => exec_register_slot (e := .fifo) (hreg ▸ scan)⟩

/-! ### A full registry (R147) -/

section full
variable {s : State} {c : Nat}

theorem exec_gpioInit_full {k d : Nat} (o : Order) (hfull : none ∉ s.regGpio) (hc : (s.gpioCtx c).inited = false)
    (hadm : admissible s.cfg = true) (hkd : k ≠ d) :
    exec (.gpioInit c k d o) s = .next (returns (.status .noCapacity) s) := by
  simp [exec, execGpioInit, gpioInit, hc, hadm, hkd, registerIn_full c hfull]

theorem exec_fifoInit_full (g : Nat) (hfull : none ∉ s.regFifo) (hc : (s.fifoCtx c).inited = false)
    (hadm : admissible s.cfg = true) : exec (.fifoInit c g .msb) s = .next (returns (.status .noCapacity) s) := by
  simp [exec, execFifoInit, fifoInit, hc, hadm, registerIn_full c hfull]

theorem exec_gpioIsSending_uninitialised (hc : (s.gpioCtx c).inited = false) :
    exec (.gpioIsSending c) s = .next (refuse .uninitialisedContext s) := by
  simp [exec, execGpioIsSending, hc]

theorem exec_fifoIsSending_uninitialised (hc : (s.fifoCtx c).inited = false) :
    exec (.fifoIsSending c) s = .next (refuse .uninitialisedContext s) := by
  simp [exec, execFifoIsSending, hc]

theorem exec_gpioSend_uninitialised {buf len : Nat} (htyped : sendTyped s.cfg buf len = true)
    (hc : (s.gpioCtx c).inited = false) : exec (.gpioSend c buf len) s = .next (refuse .uninitialisedContext s) := by
  simp [exec, execGpioSend, gpioSend, htyped, hc]

theorem exec_fifoSend_uninitialised {buf len : Nat} (htyped : sendTyped s.cfg buf len = true)
    (hc : (s.fifoCtx c).inited = false) : exec (.fifoSend c buf len) s = .next (refuse .uninitialisedContext s) := by
  simp [exec, execFifoSend, htyped, hc]

end full

/-- Settles O28: a full registry ends the scan of `register` and of an init; the result an init returns leaves the context not
inited, so the operations after it are refused. -/
theorem fullRegistryGivesNoCapacity : Obligations.FullRegistryGivesNoCapacity := by
  intro s c k d g buf len o
  refine ⟨fun hfull => ⟨exec_register_full (e := .gpio) c hfull, fun hc hadm hkd => ?_⟩,
    fun hfull => ⟨exec_register_full (e := .fifo) c hfull, fun hc hadm => ?_⟩⟩
  · exact ⟨exec_gpioInit_full o hfull hc hadm hkd, exec_gpioIsSending_uninitialised hc,
      fun hbuf hlen => exec_gpioSend_uninitialised (sendTyped_of hbuf hlen) hc⟩
  · exact ⟨exec_fifoInit_full g hfull hc hadm, exec_fifoIsSending_uninitialised hc,
      fun hbuf hlen => exec_fifoSend_uninitialised (sendTyped_of hbuf hlen) hc⟩

/-! ### Slots that hold a context (R148) -/

/-- Each slot of `r` that holds a context holds it in `r'`. -/
def KeepsSlots (r r' : List (Option Nat)) : Prop := ∀ k c : Nat, r[k]? = some (some c) → r'[k]? = some (some c)

theorem KeepsSlots.of_eq {r r' : List (Option Nat)} (h : r' = r) : KeepsSlots r r' := fun _ _ hk => h ▸ hk

theorem KeepsSlots.trans {r r' r'' : List (Option Nat)} (h : KeepsSlots r r') (h' : KeepsSlots r' r'') : KeepsSlots r r'' :=
  fun k c hk => h' k c (h k c hk)

/-- The one slot that the scan writes was `EMPTY`. -/
theorem registerIn_keepsSlots {r r' : List (Option Nat)} {c i : Nat} (h : registerIn r c = some (i, r')) : KeepsSlots r r' := by
  obtain ⟨taken, rest, -, -, rfl, rfl⟩ := registerIn_some h
  intro k x hk
  rw [List.getElem?_append] at hk ⊢
  split at hk
  case isTrue => rwa [if_pos ‹_›]
  rw [if_neg ‹_›]
  cases hj : k - taken.length with
  | zero => rw [hj] at hk; cases hk
  | succ j => rwa [hj] at hk

/-! ### The GPIO engine's operations -/

theorem gpioInit_keepsSlots (c k d : Nat) (o : Order) (s : State) : KeepsSlots s.regGpio (gpioInit c k d o s).regGpio := by
  rcases gpioInit_cases c k d o s with ⟨r, he⟩ | he | ⟨-, -, slot, reg, hreg, ⟨-, he⟩ | ⟨-, he⟩ | ⟨-, he⟩⟩ <;> rw [he]
  · exact .of_eq rfl
  · exact .of_eq rfl
  · exact registerIn_keepsSlots hreg
  · exact registerIn_keepsSlots hreg
  · exact registerIn_keepsSlots hreg

theorem gpioSend_regGpio (c buf len : Nat) (s : State) : (gpioSend c buf len s).regGpio = s.regGpio := by
  rcases gpioSend_cases c buf len s with ⟨r, he⟩ | he | ⟨-, u, rfl, ⟨-, he⟩ | he⟩ <;> rw [he] <;> rfl

theorem stepSending_regGpio {c : Nat} {s t : State} (h : stepSending c s = .next t) : t.regGpio = s.regGpio := by
  cases hw : pixelWord s.cfg s.mem (s.gpioCtx c).buf (s.gpioCtx c).pix with
  | none => rw [stepSending_stuck hw] at h; cases h
  | some w =>
    obtain ⟨u, hu, upd⟩ := stepSending_spec hw
    rw [hu] at h
    cases h
    exact upd.regGpio

theorem stepFinish_regGpio (c : Nat) (s : State) : (stepFinish c s).regGpio = s.regGpio := by
  rcases ticks_cases s.cfg (resetTicks s.cfg) with ⟨h1, h2⟩ | hout
  · obtain ⟨u, upd, hu⟩ := stepFinish_spec (c := c) h1 h2
    exact hu ▸ upd.regGpio
  · obtain ⟨u, upd, hu⟩ := stepFinish_outOfRange (c := c) hout
    exact hu ▸ upd.regGpio

theorem execGpioNmi_regGpio {s t : State} (h : execGpioNmi s = .next t) : t.regGpio = s.regGpio := by
  unfold execGpioNmi at h
  split at h
  case isFalse => cases h
  unfold gpioNmi at h
  dsimp only at h
  split at h
  · cases h; rfl
  split at h
  · exact stepSending_regGpio (s := writeReg (.tmrPend false) s) h
  · cases h; exact stepFinish_regGpio _ (writeReg (.tmrPend false) s)
  · cases h; rfl
  · cases h; rfl

theorem stopOneShot_regGpio (s : State) : (stopOneShot s).regGpio = s.regGpio := by
  unfold stopOneShot
  split <;> rfl

theorem tmrExpire_regGpio (s : State) : (tmrExpire s).regGpio = s.regGpio := by
  unfold tmrExpire
  dsimp only
  split
  · split
    · rfl
    · exact stopOneShot_regGpio _
  · exact stopOneShot_regGpio _

theorem execTmrExpire_regGpio {s t : State} (h : execTmrExpire s = .next t) : t.regGpio = s.regGpio := by
  unfold execTmrExpire at h
  split at h
  case isFalse => cases h
  cases h
  exact tmrExpire_regGpio s

/-! ### The FIFO engine's operations -/

theorem fifoInit_keepsSlots (c g : Nat) (o : Order) (s : State) : KeepsSlots s.regFifo (fifoInit c g o s).regFifo := by
  rcases fifoInit_cases c g o s with ⟨r, he⟩ | he | ⟨-, -, slot, reg, hreg, ⟨-, he⟩ | ⟨-, he⟩ | ⟨-, he⟩⟩ <;> rw [he]
  · exact .of_eq rfl
  · exact .of_eq rfl
  · exact registerIn_keepsSlots hreg
  · exact registerIn_keepsSlots hreg
  · exact registerIn_keepsSlots hreg

theorem fifoAccepted_regFifo {c buf len : Nat} {s t : State} (h : fifoAccepted c buf len s = .next t) :
    t.regFifo = s.regFifo := by
  unfold fifoAccepted at h
  dsimp only at h
  split at h
  · cases h; rfl
  · split at h
    · cases h
    · rename_i u hu
      cases h
      exact (fill_frame hu).regFifo

theorem execFifoSend_regFifo {c buf len : Nat} {s t : State} (h : execFifoSend c buf len s = .next t) :
    t.regFifo = s.regFifo := by
  rcases execFifoSend_cases c buf len s with ⟨r, he⟩ | he | ⟨-, he⟩ <;> rw [he] at h
  · cases h; rfl
  · cases h; rfl
  · exact fifoAccepted_regFifo h

theorem fifoStep_regFifo {c : Nat} {s t : State} (h : fifoStep c s = .next t) : t.regFifo = s.regFifo := by
  unfold fifoStep at h
  split at h
  · split at h
    · cases h
    · cases h; exact (fill_frame ‹_›).regFifo
  all_goals cases h; rfl

theorem execSerIrq_regFifo {s t : State} (h : execSerIrq s = .next t) : t.regFifo = s.regFifo := by
  unfold execSerIrq at h
  split at h
  case isFalse => cases h
  unfold serIrq at h
  dsimp only at h
  split at h
  · cases h; rfl
  split at h
  · cases h; rfl
  · exact fifoStep_regFifo (s := irqAcknowledge s) h

theorem execSerDrain_regFifo {s t : State} (h : execSerDrain s = .next t) : t.regFifo = s.regFifo := by
  unfold execSerDrain at h
  split at h
  case isFalse => cases h
  cases h
  exact (serDrain_drained s).regFifo

/-! ### Every operation of a step -/

theorem exec_keepsSlots_gpio {i : Instr} {a : Agent} (hi : ownAgent i = some a ∨ isFn i = true) {s t : State}
    (ht : exec i s = .next t) : KeepsSlots s.regGpio t.regGpio := by
  cases i with
  | gpioInit c k d o => cases ht; exact gpioInit_keepsSlots c k d o s
  | gpioSend c buf len => cases ht; exact .of_eq (gpioSend_regGpio c buf len s)
  | gpioIsSending => cases ht; split <;> exact .of_eq rfl
  | gpioNmi => exact .of_eq (execGpioNmi_regGpio ht)
  | tmrExpire => exact .of_eq (execTmrExpire_regGpio ht)
  | fifoInit | fifoSend | fifoIsSending | fifoFill | serIrq | serDrain | legacyRaise =>
    obtain ⟨-, -, hreg, -⟩ := (exec_path_fifo rfl ht).fifo_sameGpioSide
    exact .of_eq hreg
  | ticksFor | pwmNibble | packByte | trailerLen =>
    obtain ⟨-, ⟨-, hreg, -⟩, -⟩ := exec_fn_sides rfl ht
    exact .of_eq hreg
  | register => simp [ownAgent, isFn] at hi

theorem exec_keepsSlots_fifo {i : Instr} {a : Agent} (hi : ownAgent i = some a ∨ isFn i = true) {s t : State}
    (ht : exec i s = .next t) : KeepsSlots s.regFifo t.regFifo := by
  cases i with
  | fifoInit c g o => cases ht; exact fifoInit_keepsSlots c g o s
  | fifoSend => exact .of_eq (execFifoSend_regFifo ht)
  | fifoIsSending | legacyRaise => cases ht; split <;> exact .of_eq rfl
  | serIrq => exact .of_eq (execSerIrq_regFifo ht)
  | serDrain => exact .of_eq (execSerDrain_regFifo ht)
  | gpioInit | gpioSend | gpioIsSending | gpioNmi | tmrExpire =>
    obtain ⟨-, -, hreg, -⟩ := (exec_path_gpio rfl ht).gpio_sameFifoSide
    exact .of_eq hreg
  | ticksFor | pwmNibble | packByte | trailerLen =>
    obtain ⟨-, -, -, hreg, -⟩ := exec_fn_sides rfl ht
    exact .of_eq hreg
  | fifoFill | register => simp [ownAgent, isFn] at hi

/-- Each slot that holds a context holds it after, in both registries. -/
def KeepsRegistries (s t : State) : Prop := KeepsSlots s.regGpio t.regGpio ∧ KeepsSlots s.regFifo t.regFifo

theorem KeepsRegistries.after_exec {i : Instr} {a : Agent} (hi : ownAgent i = some a ∨ isFn i = true) {s t u : State}
    (h : KeepsRegistries s t) (hu : exec i t = .next u) : KeepsRegistries s u :=
  ⟨h.1.trans (exec_keepsSlots_gpio hi hu), h.2.trans (exec_keepsSlots_fifo hi hu)⟩

/-- Settles O15: the operation of a step keeps the slots of both registries, an init by the scan. -/
theorem registrySlotsAreNeverEmptied : Obligations.RegistrySlotsAreNeverEmptied := by
  intro s t ht k c
  obtain ⟨gpio, fifo⟩ : KeepsRegistries s t :=
    step_keeps (I := KeepsRegistries s) (fun _ _ h => h) (fun _ _ h => h) (fun _ _ _ _ hi h hu => h.after_exec hi hu)
      s t ⟨.of_eq rfl, .of_eq rfl⟩ ht
  exact ⟨gpio k c, fifo k c⟩

end Sys2Proof.Machine
end

section
/-! The operations of the GPIO engine one by one (43_gpio_engine R164 to R178): what `gpio.init`, `gpio.send`, `gpio.nmi` and
`tmr.expire` do in each case, as equations and through `GpioUpdate`. -/

namespace Sys2Proof.Machine

/-! ### What a context update leaves -/

section update
variable {s t : State} {c : Nat} {x : GpioCtx} {ev : List Event}

theorem GpioUpdate.sameFifoSide (h : GpioUpdate s t c x ev) : SameFifoSide s t :=
  ⟨fifoCtx_congr h.fifo, h.regFifo, h.ser⟩

theorem GpioUpdate.sameWorld (h : GpioUpdate s t c x ev) : SameWorld s t :=
  ⟨h.cfg, fun a => by rw [h.mem], h.schedule⟩

theorem GpioUpdate.noFaultOrDraw (h : GpioUpdate s t c x ev) : NoFaultOrDraw s t :=
  ⟨h.faults, h.refused, h.draws⟩

end update

/-! ### Init of slot 0 (R164) -/

/-- The slot-0 setup after the draw: the registry written, the timer cleared but for its handler, one value drawn. -/
def State.gpioCleared (s : State) (reg : List (Option Nat)) : State := { s with
  regGpio := reg
  tmr := { load := 0, auto := false, en := false, ie := false, pend := false, handler := s.tmr.handler }
  draws := s.draws + 1
  hist := s.hist ++ [.regWrite (.tmrEn false), .regWrite (.tmrIe false), .regWrite (.tmrAuto false), .regWrite (.tmrLoad 0),
    .regWrite (.tmrPend false)] }

theorem gpioClearTimer_setRegistry (s : State) (reg : List (Option Nat)) :
    (gpioClearTimer (s.setRegistry .gpio reg)).countDraw = s.gpioCleared reg := by
  rw [gpioClearTimer_eq]
  rfl

section init
variable {s : State} {c k d : Nat} {rest : List (Option Nat)} (o : Order) (hc : (s.gpioCtx c).inited = false)
  (hadm : admissible s.cfg = true) (hkd : k ≠ d) (hslot : s.regGpio = none :: rest)
include hc hadm hkd hslot

/-- The platform attaches the handler, and the context is configured. -/
theorem exec_gpioInit_attached (h : Config.freeAttach s.draws = true) :
    exec (.gpioInit c k d o) s
      = .next (gpioConfigure c k d o (writeReg (.tmrHandler true) (s.gpioCleared (some c :: rest)))) := by
  have setup := gpioSetup_attached (s := s.setRegistry .gpio (some c :: rest)) h
  rw [gpioClearTimer_setRegistry] at setup
  simp [exec, execGpioInit, gpioInit, hc, hadm, hkd, hslot, registerIn, setup]

/-- The platform does not attach the handler: the host faults after the registers are cleared. -/
theorem exec_gpioInit_failed (h : Config.freeAttach s.draws = false) :
    exec (.gpioInit c k d o) s = .next (raise .host (.initHardwareFailure .gpio) (s.gpioCleared (some c :: rest))) := by
  have setup := gpioSetup_failed (s := s.setRegistry .gpio (some c :: rest)) h
  rw [gpioClearTimer_setRegistry] at setup
  simp [exec, execGpioInit, gpioInit, hc, hadm, hkd, hslot, registerIn, setup]

end init

/-- Settles O24, by the platform's attach result: the configured context stands over the cleared timer with its handler attached,
or the fault does over the cleared timer. -/
theorem gpioInitOfSlotZero : Obligations.GpioInitOfSlotZero := by
  intro s c k d o rest hc hadm hkd hslot
  cases hattach : Config.freeAttach s.draws with
  | true =>
    obtain ⟨u, hu, upd⟩ := gpioConfigure_spec c k d o (writeReg (.tmrHandler true) (s.gpioCleared (some c :: rest)))
    have run := exec_gpioInit_attached o hc hadm hkd hslot hattach
    rw [hu] at run
    exact ⟨_, run, upd.regGpio, upd.sameFifoSide, upd.sameWorld, upd.draws, upd.refused,
      fun _ => ⟨⟨upd.ctx, upd.others⟩, upd.tmr, rfl, upd.faults, by simpa [State.gpioCleared] using upd.hist⟩, nofun⟩
  | false =>
    exact ⟨_, exec_gpioInit_failed o hc hadm hkd hslot hattach, rfl, ⟨fun _ => rfl, rfl, rfl⟩, ⟨rfl, fun _ => rfl, rfl⟩, rfl,
      rfl, nofun, fun _ => ⟨fun _ => rfl, rfl, rfl, rfl, rfl⟩⟩

/-! ### An accepted send (R165, R166) -/

section send
variable {s : State} {c buf len : Nat} (htyped : sendTyped s.cfg buf len = true) (hc : (s.gpioCtx c).inited = true)
  (hidle : (s.gpioCtx c).state = .idle) (hlen : 0 < len) (hbuf : gpioBufferOk s.cfg buf len = true)
include htyped hc hidle hlen hbuf

/-- BIT_TICKS fits the timer: the context is written and the timer armed. -/
theorem exec_gpioSend_armed (h1 : 1 ≤ bitTicks s.cfg) (h2 : bitTicks s.cfg ≤ 2 ^ s.cfg.timerBits - 1) :
    exec (.gpioSend c buf len) s = .next { s.setGpio c (gpioStarted s.cfg buf len (s.gpioCtx c)) with
      tmr := { s.tmr with load := bitTicks s.cfg, auto := true, en := true, ie := true }
      hist := s.hist ++ [.regWrite (.tmrLoad (bitTicks s.cfg)), .regWrite (.tmrAuto true), .regWrite (.tmrEn true),
        .regWrite (.tmrIe true)]
      ret := .void } := by
  have load := loadTimer_fits .host (s.setGpio c (gpioStarted s.cfg buf len (s.gpioCtx c))) h1 h2
  simp [exec, execGpioSend, gpioSend, htyped, hc, hidle, hbuf, GpioCtx.isSending, show len ≠ 0 by omega, gpioArm, load,
    writeReg, tmrEffect, serEffect, returns]

/-- BIT_TICKS does not fit the timer: the context is written and the host faults. -/
theorem exec_gpioSend_outOfRange (h : bitTicks s.cfg = 0 ∨ 2 ^ s.cfg.timerBits ≤ bitTicks s.cfg) :
    exec (.gpioSend c buf len) s = .next (raise .host (.ticksOutOfRange (bitTicks s.cfg))
      (s.setGpio c (gpioStarted s.cfg buf len (s.gpioCtx c)))) := by
  have load := loadTimer_outOfRange .host (s.setGpio c (gpioStarted s.cfg buf len (s.gpioCtx c))) h
  simp [exec, execGpioSend, gpioSend, htyped, hc, hidle, hbuf, GpioCtx.isSending, show len ≠ 0 by omega, gpioArm, load]

end send

/-- Settles O35: the armed timer stands over the started context. -/
theorem gpioSendStartsATransmission : Obligations.GpioSendStartsATransmission := by
  intro s c buf len ticks haddr hlen32 hc hidle hlen halign hend h1 h2
  have upd := setGpio_update s c (gpioStarted s.cfg buf len (s.gpioCtx c))
  exact ⟨_, exec_gpioSend_armed (sendTyped_of haddr hlen32) hc hidle hlen (gpioBufferOk_iff.mpr ⟨halign, hend⟩) h1 h2,
    ⟨upd.ctx, upd.others⟩, rfl, rfl, rfl, rfl, upd.noFaultOrDraw, upd.sameFifoSide, upd.sameWorld⟩

/-- Settles O36: the fault is raised where only the started context has been written. -/
theorem gpioSendFaultsOnTicksOutOfRange : Obligations.GpioSendFaultsOnTicksOutOfRange := by
  intro s c buf len ticks haddr hlen32 hc hidle hlen halign hend hticks
  have upd := setGpio_update s c (gpioStarted s.cfg buf len (s.gpioCtx c))
  exact ⟨_, exec_gpioSend_outOfRange (sendTyped_of haddr hlen32) hc hidle hlen (gpioBufferOk_iff.mpr ⟨halign, hend⟩) hticks,
    ⟨upd.ctx, upd.others⟩, ⟨rfl, rfl, rfl⟩, rfl, rfl, rfl, rfl, upd.sameFifoSide, upd.sameWorld⟩

/-! ### `gpio.nmi` by the state of the context in slot 0 (R172) -/

section nmi
variable {s : State} {c : Nat} (hpend : s.tmr.pend = true) (hhandler : s.tmr.handler = true)
include hpend hhandler

theorem execGpioNmi_empty (hslot : slotZero s.regGpio = none) : execGpioNmi s = .next (writeReg (.tmrPend false) s) := by
  simp [execGpioNmi, nmiGuard, gpioNmi, hpend, hhandler, hslot]

variable (hslot : slotZero s.regGpio = some c)
include hslot

theorem execGpioNmi_finish (hs : (s.gpioCtx c).state = .finish) :
    execGpioNmi s = .next (stepFinish c (writeReg (.tmrPend false) s)) := by
  simp [execGpioNmi, nmiGuard, gpioNmi, hpend, hhandler, hslot, hs]

theorem execGpioNmi_stop (hs : (s.gpioCtx c).state = .reset ∨ (s.gpioCtx c).state = .idle) :
    execGpioNmi s = .next (stepReset c (writeReg (.tmrPend false) s)) := by
  rcases hs with hs | hs <;> simp [execGpioNmi, nmiGuard, gpioNmi, hpend, hhandler, hslot, hs]

end nmi

/-- The cursor after one bit, field by field (10_state R26, R174). -/
theorem gpioAdvance_eq (cfg : Config) (x : GpioCtx) : gpioAdvance cfg x = { x with
    pix := if x.mask = lastMask cfg x.order then x.pix + 1 else x.pix
    mask := if x.mask = lastMask cfg x.order then firstMask cfg x.order else nextMask x.order x.mask
    state := if (if x.mask = lastMask cfg x.order then x.pix + 1 else x.pix) = x.len then .finish else x.state } := by
  unfold gpioAdvance
  dsimp only
  by_cases hlast : x.mask = lastMask cfg x.order
  · simp only [if_pos hlast]
    split <;> rfl
  · simp only [if_neg hlast]
    split <;> rfl

/-- Settles O37: `step_sending` after the request is taken, with the cursor of `gpioAdvance_eq`. -/
theorem nmiSendsOneBit : Obligations.NmiSendsOneBit := by
  intro s c w hpend hhandler hslot hs hw x bit first last next pix
  obtain ⟨t, ht, upd⟩ := stepSending_spec (c := c) (s := writeReg (.tmrPend false) s) hw
  rw [gpioAdvance_eq] at upd
  refine ⟨t, (execGpioNmi_sending hpend hhandler hslot hs).trans ht, ⟨upd.ctx.trans ?_, upd.others⟩, upd.tmr, ?_, upd.ret,
    upd.regGpio, upd.noFaultOrDraw, upd.sameFifoSide, upd.sameWorld⟩
  · simp only [writeReg_gpioCtx, writeReg_cfg, hs]
    rfl
  · rw [upd.hist, writeReg_hist, List.append_assoc]
    rfl

/-- Settles O38: `step_finish` after the request is taken, by whether RESET_TICKS fits the timer. -/
theorem nmiFinishStep : Obligations.NmiFinishStep := by
  intro s c ticks hpend hhandler hslot hs
  have run := execGpioNmi_finish hpend hhandler hslot hs
  rcases ticks_cases s.cfg ticks with ⟨h1, h2⟩ | hout
  · obtain ⟨u, upd, hu⟩ := stepFinish_spec (c := c) (s := writeReg (.tmrPend false) s) h1 h2
    refine ⟨_, run.trans (congrArg _ hu), upd.ret, upd.regGpio, upd.sameFifoSide, upd.sameWorld, fun _ => ?_,
      fun hout => by omega⟩
    have others {c' : Nat} (hne : c' ≠ c) := (gpioCtx_setGpio_other (writeReg (.tmrLoad ticks) u)
      { s.gpioCtx c with clk := false, data := false, state := .reset } hne).trans (upd.others c' hne)
    refine ⟨⟨gpioCtx_setGpio_same _ c _, fun _ => others⟩, ?_, upd.noFaultOrDraw, ?_⟩
    · rw [setGpio_tmr, writeReg_tmr, upd.tmr]
      rfl
    · simp [upd.hist, ticks, resetTicks]
  · obtain ⟨u, upd, hu⟩ := stepFinish_outOfRange (c := c) (s := writeReg (.tmrPend false) s) hout
    refine ⟨_, run.trans (congrArg _ hu), upd.ret, upd.regGpio, upd.sameFifoSide, upd.sameWorld,
      fun hfits => by omega, fun _ => ⟨⟨upd.ctx, upd.others⟩, upd.tmr, ⟨?_, upd.refused, upd.draws⟩, ?_⟩⟩
    · rw [raise_faults, upd.faults]
      rfl
    · simpa using upd.hist

/-- What `step_reset` leaves (R175): the timer and its interrupt off, then the context in `IDLE`. -/
theorem stepReset_eq (c : Nat) (s : State) : stepReset c s = State.setGpio { s with
    tmr := { s.tmr with ie := false, en := false }
    hist := s.hist ++ [.regWrite (.tmrIe false), .regWrite (.tmrEn false)] } c { s.gpioCtx c with state := .idle } := by
  simp only [stepReset, writeReg_gpioCtx]
  simp only [writeReg, tmrEffect, serEffect, List.append_assoc, List.cons_append, List.nil_append]

/-- Settles O39: `step_reset` after the request is taken. -/
theorem nmiResetOrIdleStep : Obligations.NmiResetOrIdleStep := by
  intro s c hpend hhandler hslot hs
  have run := execGpioNmi_stop hpend hhandler hslot hs
  rw [stepReset_eq] at run
  exact ⟨_, run, ⟨gpioCtx_setGpio_same _ c _, fun _ hne => gpioCtx_setGpio_other _ _ hne⟩, rfl, List.append_assoc _ _ _, rfl,
    rfl, ⟨rfl, rfl, rfl⟩, ⟨fun _ => rfl, rfl, rfl⟩, rfl, fun _ => rfl, rfl⟩

/-- Settles O40: an empty slot 0 leaves the handler nothing to step. -/
theorem nmiSkipsAnEmptySlot : Obligations.NmiSkipsAnEmptySlot := fun s _ hpend hhandler hslot =>
  execGpioNmi_empty (s := s) hpend hhandler (by rw [hslot]; rfl)

/-! ### `tmr.expire` (R178) -/

/-- The timer runs on with auto-reload and stops without. -/
theorem stopOneShot_eq {s : State} (hen : s.tmr.en = true) : stopOneShot s = { s with
    tmr := { s.tmr with en := s.tmr.auto }
    hist := s.hist ++ if s.tmr.auto = true then [] else [.regWrite (.tmrEn false)] } := by
  cases hauto : s.tmr.auto with
  | true =>
    have htmr : { s.tmr with en := true } = s.tmr := congrArg (fun b => { s.tmr with en := b }) hen.symm
    rw [htmr]
    simp [stopOneShot, hauto]
  | false => simp [stopOneShot, hauto, writeReg, tmrEffect, serEffect]

section expire
variable {s : State}

theorem exec_tmrExpire (hen : s.tmr.en = true) (hhandler : s.tmr.handler = true) :
    exec .tmrExpire s = .next (tmrExpire s) := by
  simp [exec, execTmrExpire, expireGuard, hen, hhandler]

theorem tmrExpire_missed (hie : s.tmr.ie = true) (hpend : s.tmr.pend = true) :
    tmrExpire s = raise .timer (.bitDeadlineMissed s.tmr.load) (s.log (.expire s.tmr.load)) := by
  simp [tmrExpire, hie, hpend]

theorem tmrExpire_request (hie : s.tmr.ie = true) (hpend : s.tmr.pend = false) :
    tmrExpire s = stopOneShot (writeReg (.tmrPend true) (s.log (.expire s.tmr.load))) := by
  simp [tmrExpire, hie, hpend]

theorem tmrExpire_disabled (hie : s.tmr.ie = false) : tmrExpire s = stopOneShot (s.log (.expire s.tmr.load)) := by
  simp [tmrExpire, hie]

end expire

/-- Settles O42, by the interrupt enable and the pending request; the clauses of the other cases have a false premise. -/
theorem timerExpiry : Obligations.TimerExpiry := by
  intro s hen hhandler
  refine ⟨_, exec_tmrExpire hen hhandler, ?_⟩
  cases hie : s.tmr.ie with
  | false =>
    rw [tmrExpire_disabled hie, stopOneShot_eq (s := s.log (.expire s.tmr.load)) hen]
    refine ⟨⟨fun _ => rfl, rfl, rfl⟩, ⟨rfl, fun _ => rfl, rfl⟩, rfl, rfl, fun _ => rfl, nofun, nofun,
      fun _ => ⟨⟨rfl, rfl, rfl⟩, ?_, List.append_assoc _ _ _⟩⟩
    simp [hie]
  | true =>
    cases hpend : s.tmr.pend with
    | true =>
      rw [tmrExpire_missed hie hpend]
      exact ⟨⟨fun _ => rfl, rfl, rfl⟩, ⟨rfl, fun _ => rfl, rfl⟩, rfl, rfl, fun _ => rfl,
        fun _ _ => ⟨rfl, rfl, rfl, rfl, rfl⟩, nofun, nofun⟩
    | false =>
      rw [tmrExpire_request hie hpend, stopOneShot_eq (s := writeReg (.tmrPend true) (s.log (.expire s.tmr.load))) hen]
      refine ⟨⟨fun _ => rfl, rfl, rfl⟩, ⟨rfl, fun _ => rfl, rfl⟩, rfl, rfl, fun _ => rfl, nofun,
        fun _ _ => ⟨⟨rfl, rfl, rfl⟩, ?_, ?_⟩, nofun⟩
      · simp [tmrEffect, hie]
      · rw [writeReg_hist, log_hist, List.append_assoc, List.append_assoc]
        rfl

end Sys2Proof.Machine
end

section
/-! The tier 1 obligations of both engines (43_gpio_engine R167 to R172, R178, 44_fifo_engine R205, R221, R222, R230): sends that do
nothing, is_sending, and where the agents' steps exist. -/

namespace Sys2Proof.Machine

/-! ### Sends that do nothing, and is_sending -/

section queries
variable {s : State} {c buf len : Nat}

/-- A send on an inited context that is busy, or of length 0, only returns (R167, R168). -/
theorem exec_gpioSend_noop (htyped : sendTyped s.cfg buf len = true) (hc : (s.gpioCtx c).inited = true)
    (h : (s.gpioCtx c).state ≠ .idle ∨ len = 0) : exec (.gpioSend c buf len) s = .next (returns .void s) := by
  rcases h with h | rfl
  · simp [exec, execGpioSend, gpioSend, GpioCtx.isSending, htyped, hc, h]
  · simp [exec, execGpioSend, gpioSend, htyped, hc]

/-- The same of the other engine (R205). -/
theorem exec_fifoSend_noop (htyped : sendTyped s.cfg buf len = true) (hc : (s.fifoCtx c).inited = true)
    (h : (s.fifoCtx c).state ≠ .idle ∨ len = 0) : exec (.fifoSend c buf len) s = .next (returns .void s) := by
  rcases h with h | rfl
  · simp [exec, execFifoSend, FifoCtx.isSending, htyped, hc, h]
  · simp [exec, execFifoSend, htyped, hc]

theorem exec_gpioIsSending_inited (hc : (s.gpioCtx c).inited = true) :
    exec (.gpioIsSending c) s = .next (returns (.bool (s.gpioCtx c).isSending) s) := by
  simp [exec, execGpioIsSending, hc]

theorem exec_fifoIsSending_inited (hc : (s.fifoCtx c).inited = true) :
    exec (.fifoIsSending c) s = .next (returns (.bool (s.fifoCtx c).isSending) s) := by
  simp [exec, execFifoIsSending, hc]

end queries

/-- Settles O30, by `exec_gpioSend_noop` and `exec_fifoSend_noop`. -/
theorem busyOrEmptySendChangesNothing : Obligations.BusyOrEmptySendChangesNothing :=
  fun _ _ _ _ haddr hlen => ⟨exec_gpioSend_noop (sendTyped_of haddr hlen), exec_fifoSend_noop (sendTyped_of haddr hlen)⟩

/-- Settles O33, by whether the context is inited. -/
theorem isSendingAnswersNotIdle : Obligations.IsSendingAnswersNotIdle := by
  intro s c
  constructor
  · split
    · exact exec_gpioIsSending_inited ‹_›
    · exact exec_gpioIsSending_uninitialised (Bool.eq_false_of_not_eq_true ‹_›)
  · split
    · exact exec_fifoIsSending_inited ‹_›
    · exact exec_fifoIsSending_uninitialised (Bool.eq_false_of_not_eq_true ‹_›)

/-! ### Where the agents' steps exist (log 12) -/

/-- A guarded step without a stop of its own has a next state exactly where its guard holds. -/
theorem guarded_next_iff {b : Bool} {u : State} {r : Refusal} :
    (∃ t, (if b = true then .next u else .refused r : Host.Outcome State Fault Refusal) = .next t) ↔ b = true := by
  cases b <;> simp

/-- A guarded step that itself is never refused is refused exactly where its guard does not hold. -/
theorem guarded_refused_iff {b : Bool} {o : Host.Outcome State Fault Refusal} {r : Refusal} (ho : o ≠ .refused r) :
    (if b = true then o else .refused r) = .refused r ↔ ¬b = true := by
  cases b <;> simp [ho]

theorem stepSending_ne_refused (c : Nat) (s : State) (r : Refusal) : stepSending c s ≠ .refused r := by
  cases hw : pixelWord s.cfg s.mem (s.gpioCtx c).buf (s.gpioCtx c).pix with
  | none => rw [stepSending_stuck hw]; nofun
  | some w =>
    obtain ⟨t, ht, -⟩ := stepSending_spec hw
    rw [ht]
    nofun

theorem gpioNmi_ne_refused (s : State) (r : Refusal) : gpioNmi s ≠ .refused r := by
  unfold gpioNmi
  dsimp only
  split
  · nofun
  · split
    · exact stepSending_ne_refused _ _ r
    all_goals nofun

theorem fifoStep_ne_refused (c : Nat) (s : State) (r : Refusal) : fifoStep c s ≠ .refused r := by
  unfold fifoStep
  split
  · split <;> nofun
  all_goals nofun

theorem serIrq_ne_refused (s : State) (r : Refusal) : serIrq s ≠ .refused r := by
  unfold serIrq
  dsimp only
  split
  · nofun
  · split
    · nofun
    · exact fifoStep_ne_refused _ _ r

/-- Settles O12: each of the four steps is its routine under its guard, and no routine is refused. -/
theorem agentStepsExistExactlyWhereTheirGuardsHold : Obligations.AgentStepsExistExactlyWhereTheirGuardsHold := by
  intro s
  refine ⟨guarded_next_iff.trans ?_, guarded_next_iff.trans ?_, (guarded_refused_iff (gpioNmi_ne_refused s _)).trans ?_,
    (guarded_refused_iff (serIrq_ne_refused s _)).trans ?_⟩
  · simp [expireGuard]
  · simp [drainGuard]
  · simp [nmiGuard]
  · simp [irqGuard, State.serIrqLine]

end Sys2Proof.Machine
end

section
/-! A GPIO transmission from the accepted send to `IDLE` (43_gpio_engine R177, R180, 20_memory R64). After `k` bit periods the context
stands at bit `k` of the buffer (`GpioCtx.atBit`) and HIST has the first `k` bits (`Progress`): one period keeps this, by induction
the periods up to the last bit do, and the `FINISH` and `RESET` periods follow. -/

namespace Sys2Proof.Machine

/-! ### The context at bit `k` of the buffer -/

/-- The context `x` with its cursor at bit `k` of the buffer, counted from the first bit of pixel 0; past the last bit it is in
`FINISH` (10_state R26, R174). -/
def GpioCtx.atBit (cfg : Config) (x : GpioCtx) (k : Nat) : GpioCtx := { x with
  pix := k / cfg.bpp
  mask := maskAt cfg x.order (k % cfg.bpp)
  state := if k < x.len * cfg.bpp then .sending else .finish }

theorem GpioCtx.atBit_sending {cfg : Config} {x : GpioCtx} {k : Nat} (hk : k < x.len * cfg.bpp) :
    (x.atBit cfg k).state = .sending := if_pos hk

theorem GpioCtx.atBit_finish {cfg : Config} {x : GpioCtx} : (x.atBit cfg (x.len * cfg.bpp)).state = .finish :=
  if_neg (Nat.lt_irrefl _)

/-- An accepted send leaves the cursor at bit 0. -/
theorem gpioStarted_eq_atBit {cfg : Config} {len : Nat} (hbpp : 0 < cfg.bpp) (hlen : 0 < len) (buf : Nat) (x : GpioCtx) :
    gpioStarted cfg buf len x = GpioCtx.atBit cfg { x with buf := buf, len := len } 0 := by
  simp [gpioStarted, GpioCtx.atBit, firstMask_eq, hbpp, hlen]

/-- The cursor moves bit by bit, within a pixel or to the next one (`gpioAdvance_inside`, `gpioAdvance_last`). -/
theorem gpioAdvance_atBit {cfg : Config} (hbpp : 1 ≤ cfg.bpp ∧ cfg.bpp ≤ 32) {x : GpioCtx} {k : Nat} (hk : k < x.len * cfg.bpp) :
    gpioAdvance cfg (x.atBit cfg k) = x.atBit cfg (k + 1) := by
  have hpix : k / cfg.bpp < x.len := Nat.div_lt_of_lt_mul (by rwa [Nat.mul_comm])
  have hdecomp := Nat.div_add_mod' k cfg.bpp
  have hmod := Nat.mod_lt k hbpp.1
  by_cases hlast : k % cfg.bpp + 1 = cfg.bpp
  · have hnext : k + 1 = (k / cfg.bpp + 1) * cfg.bpp := by rw [Nat.add_one_mul]; omega
    have hdone : k / cfg.bpp + 1 = x.len ↔ ¬k + 1 < x.len * cfg.bpp := by
      rw [hnext, Nat.mul_lt_mul_right hbpp.1]
      omega
    rw [gpioAdvance_last hbpp hlast rfl]
    simp only [GpioCtx.atBit, hdone, if_pos hk, ite_not]
    rw [hnext, Nat.mul_div_cancel _ hbpp.1, Nat.mul_mod_left]
  · have hinside : k % cfg.bpp + 1 < cfg.bpp := by omega
    have hnext : k + 1 = (k % cfg.bpp + 1) + cfg.bpp * (k / cfg.bpp) := by rw [Nat.mul_comm]; omega
    have hdiv : (k + 1) / cfg.bpp = k / cfg.bpp := by
      rw [hnext, Nat.add_mul_div_left _ _ hbpp.1, Nat.div_eq_of_lt hinside, Nat.zero_add]
    have hmod' : (k + 1) % cfg.bpp = k % cfg.bpp + 1 := by
      rw [hnext, Nat.add_mul_mod_self_left, Nat.mod_eq_of_lt hinside]
    have hmore : k + 1 < x.len * cfg.bpp := (Nat.div_lt_iff_lt_mul hbpp.1).mp (hdiv ▸ hpix)
    rw [gpioAdvance_inside hbpp hinside rfl (Nat.ne_of_lt hpix)]
    simp only [GpioCtx.atBit, hdiv, hmod', if_pos hk, if_pos hmore]

/-! ### The state after `k` bit periods -/

/-- What `k` bits leave of the state `t`, whose context `c` is `x` but for lines and cursor: the cursor at bit `k`, the timer armed,
and in HIST the first `k` of the bits, three line writes and one buffer read a bit. -/
structure Progress (c : Nat) (x : GpioCtx) (bits : List Bool) (t : State) (k : Nat) (u : State) : Prop where
  cfg : u.cfg = t.cfg
  mem : u.mem = t.mem
  ready : Ready c u
  ctx : ∃ clk data, u.gpioCtx c = GpioCtx.atBit t.cfg { x with clk := clk, data := data } k
  hist : ∃ events, u.hist = t.hist ++ events ∧ sentBits c events = bits.take k ∧
    events.countP isLineWrite = 3 * k ∧ events.countP isMemRead = k

/-- The armed timer stays armed over an update of the context. -/
theorem Ready.update {s t : State} {c : Nat} {x : GpioCtx} {ev : List Event} (h : Ready c s)
    (upd : GpioUpdate (requested s) t c x ev) : Ready c t := by
  have htmr : t.tmr = s.tmr := upd.tmr
  have hreg : t.regGpio = s.regGpio := upd.regGpio
  constructor <;> simp only [htmr, hreg]
  exacts [h.slot, h.en, h.ie, h.auto, h.handler, h.pend]

section period
variable {c : Nat} {x : GpioCtx} {bits : List Bool} {t u : State} {k : Nat}

/-- A bit period in `SENDING` is one `step_sending` (R174). -/
theorem Ready.send (h : Ready c u) {w : Word} (hs : (u.gpioCtx c).state = .sending)
    (hw : pixelWord u.cfg u.mem (u.gpioCtx c).buf (u.gpioCtx c).pix = some w) :
    ∃ v, bitPeriod u = .next v ∧ GpioUpdate (requested u) v c
      (gpioAdvance u.cfg { u.gpioCtx c with clk := true, data := maskedBit w (u.gpioCtx c).mask })
      [.memRead (pixelAddr (u.gpioCtx c).buf (u.gpioCtx c).pix) w, .gpioWrite c .clk false,
        .gpioWrite c .data (maskedBit w (u.gpioCtx c).mask), .gpioWrite c .clk true] := by
  rw [bitPeriod_eq h, hs]
  exact stepSending_spec (s := requested u) hw

/-- The mask at bit `k` selects that bit of its pixel (30_encoding R89). -/
theorem maskedBit_maskAt {cfg : Config} (hbpp : 1 ≤ cfg.bpp ∧ cfg.bpp ≤ 32) (w : Word) (o : Order) (k : Nat) :
    maskedBit w (maskAt cfg o (k % cfg.bpp)) = w.getLsbD (bitIdx cfg o (k % cfg.bpp)) := by
  have hmod := Nat.mod_lt k hbpp.1
  exact maskedBit_oneHot w (by cases o <;> simp only [bitIdx] <;> omega)

/-- One bit period sends the next bit. -/
theorem Progress.next (hbpp : 1 ≤ t.cfg.bpp ∧ t.cfg.bpp ≤ 32)
    (hbits : bufferBits t.cfg t.mem x.order x.buf 0 x.len = some bits) (hk : k < x.len * t.cfg.bpp)
    (h : Progress c x bits t k u) : ∃ v, bitPeriod u = .next v ∧ Progress c x bits t (k + 1) v := by
  obtain ⟨hcfg, hmem, ready, ⟨clk, data, hctx⟩, events, hhist, hsent, hwrites, hreads⟩ := h
  obtain ⟨-, hget⟩ := bufferBits_get t.cfg t.mem x.order x.buf hbpp.1 x.len 0 bits hbits
  obtain ⟨w, hw, hbit⟩ := hget k hk
  rw [Nat.zero_add] at hw
  have hs : (u.gpioCtx c).state = .sending := by rw [hctx]; exact GpioCtx.atBit_sending hk
  obtain ⟨v, hv, upd⟩ := ready.send hs (by rw [hcfg, hmem, hctx]; exact hw)
  refine ⟨v, hv, upd.cfg.trans hcfg, upd.mem.trans hmem, ready.update upd, ⟨true, maskedBit w (u.gpioCtx c).mask, ?_⟩, ?_⟩
  · rw [upd.ctx, hcfg, hctx]
    exact gpioAdvance_atBit hbpp (x := { x with clk := true, data := _ }) hk
  · have hmask : maskedBit w (u.gpioCtx c).mask = w.getLsbD (bitIdx t.cfg x.order (k % t.cfg.bpp)) := by
      rw [hctx]
      exact maskedBit_maskAt hbpp w x.order k
    refine ⟨events ++ _, by rw [upd.hist, requested, hhist, List.append_assoc, List.append_assoc], ?_, ?_, ?_⟩
    · rw [sentBits_append c _ _ (by simp), hsent, List.take_add_one, hbit, hmask]
      simp [sentBits]
    · simp [List.countP_append, List.countP_cons, isLineWrite, hwrites, Nat.mul_add_one]
    · simp [List.countP_append, List.countP_cons, isMemRead, hreads]

/-- `k` bit periods send the first `k` bits. -/
theorem Progress.bitPeriods (hbpp : 1 ≤ t.cfg.bpp ∧ t.cfg.bpp ≤ 32)
    (hbits : bufferBits t.cfg t.mem x.order x.buf 0 x.len = some bits) (h0 : Progress c x bits t 0 t) :
    ∀ k, k ≤ x.len * t.cfg.bpp → ∃ u, Machine.bitPeriods k t = .next u ∧ Progress c x bits t k u
  | 0, _ => ⟨t, rfl, h0⟩
  | k + 1, hk => by
    obtain ⟨u, hu, hprogress⟩ := Progress.bitPeriods hbpp hbits h0 k (by omega)
    obtain ⟨v, hv, hprogress'⟩ := hprogress.next hbpp hbits (by omega)
    exact ⟨v, by rw [bitPeriods_succ, hu]; exact hv, hprogress'⟩

theorem Progress.sending (h : Progress c x bits t k u) (hk : k < x.len * t.cfg.bpp) : (u.gpioCtx c).state = .sending := by
  obtain ⟨clk, data, hctx⟩ := h.ctx
  rw [hctx]
  exact GpioCtx.atBit_sending hk

theorem Progress.finish (h : Progress c x bits t (x.len * t.cfg.bpp) u) : (u.gpioCtx c).state = .finish := by
  obtain ⟨clk, data, hctx⟩ := h.ctx
  rw [hctx]
  exact GpioCtx.atBit_finish

/-- The bit period in `FINISH` where RESET_TICKS fits the timer (R173). -/
theorem Ready.finish (h : Ready c u) (hs : (u.gpioCtx c).state = .finish) (h1 : 1 ≤ resetTicks u.cfg)
    (h2 : resetTicks u.cfg ≤ 2 ^ u.cfg.timerBits - 1) :
    ∃ v, bitPeriod u = .next v ∧ Ready c v ∧ v.gpioCtx c = { u.gpioCtx c with clk := false, data := false, state := .reset } ∧
      v.hist = u.hist ++ [.expire u.tmr.load, .regWrite (.tmrPend true), .regWrite (.tmrPend false), .gpioWrite c .clk false,
        .gpioWrite c .data false, .regWrite (.tmrLoad (resetTicks u.cfg))] := by
  obtain ⟨v, upd, hv⟩ := stepFinish_spec (c := c) (s := requested u) h1 h2
  have ready := h.update upd
  have run : bitPeriod u = .next (stepFinish c (requested u)) := by rw [bitPeriod_eq h, hs]
  refine ⟨_, run.trans (congrArg _ hv), ⟨ready.slot, ready.en, ready.ie, ready.auto, ready.handler, ready.pend⟩,
    gpioCtx_setGpio_same _ c _, ?_⟩
  rw [setGpio_hist, writeReg_hist, upd.hist, requested]
  simp only [List.append_assoc, List.cons_append, List.nil_append]

/-- The bit period in `RESET` (R175). -/
theorem Ready.reset (h : Ready c u) (hs : (u.gpioCtx c).state = .reset) :
    ∃ v, bitPeriod u = .next v ∧ v.gpioCtx c = { u.gpioCtx c with state := .idle } ∧
      v.tmr = { u.tmr with ie := false, en := false } ∧
      v.hist = u.hist ++ [.expire u.tmr.load, .regWrite (.tmrPend true), .regWrite (.tmrPend false), .regWrite (.tmrIe false),
        .regWrite (.tmrEn false)] := by
  have run : bitPeriod u = .next (stepReset c (requested u)) := by rw [bitPeriod_eq h, hs]
  rw [stepReset_eq] at run
  refine ⟨_, run, gpioCtx_setGpio_same _ c _, rfl, ?_⟩
  simp only [setGpio_hist, requested, List.append_assoc, List.cons_append, List.nil_append]

/-- The transmission is over: `IDLE` with both lines low and the timer stopped, and HIST has gained all `n` bits since `t`, with
two line writes more for the lines dropped in `FINISH` (R177). -/
structure Finished (c : Nat) (bits : List Bool) (n : Nat) (t u : State) : Prop where
  state : (u.gpioCtx c).state = .idle
  clk : (u.gpioCtx c).clk = false
  data : (u.gpioCtx c).data = false
  en : u.tmr.en = false
  ie : u.tmr.ie = false
  pend : u.tmr.pend = false
  hist : ∃ events, u.hist = t.hist ++ events ∧ sentBits c events = bits ∧ events.countP isLineWrite = 3 * n + 2 ∧
    events.countP isMemRead = n

/-- After the last bit, one period drops the lines and the next ends the transmission. -/
theorem Progress.finished {n : Nat} (hbits : bits.length = n) (h1 : 1 ≤ resetTicks t.cfg)
    (h2 : resetTicks t.cfg ≤ 2 ^ t.cfg.timerBits - 1) (h : Progress c x bits t n u) (hs : (u.gpioCtx c).state = .finish) :
    ∃ v w, bitPeriod u = .next v ∧ (v.gpioCtx c).state = .reset ∧ bitPeriod v = .next w ∧ Finished c bits n t w := by
  obtain ⟨events, hhist, hsent, hwrites, hreads⟩ := h.hist
  rw [← h.cfg] at h1 h2
  obtain ⟨v, hv, ready, hctx, hhist'⟩ := h.ready.finish hs h1 h2
  have hs' : (v.gpioCtx c).state = .reset := by rw [hctx]
  obtain ⟨w, hw, hctx', htmr, hhist''⟩ := ready.reset hs'
  rw [hctx] at hctx'
  refine ⟨v, w, hv, hs', hw, by rw [hctx'], by rw [hctx'], by rw [hctx'], by rw [htmr], by rw [htmr],
    by rw [htmr]; exact ready.pend, events ++ _, by rw [hhist'', hhist', hhist, List.append_assoc, List.append_assoc],
    ?_, ?_, ?_⟩
  · rw [sentBits_append c _ _ (by simp), hsent, List.take_of_length_le (by omega)]
    simp [sentBits]
  · simp [List.countP_append, List.countP_cons, isLineWrite, hwrites]
  · simp [List.countP_append, isMemRead, hreads]

end period

/-- An accepted send is the start of a transmission: no bit is sent yet. -/
theorem exec_gpioSend_progress {s : State} {c buf len : Nat} (bits : List Bool) (htyped : sendTyped s.cfg buf len = true)
    (hc : (s.gpioCtx c).inited = true) (hidle : (s.gpioCtx c).state = .idle) (hlen : 0 < len)
    (hbuf : gpioBufferOk s.cfg buf len = true) (h1 : 1 ≤ bitTicks s.cfg) (h2 : bitTicks s.cfg ≤ 2 ^ s.cfg.timerBits - 1)
    (hbpp : 0 < s.cfg.bpp) (hslot : slotZero s.regGpio = some c) (hhandler : s.tmr.handler = true)
    (hpend : s.tmr.pend = false) :
    ∃ t, exec (.gpioSend c buf len) s = .next t ∧ t.cfg = s.cfg ∧ t.mem = s.mem ∧
      Progress c { s.gpioCtx c with buf := buf, len := len } bits t 0 t := by
  refine ⟨_, exec_gpioSend_armed htyped hc hidle hlen hbuf h1 h2, rfl, rfl, rfl, rfl,
    ⟨hslot, rfl, rfl, rfl, hhandler, hpend⟩, ⟨(s.gpioCtx c).clk, (s.gpioCtx c).data, ?_⟩,
    [], (List.append_nil _).symm, rfl, rfl, rfl⟩
  exact (gpioCtx_setGpio_same s c _).trans (gpioStarted_eq_atBit hbpp hlen buf _)

/-- Settles O43: by `Progress.bitPeriods` up to `FINISH`, and by `Progress.finished` the two periods after it. -/
theorem gpioTransmissionStepCount : Obligations.GpioTransmissionStepCount := by
  intro s c buf len bits ticks rticks haddr hlen32 hlen hadm hslot hhandler hpend hc hidle halign hend h1 h2 h3 h4 hbits
  have hbpp : 1 ≤ s.cfg.bpp ∧ s.cfg.bpp ≤ 32 := by have := admissible_bpp hadm; omega
  obtain ⟨t, run, hcfg, hmem, start⟩ := exec_gpioSend_progress bits (sendTyped_of haddr hlen32) hc hidle hlen
    (gpioBufferOk_iff.mpr ⟨halign, hend⟩) h1 h2 hbpp.1 hslot hhandler hpend
  have hfits : 1 ≤ resetTicks t.cfg ∧ resetTicks t.cfg ≤ 2 ^ t.cfg.timerBits - 1 := by rw [hcfg]; exact ⟨h3, h4⟩
  rw [← hcfg] at hbpp hbits
  rw [← hmem] at hbits
  obtain ⟨hlength, -⟩ := bufferBits_get _ _ _ _ hbpp.1 _ _ _ hbits
  have periods := start.bitPeriods hbpp hbits
  obtain ⟨u, hu, sent⟩ := periods _ (Nat.le_refl _)
  obtain ⟨v, w, hv, hreset, hw, done⟩ := sent.finished hlength hfits.1 hfits.2 sent.finish
  have hv' : bitPeriods (len * t.cfg.bpp + 1) t = .next v := by rw [bitPeriods_succ, hu]; exact hv
  have hw' : bitPeriods (len * t.cfg.bpp + 2) t = .next w := by rw [bitPeriods_succ, hv']; exact hw
  refine ⟨t, run, ?_⟩
  rw [← hcfg]
  refine ⟨fun k hk => ?_, ⟨u, hu, sent.finish⟩, ⟨v, hv', hreset⟩, w, hw', done.state, done.clk, done.data, done.en, done.ie,
    done.pend, done.hist⟩
  obtain ⟨u', hu', sent'⟩ := periods k (Nat.le_of_lt hk)
  exact ⟨u', hu', sent'.sending hk⟩

end Sys2Proof.Machine
end

section
/-! Init and trailer length of the FIFO engine (44_fifo_engine R203, R206, R207). -/

namespace Sys2Proof.Machine

/-! ### Init of slot 0 (R203) -/

/-- The slot-0 setup after the draw: the registry written, the serializer cleared but for its handler and the enables `ie`, one value
drawn. -/
def State.fifoCleared (s : State) (g : Nat) (reg : List (Option Nat)) (ie : Word) : State := { s with
  regFifo := reg
  ser := { cfg := g, clkRun := false, fifo := [], insPend := 0, ie := ie, st := 0#32, handler := s.ser.handler }
  draws := s.draws + 1
  hist := s.hist ++ [.regWrite (.serClkRun false), .regWrite (.serIeNeed false), .regWrite (.serIeEmpty false),
    .regWrite (.serClr 0xFFFFFFFF#32), .regWrite .serFifoReset, .regWrite (.serInsPend 0), .regWrite (.serCfg g)] }

/-- The enables that the setup leaves: none of an engine condition, the legacy ones as they were. -/
structure ClearedEnables (s : State) (ie : Word) : Prop where
  need : ie.getLsbD 0 = false
  empty : ie.getLsbD 1 = false
  legacy : ie &&& s.cfg.legacyMask = s.ser.ie &&& s.cfg.legacyMask

theorem fifoClearSerializer_setRegistry (s : State) (g : Nat) (reg : List (Option Nat)) (hadm : admissible s.cfg = true) :
    ∃ ie, (fifoClearSerializer g (s.setRegistry .fifo reg)).countDraw = s.fifoCleared g reg ie ∧ ClearedEnables s ie := by
  obtain ⟨ie, hclear, need, empty, hbits⟩ := fifoClearSerializer_eq g (s.setRegistry .fifo reg)
  exact ⟨ie, by rw [hclear]; rfl, need, empty, and_legacy_congr hadm hbits⟩

section init
variable {s : State} {c g : Nat} {rest : List (Option Nat)} {ie : Word} (hc : (s.fifoCtx c).inited = false)
  (hadm : admissible s.cfg = true) (hslot : s.regFifo = none :: rest)
  (hclear : (fifoClearSerializer g (s.setRegistry .fifo (some c :: rest))).countDraw = s.fifoCleared g (some c :: rest) ie)
include hc hadm hslot hclear

/-- The platform attaches the handler, and the context is configured. -/
theorem exec_fifoInit_attached (h : Config.freeAttach s.draws = true) :
    exec (.fifoInit c g .msb) s
      = .next (fifoConfigure c (writeReg (.serHandler true) (s.fifoCleared g (some c :: rest) ie))) := by
  have setup := fifoSetup_attached (s := s.setRegistry .fifo (some c :: rest)) g h
  rw [hclear] at setup
  simp [exec, execFifoInit, fifoInit, hc, hadm, hslot, registerIn, setup]

/-- The platform does not attach the handler: the host faults after the registers are cleared. -/
theorem exec_fifoInit_failed (h : Config.freeAttach s.draws = false) :
    exec (.fifoInit c g .msb) s
      = .next (raise .host (.initHardwareFailure .fifo) (s.fifoCleared g (some c :: rest) ie)) := by
  have setup := fifoSetup_failed (s := s.setRegistry .fifo (some c :: rest)) g h
  rw [hclear] at setup
  simp [exec, execFifoInit, fifoInit, hc, hadm, hslot, registerIn, setup]

end init

/-- What the cleared enables and status read as, in every state that has them. -/
theorem ClearedEnables.reads {s t : State} {ie : Word} (h : ClearedEnables s ie) (hcfg : t.cfg = s.cfg)
    (hie : t.ser.ie = ie) (hst : t.ser.st = 0#32) :
    t.serSt = 0#32 ∧ t.ieNeed = false ∧ t.ieEmpty = false ∧
      t.serIe &&& t.cfg.legacyMask = s.serIe &&& s.cfg.legacyMask := by
  refine ⟨?_, ?_, ?_, ?_⟩
  · rw [State.serSt, hst, BitVec.zero_and]
  · rw [ieNeed_eq, hie, h.need]
  · rw [ieEmpty_eq, hie, h.empty]
  · rw [serIe_legacy, serIe_legacy, hie, hcfg, h.legacy]

/-- Settles O25, by the platform's attach result: the configured context stands over the cleared serializer with its handler
attached, or the fault does over the cleared serializer. -/
theorem fifoInitOfSlotZero : Obligations.FifoInitOfSlotZero := by
  intro s c g rest hc hadm hslot
  obtain ⟨ie, hclear, enables⟩ := fifoClearSerializer_setRegistry s g (some c :: rest) hadm
  cases hattach : Config.freeAttach s.draws with
  | true =>
    obtain ⟨hst, hneed, hempty, hlegacy⟩ := enables.reads
      (t := fifoConfigure c (writeReg (.serHandler true) (s.fifoCleared g (some c :: rest) ie))) rfl rfl rfl
    exact ⟨_, exec_fifoInit_attached hc hadm hslot hclear hattach, rfl, ⟨fun _ => rfl, rfl, rfl⟩, ⟨rfl, fun _ => rfl, rfl⟩,
      rfl, rfl, rfl, rfl, rfl, rfl, hst, hneed, hempty, hlegacy,
      fun _ => ⟨⟨fifoConfigure_same c _, fun _ hne => fifoConfigure_other _ hne⟩, rfl, rfl, rfl, List.append_assoc _ _ _⟩,
      nofun⟩
  | false =>
    obtain ⟨hst, hneed, hempty, hlegacy⟩ := enables.reads
      (t := raise .host (.initHardwareFailure .fifo) (s.fifoCleared g (some c :: rest) ie)) rfl rfl rfl
    exact ⟨_, exec_fifoInit_failed hc hadm hslot hclear hattach, rfl, ⟨fun _ => rfl, rfl, rfl⟩, ⟨rfl, fun _ => rfl, rfl⟩,
      rfl, rfl, rfl, rfl, rfl, rfl, hst, hneed, hempty, hlegacy, nofun, fun _ => ⟨fun _ => rfl, rfl, rfl, rfl, rfl⟩⟩

/-! ### Trailer length (R206, R207) -/

theorem exec_trailerLen_typed {s : State} {n : Nat} (h : nbytesTyped n = true) :
    exec (.trailerLen n) s = .next (returns (.trailerWords (trailerLen s.cfg n)) s) := by
  simp only [exec, execTrailerLen, h, if_true]

/-- The trailer is the gap and the advance notice, with one word more where the total would be odd. -/
theorem trailerLen_bounds_and_parity (cfg : Config) (n : Nat) :
    ceilDiv cfg.resetNs cfg.sampleNs + cfg.advanceFrames ≤ trailerLen cfg n ∧
      trailerLen cfg n ≤ ceilDiv cfg.resetNs cfg.sampleNs + cfg.advanceFrames + 1 ∧
      (cfg.insertedFrames + n + trailerLen cfg n) % 2 = 0 := by
  unfold trailerLen
  dsimp only
  split <;> omega

/-- Settles O54: the parity with one inserted frame is that of the even total. -/
theorem trailerCoversTheGapWithEvenTotal : Obligations.TrailerCoversTheGapWithEvenTotal := by
  intro s n hpos hlt
  obtain ⟨hlow, hhigh, heven⟩ := trailerLen_bounds_and_parity s.cfg n
  exact ⟨_, exec_trailerLen_typed (by simpa [nbytesTyped] using ⟨hpos, hlt⟩), hlow, hhigh, heven, fun hone => by omega⟩

end Sys2Proof.Machine
end

section
/-! The fill and the sends of the FIFO engine (44_fifo_engine R204, R212 to R214, R241): what a fill of the stream does (`Filled`), for
the fill by itself and for an accepted send, and how much work a fill does at most (`Pushes`). -/

namespace Sys2Proof.Machine

/-! ### How much a fill does (R214) -/

/-- From `s` to `t` HIST has gained `reads` pixel reads and the FIFO `words` at its end. -/
def Pushes (s t : State) (words : List Word) (reads : Nat) : Prop :=
  ∃ events, t.hist = s.hist ++ events ∧ t.ser.fifo = s.ser.fifo ++ words ∧ events.countP isMemRead = reads

theorem Pushes.none {s t : State} {events : List Event} (hhist : t.hist = s.hist ++ events) (hfifo : t.ser.fifo = s.ser.fifo)
    (hreads : events.countP isMemRead = 0) : Pushes s t [] 0 :=
  ⟨events, hhist, by rw [hfifo, List.append_nil], hreads⟩

theorem Pushes.trans {s t u : State} {words words' : List Word} {reads reads' : Nat} (h : Pushes s t words reads)
    (h' : Pushes t u words' reads') : Pushes s u (words ++ words') (reads + reads') := by
  obtain ⟨events, hhist, hfifo, hreads⟩ := h
  obtain ⟨events', hhist', hfifo', hreads'⟩ := h'
  refine ⟨events ++ events', ?_, ?_, ?_⟩
  · rw [hhist', hhist, List.append_assoc]
  · rw [hfifo', hfifo, List.append_assoc]
  · rw [List.countP_append, hreads, hreads']

theorem fillTrailer_pushes (c room : Nat) (s : State) :
    ∃ words, Pushes s (fillTrailer c room s) words 0 ∧ words.length ≤ room := by
  induction room generalizing s with
  | zero => exact ⟨[], .none (List.append_nil _).symm rfl rfl, Nat.le_refl _⟩
  | succ room ih =>
    unfold fillTrailer
    split
    · obtain ⟨-, hfifo, -, -, hhist⟩ := pushTrailer_spec c s
      obtain ⟨words, hwords, hle⟩ := ih (pushTrailer c s)
      have first : Pushes s (pushTrailer c s) [0#32] 0 := ⟨_, hhist, hfifo, rfl⟩
      exact ⟨_, first.trans hwords, Nat.succ_le_succ hle⟩
    · exact ⟨[], .none (List.append_nil _).symm rfl rfl, Nat.zero_le _⟩

theorem fillExhausted_pushes (c : Nat) (s : State) : Pushes s (fillExhausted c s) [] 0 := by
  unfold fillExhausted
  split
  · exact .none (List.append_assoc _ _ _) rfl rfl
  · exact .none (List.append_nil _).symm rfl rfl

/-- A fill reads one pixel word for each data word and pushes no more words than there is room for. -/
theorem fill_pushes {c : Nat} {s t : State} (h : fill c s = .ok t) :
    ∃ words reads, Pushes s t words reads ∧ words.length ≤ s.room ∧ reads ≤ words.length := by
  unfold fill at h
  split at h
  · cases h
  rename_i u hu
  cases h
  obtain ⟨events, data, hhist, hfifo, hcfg, hle, hreads⟩ := fillData_bounded _ hu
  obtain ⟨trailer, htrailer, hle'⟩ := fillTrailer_pushes c u.room u
  have hdata : Pushes s u data data.length := ⟨events, hhist, hfifo, hreads⟩
  have hroom : u.room = s.room - data.length := by
    rw [State.room, State.level, hcfg, hfifo, List.length_append, ← Nat.sub_sub]
    rfl
  have hlength : ((data ++ trailer) ++ []).length = data.length + trailer.length := by simp
  exact ⟨_, _, (hdata.trans htrailer).trans (fillExhausted_pushes c _), by omega, by omega⟩

theorem execFifoFill_next {c : Nat} {s t : State} (h : exec (.fifoFill c) s = .next t) :
    ∃ u, fill c s = .ok u ∧ t = returns .void u := by
  simp only [exec, execFifoFill] at h
  split at h
  · cases h
  · cases h
    exact ⟨_, ‹_›, rfl⟩

/-- Settles O45, by what the loops of the fill push and read. -/
theorem fillDoesBoundedWork : Obligations.FillDoesBoundedWork := by
  intro s t c h
  obtain ⟨u, hu, rfl⟩ := execFifoFill_next h
  obtain ⟨pushed, reads, ⟨events, hhist, hfifo, hreads⟩, hroom, hle⟩ := fill_pushes hu
  exact ⟨events, pushed, hhist, hfifo, hroom, hreads.trans_le hle⟩

/-! ### What a fill leaves -/

section frame
variable {c : Nat} {s t : State} (h : FillFrame c s t)
include h

theorem FillFrame.sameGpioSide : SameGpioSide s t :=
  ⟨gpioCtx_congr h.cfg h.gpio, h.regGpio, h.tmr⟩

theorem FillFrame.sameWorld : SameWorld s t :=
  ⟨h.cfg, fun a => by rw [h.mem], h.schedule⟩

theorem FillFrame.noFaultOrDraw : NoFaultOrDraw s t :=
  ⟨h.faults, h.refused, h.draws⟩

theorem FillFrame.serSt : t.serSt = s.serSt := by
  rw [State.serSt, State.serSt, h.st, h.cfg]

end frame

/-- `t` is `s` after a fill of context `c` that pushed the next `words` of its stream (R212, R213). -/
structure Filled (c : Nat) (s t : State) (words : List Word) : Prop where
  frame : FillFrame c s t
  fifo : t.ser.fifo = s.ser.fifo ++ words
  position : (t.fifoCtx c).position s.cfg = (s.fifoCtx c).position s.cfg + min words.length ((s.fifoCtx c).dataLeft s.cfg)
  byteIdx : (t.fifoCtx c).byteIdx < s.cfg.bpp / 8
  trailer : (t.fifoCtx c).trailer = (s.fifoCtx c).trailer - (words.length - (s.fifoCtx c).dataLeft s.cfg)
  wordsLeft : (t.fifoCtx c).wordsLeft s.cfg = (s.fifoCtx c).wordsLeft s.cfg - words.length
  next : ∀ j, nextWord t c j = nextWord s c (words.length + j)
  state : (t.fifoCtx c).state =
    if decide (words.length = (s.fifoCtx c).wordsLeft s.cfg) then .reset else (s.fifoCtx c).state
  ieNeed : t.ieNeed = if decide (words.length = (s.fifoCtx c).wordsLeft s.cfg) then false else s.ieNeed
  ieEmpty : t.ieEmpty = if decide (words.length = (s.fifoCtx c).wordsLeft s.cfg) then true else s.ieEmpty
  legacy : t.serIe &&& s.cfg.legacyMask = s.serIe &&& s.cfg.legacyMask

/-- A fill whose reads are admitted pushes the words left as far as there is room. -/
theorem fill_filled {c : Nat} {s : State} {words : List Word} (hadm : admissible s.cfg = true)
    (hc : CursorOk s.cfg (s.fifoCtx c)) (hl : words.length = min s.room ((s.fifoCtx c).wordsLeft s.cfg))
    (hw : ∀ j, j < words.length → nextWord s c j = words[j]?) : ∃ t, fill c s = .ok t ∧ Filled c s t words := by
  obtain ⟨t, ht, frame, cursor, hfifo, hpos, htrailer, hleft, hnext, hbits, done, more⟩ := fill_spec hc hl hw
  have hcursor := cursor.byteIdx
  rw [frame.cfg] at hcursor
  have hlegacy : t.serIe &&& s.cfg.legacyMask = s.serIe &&& s.cfg.legacyMask := by
    rw [serIe_legacy, ← frame.cfg, serIe_legacy, frame.cfg]
    exact and_legacy_congr hadm hbits
  have hall : words.length = (s.fifoCtx c).wordsLeft s.cfg ↔ (t.fifoCtx c).wordsLeft s.cfg = 0 := by omega
  have hwl : (t.fifoCtx c).wordsLeft s.cfg = (s.fifoCtx c).wordsLeft s.cfg - words.length := by omega
  refine ⟨t, ht, ?_⟩
  by_cases h0 : words.length = (s.fifoCtx c).wordsLeft s.cfg
  · obtain ⟨hs, hneed, hempty⟩ := done (hall.mp h0)
    exact ⟨frame, hfifo, hpos, hcursor, htrailer, hwl, hnext, by simp [h0, hs], by simp [h0, hneed], by simp [h0, hempty],
      hlegacy⟩
  · obtain ⟨hs, hie⟩ := more (mt hall.mpr h0)
    exact ⟨frame, hfifo, hpos, hcursor, htrailer, hwl, hnext, by simp [h0, hs], by simp [h0, ieNeed_eq, hie],
      by simp [h0, ieEmpty_eq, hie], hlegacy⟩

theorem exec_fifoFill_ok {c : Nat} {s t : State} (h : fill c s = .ok t) :
    exec (.fifoFill c) s = .next (returns .void t) := by
  simp only [exec, execFifoFill, h]

/-- Settles O44, by `fill_filled`. -/
theorem fillPushesTheStreamInOrder : Obligations.FillPushesTheStreamInOrder := by
  intro s c words hadm hpix hbyte hdone hl hw
  obtain ⟨t, ht, h⟩ := fill_filled hadm ⟨hpix, hbyte, hdone⟩ hl hw
  exact ⟨_, exec_fifoFill_ok ht, h.fifo, h.position, h.byteIdx, h.trailer, h.wordsLeft, h.next, h.state, h.ieNeed, h.ieEmpty,
    h.frame.buf, h.frame.len, h.frame.order, h.frame.inited, h.frame.others, h.frame.serSt, h.legacy, h.frame.clkRun,
    h.frame.insPend, h.frame.serCfg, h.frame.handler, h.frame.regFifo, rfl, h.frame.noFaultOrDraw, h.frame.sameGpioSide,
    h.frame.sameWorld⟩

/-! ### An accepted send before its fill (R204, R241) -/

/-- The state in which an accepted send checks for a race: the context written, the FIFO reset, the status read. -/
def State.started (s : State) (c buf len : Nat) : State := { s.setFifo c (fifoStarted s.cfg buf len (s.fifoCtx c)) with
  ser := { s.ser with fifo := [], insPend := 0 }
  hist := s.hist ++ [.regWrite .serFifoReset, .regWrite (.serInsPend 0), .statusRead s.serSt] }

theorem readStatus_fifoStart (c buf len : Nat) (s : State) : readStatus (fifoStart c buf len s) = s.started c buf len := by
  simp only [fifoStart, readStatus, writeReg, State.log, serEffect, tmrEffect, List.append_assoc, List.cons_append,
    List.nil_append]
  rfl

theorem started_ctx (s : State) (c buf len : Nat) :
    (s.started c buf len).fifoCtx c = fifoStarted s.cfg buf len (s.fifoCtx c) :=
  fifoCtx_setFifo_same s c (fifoStarted s.cfg buf len (s.fifoCtx c))

theorem started_other (s : State) {c c' : Nat} (buf len : Nat) (h : c' ≠ c) :
    (s.started c buf len).fifoCtx c' = s.fifoCtx c' :=
  fifoCtx_setFifo_other s (fifoStarted s.cfg buf len (s.fifoCtx c)) h

section send
variable {s : State} {c buf len : Nat} (haddr : buf < 2 ^ s.cfg.addrBits) (hlen32 : len < 2 ^ 32)
  (hc : (s.fifoCtx c).inited = true) (hidle : (s.fifoCtx c).state = .idle) (hlen : 0 < len) (halign : buf % 4 = 0)
  (hend : buf + 4 * len ≤ 2 ^ s.cfg.addrBits) (hbytes : len * (s.cfg.bpp / 8) < 2 ^ 32)
include haddr hlen32 hc hidle hlen halign hend hbytes

theorem exec_fifoSend_accepted : exec (.fifoSend c buf len) s = fifoAccepted c buf len s :=
  execFifoSend_accepted (sendTyped_of haddr hlen32) hc hidle hlen (fifoBufferOk_iff.mpr ⟨⟨halign, hend⟩, hbytes⟩)

end send

theorem fifoAccepted_race (c buf len : Nat) {s : State} (h : s.stNeed = true) :
    fifoAccepted c buf len s = .next (raise .host (.sendRefillRace s.serSt) (s.started c buf len)) := by
  have h' : (s.started c buf len).stNeed = true := h
  simp only [fifoAccepted, readStatus_fifoStart, h', if_true]
  rfl

/-- Settles O47: the fault is raised where the context is written, the FIFO reset and the status read. -/
theorem fifoSendFaultsOnARefillRace : Obligations.FifoSendFaultsOnARefillRace := by
  intro s c buf len haddr hlen32 hc hidle hlen halign hend hbytes hrace
  have run := (exec_fifoSend_accepted haddr hlen32 hc hidle hlen halign hend hbytes).trans (fifoAccepted_race c buf len hrace)
  exact ⟨_, run, ⟨started_ctx s c buf len, fun _ hne => started_other s buf len hne⟩, rfl, rfl, ⟨rfl, rfl, rfl⟩, rfl, rfl,
    ⟨fun _ => rfl, rfl, rfl⟩, rfl, fun _ => rfl, rfl⟩

/-! ### The fill and the launch of an accepted send (R204) -/

/-- An accepted send past its race check, about to fill: NEED is enabled. -/
def State.refilling (s : State) (c buf len : Nat) : State := { s.started c buf len with
  ser := { s.ser with fifo := [], insPend := 0, ie := withBit s.ser.ie needBit true &&& validBits s.cfg }
  hist := (s.started c buf len).hist ++ [.regWrite (.serIeNeed true)] }

theorem refilling_cfg (s : State) (c buf len : Nat) : (s.refilling c buf len).cfg = s.cfg := rfl

theorem refilling_ie (s : State) (c buf len : Nat) :
    (s.refilling c buf len).ser.ie = withBit s.ser.ie needBit true &&& validBits s.cfg := rfl

theorem refilling_ctx (s : State) (c buf len : Nat) :
    (s.refilling c buf len).fifoCtx c = fifoStarted s.cfg buf len (s.fifoCtx c) := started_ctx s c buf len

theorem refilling_other (s : State) {c c' : Nat} (buf len : Nat) (h : c' ≠ c) :
    (s.refilling c buf len).fifoCtx c' = s.fifoCtx c' := started_other s buf len h

/-- An accepted send after its fill: both conditions cleared, the inserted frames loaded, the clock started last. -/
def State.launched (s : State) : State := { s with
  ser := { s.ser with
    st := (s.ser.st &&& ~~~(needBit ||| emptyBit)) &&& validBits s.cfg
    insPend := s.cfg.insertedFrames
    clkRun := true }
  hist := s.hist ++ [.regWrite (.serClr (needBit ||| emptyBit)), .regWrite (.serInsPend s.cfg.insertedFrames),
    .regWrite (.serClkRun true)]
  ret := .void }

theorem returns_fifoLaunch (s : State) : returns .void (fifoLaunch s) = s.launched := by
  simp only [returns, fifoLaunch, writeReg, serEffect, tmrEffect, List.append_assoc, List.cons_append, List.nil_append]
  rfl

theorem fifoAccepted_launched {c buf len : Nat} {s t : State} (hrace : s.stNeed = false)
    (hfill : fill c (s.refilling c buf len) = .ok t) : fifoAccepted c buf len s = .next t.launched := by
  have hrace' : (s.started c buf len).stNeed = false := hrace
  have hrefill : writeReg (.serIeNeed true) (s.started c buf len) = s.refilling c buf len := rfl
  simp [fifoAccepted, readStatus_fifoStart, hrace', hrefill, hfill, returns_fifoLaunch]

theorem fifoStarted_position (cfg : Config) (buf len : Nat) (x : FifoCtx) :
    (fifoStarted cfg buf len x).position cfg = 0 := by
  simp [fifoStarted, FifoCtx.position]

theorem fifoStarted_dataLeft (cfg : Config) (buf len : Nat) (x : FifoCtx) :
    (fifoStarted cfg buf len x).dataLeft cfg = len * (cfg.bpp / 8) := rfl

theorem fifoStarted_wordsLeft (cfg : Config) (buf len : Nat) (x : FifoCtx) : (fifoStarted cfg buf len x).wordsLeft cfg =
    len * (cfg.bpp / 8) + trailerField (trailerLen cfg (len * (cfg.bpp / 8))) := rfl

/-- The words of a send from its start are those of its buffer's stream. -/
theorem refilling_nextWord (s : State) (c buf len j : Nat) :
    nextWord (s.refilling c buf len) c j = streamWord s.cfg s.mem buf len j := by
  rw [nextWord, refilling_ctx]
  show streamWord s.cfg s.mem buf len ((fifoStarted s.cfg buf len (s.fifoCtx c)).position s.cfg + j) = _
  rw [fifoStarted_position, Nat.zero_add]

theorem refilling_enables {s : State} (c buf len : Nat) (hadm : admissible s.cfg = true) :
    (s.refilling c buf len).ieNeed = true ∧ (s.refilling c buf len).ieEmpty = s.ieEmpty ∧
      (s.refilling c buf len).serIe &&& s.cfg.legacyMask = s.serIe &&& s.cfg.legacyMask := by
  refine ⟨?_, ?_, ?_⟩
  · rw [ieNeed_eq, refilling_ie, withBit_valid_getLsbD _ _ _ _ (by decide), needBit_getLsbD]
    rfl
  · rw [ieEmpty_eq, ieEmpty_eq, refilling_ie, withBit_valid_getLsbD _ _ _ _ (by decide), needBit_getLsbD]
    rfl
  · refine (serIe_legacy (s.refilling c buf len)).trans (.trans (and_legacy_congr hadm fun i hi => ?_) (serIe_legacy s).symm)
    rw [refilling_ie]
    simp only [BitVec.getLsbD_and, withBit_getLsbD, needBit_getLsbD]
    simp [show i ≠ 0 by omega]

/-- The first words of the stream go into the emptied FIFO. -/
theorem refilling_filled {c buf len : Nat} {s : State} {words : List Word} (hadm : admissible s.cfg = true)
    (hl : words.length = min s.cfg.fifoDepth
      (len * (s.cfg.bpp / 8) + trailerField (trailerLen s.cfg (len * (s.cfg.bpp / 8)))))
    (hw : ∀ j, j < words.length → streamWord s.cfg s.mem buf len j = words[j]?) :
    ∃ t, fill c (s.refilling c buf len) = .ok t ∧ Filled c (s.refilling c buf len) t words := by
  have hbpp := admissible_bpp hadm
  refine fill_filled hadm ?_ ?_ fun j hj => (refilling_nextWord s c buf len j).trans (hw j hj)
  · rw [refilling_ctx]
    exact ⟨Nat.zero_le _, by show 0 < s.cfg.bpp / 8; omega, fun _ => rfl⟩
  · rw [refilling_ctx]
    exact hl

theorem trailerField_of_lt {n : Nat} (h : n < 2 ^ 32) : trailerField n = n := if_pos h

/-- What the fill of a send leaves of its context and of the enables, in the terms of the send. -/
theorem Filled.of_refill {c buf len : Nat} {s t : State} {words : List Word} (hadm : admissible s.cfg = true)
    (h : Filled c (s.refilling c buf len) t words) :
    let data := len * (s.cfg.bpp / 8)
    let trailer := trailerField (trailerLen s.cfg data)
    let done := decide (words.length = data + trailer)
    (t.fifoCtx c).position s.cfg = min words.length data ∧ (t.fifoCtx c).trailer = trailer - (words.length - data) ∧
      (t.fifoCtx c).wordsLeft s.cfg = data + trailer - words.length ∧
      (t.fifoCtx c).state = (if done then .reset else .sending) ∧ t.ieNeed = !done ∧
      t.ieEmpty = (if done then true else s.ieEmpty) ∧ (t.fifoCtx c).buf = buf ∧ (t.fifoCtx c).len = len ∧
      (t.fifoCtx c).inited = (s.fifoCtx c).inited ∧ (t.fifoCtx c).order = (s.fifoCtx c).order := by
  dsimp only
  obtain ⟨need, empty, -⟩ := refilling_enables c buf len hadm
  obtain ⟨frame, -, position, -, trailer, wordsLeft, -, state, ieNeed, ieEmpty, -⟩ := h
  have hbuf := frame.buf
  have hlen := frame.len
  have hinited := frame.inited
  have horder := frame.order
  simp only [refilling_ctx, refilling_cfg, fifoStarted_position, fifoStarted_dataLeft, fifoStarted_wordsLeft, Nat.zero_add,
    need, empty] at position trailer wordsLeft state ieNeed ieEmpty hbuf hlen hinited horder
  have flip : ∀ b : Bool, (if b then false else true) = !b := by decide
  exact ⟨position, trailer, wordsLeft, state, ieNeed.trans (flip _), ieEmpty, hbuf, hlen, hinited, horder⟩

/-- The launch clears both engine conditions, keeps the legacy status, and starts the clock as its last access. -/
theorem launched_status {s : State} (hadm : admissible s.cfg = true) :
    s.launched.stNeed = false ∧ s.launched.stEmpty = false ∧
      s.launched.serSt &&& s.cfg.legacyMask = s.serSt &&& s.cfg.legacyMask := by
  have hst : s.launched.ser.st = (s.ser.st &&& ~~~(needBit ||| emptyBit)) &&& validBits s.cfg := rfl
  refine ⟨?_, ?_, ?_⟩
  · rw [stNeed_eq, hst]
    simp
  · rw [stEmpty_eq, hst]
    simp
  · refine (serSt_legacy s.launched).trans (.trans (and_legacy_congr hadm fun i hi => ?_) (serSt_legacy s).symm)
    rw [hst]
    simp only [BitVec.getLsbD_and, BitVec.getLsbD_not, BitVec.getLsbD_or, needBit_getLsbD, emptyBit_getLsbD]
    by_cases h32 : i < 32
    · simp [show i ≠ 0 by omega, show i ≠ 1 by omega, h32]
    · simp [BitVec.getLsbD_of_ge _ _ (Nat.not_lt.mp h32)]

theorem launched_last (s : State) : s.launched.hist.getLast? = some (.regWrite (.serClkRun true)) := by
  simp [State.launched]

/-- Settles O46: the launch stands over the fill of the started context. -/
theorem fifoSendStartsATransmission : Obligations.FifoSendStartsATransmission := by
  intro s c buf len words haddr hlen32 hadm hc hidle hlen halign hend hbytes hrace
  dsimp only
  intro hl hw
  obtain ⟨u, hfill, h⟩ := refilling_filled (c := c) hadm hl hw
  have run := (exec_fifoSend_accepted haddr hlen32 hc hidle hlen halign hend hbytes).trans (fifoAccepted_launched hrace hfill)
  obtain ⟨-, -, legacy⟩ := refilling_enables c buf len hadm
  obtain ⟨position, htrailer, wordsLeft, state, ieNeed, ieEmpty, hbuf, hlen', hinited, order⟩ := h.of_refill hadm
  have hcfg : u.cfg = s.cfg := h.frame.cfg
  obtain ⟨stNeed, stEmpty, stLegacy⟩ := launched_status (s := u) (hcfg ▸ hadm)
  rw [hcfg] at stLegacy
  exact ⟨_, run, trailerField_lt _, trailerField_of_lt, h.fifo, position, h.byteIdx, htrailer, wordsLeft,
    fun j => (h.next j).trans (refilling_nextWord s c buf len _), state, hbuf, hlen', hinited.trans hc, order,
    fun c' hne => (h.frame.others c' hne).trans (refilling_other s buf len hne), ieNeed, ieEmpty, stNeed, stEmpty,
    stLegacy.trans (congrArg (· &&& s.cfg.legacyMask) h.frame.serSt), h.legacy.trans legacy,
    congrArg Config.insertedFrames hcfg, rfl, h.frame.serCfg, h.frame.handler, launched_last u, h.frame.regFifo, rfl,
    h.frame.noFaultOrDraw, h.frame.sameGpioSide, h.frame.sameWorld⟩

end Sys2Proof.Machine
end

section
/-! The serializer handler, the drain and the legacy logic (44_fifo_engine R222 to R226, R230 to R234): `ser.irq` by what its status
word and the context in slot 0 ask for, `ser.drain` by what it finds to emit. -/

namespace Sys2Proof.Machine

/-! ### `ser.irq` (R222) -/

/-- The state after the entry of the handler: the status read, and every bit of it acknowledged. -/
def State.acknowledged (s : State) : State := { s with
  ser := { s.ser with st := 0#32 }
  hist := s.hist ++ [.statusRead s.serSt, .regWrite (.serClr s.serSt)] }

theorem irqAcknowledge_eq (s : State) : irqAcknowledge s = s.acknowledged := by
  simp only [State.acknowledged, ← irqAcknowledge_ser]
  simp only [irqAcknowledge, readStatus, writeReg, State.log, tmrEffect, List.append_assoc, List.cons_append,
    List.nil_append]

theorem acknowledged_serSt (s : State) : s.acknowledged.serSt = 0#32 := BitVec.zero_and

section irq
variable {s : State} (hhandler : s.ser.handler = true)
include hhandler

/-- With its guard true the step is its routine. -/
theorem exec_serIrq_guarded (hline : s.serSt &&& s.serIe ≠ 0#32) : exec .serIrq s = serIrq s := by
  simp [exec, execSerIrq, irqGuard, State.serIrqLine, hhandler, hline]

/-- Without an enabled engine condition the interrupt is the legacy logic's: it is only acknowledged. -/
theorem exec_serIrq_legacy (hline : s.serSt &&& s.serIe ≠ 0#32) (hcond : s.serSt &&& s.serIe &&& 3#32 = 0#32) :
    exec .serIrq s = .next s.acknowledged := by
  have hown : s.acknowledged.ownConditions s.serSt = 0#32 := hcond
  rw [exec_serIrq_guarded hhandler hline]
  simp only [serIrq, irqAcknowledge_eq, hown, if_true]

variable (hcond : s.serSt &&& s.serIe &&& 3#32 ≠ 0#32)
include hcond

/-- With slot 0 `EMPTY` there is no engine to step (R150). -/
theorem exec_serIrq_empty (hslot : slotZero s.regFifo = none) : exec .serIrq s = .next s.acknowledged := by
  have hown : s.acknowledged.ownConditions s.serSt ≠ 0#32 := hcond
  have hslot' : slotZero s.acknowledged.regFifo = none := hslot
  rw [exec_serIrq_guarded hhandler fun h => hcond (by rw [h, BitVec.zero_and])]
  simp only [serIrq, irqAcknowledge_eq, hown, hslot', if_false]

theorem exec_serIrq_fifoStep {c : Nat} (hslot : slotZero s.regFifo = some c) :
    exec .serIrq s = fifoStep c s.acknowledged :=
  (execSerIrq_fifoStep hhandler hcond hslot).trans (by rw [irqAcknowledge_eq])

end irq

/-- No engine step changes a status bit. -/
theorem fifoStep_serSt {c : Nat} {s t : State} (h : fifoStep c s = .next t) : t.serSt = s.serSt := by
  unfold fifoStep at h
  split at h
  · split at h
    · cases h
    · cases h
      exact (fill_frame ‹_›).serSt
  all_goals cases h; rfl

/-- Settles O48: by whether an enabled engine condition was set, and then by whether slot 0 holds a context. -/
theorem irqAcknowledgesAllAndStepsTheEngine : Obligations.IrqAcknowledgesAllAndStepsTheEngine := by
  intro s hline hhandler
  refine ⟨fun t ht => ?_, fun hcond => ?_, exec_serIrq_empty hhandler, fun hcond c => exec_serIrq_fifoStep hhandler hcond⟩
  · by_cases hcond : s.serSt &&& s.serIe &&& 3#32 = 0#32
    · cases (exec_serIrq_legacy hhandler hline hcond).symm.trans ht
      exact acknowledged_serSt s
    cases hslot : slotZero s.regFifo with
    | none =>
      cases (exec_serIrq_empty hhandler hcond hslot).symm.trans ht
      exact acknowledged_serSt s
    | some c =>
      have step := (exec_serIrq_fifoStep hhandler hcond hslot).symm.trans ht
      exact (fifoStep_serSt step).trans (acknowledged_serSt s)
  · exact ⟨_, exec_serIrq_legacy hhandler hline hcond, fun _ => rfl, rfl, rfl, rfl, rfl, ⟨rfl, rfl, rfl⟩,
      ⟨fun _ => rfl, rfl, rfl⟩, rfl, fun _ => rfl, rfl⟩

/-! ### The engine step by state (R224 to R226) -/

theorem fifoStep_sending {c : Nat} {s t : State} (hs : (s.fifoCtx c).state = .sending) (h : fill c s = .ok t) :
    fifoStep c s = .next t := by
  simp only [fifoStep, hs, h]

theorem fifoStep_reset {c : Nat} {s : State} (hs : (s.fifoCtx c).state = .reset) :
    fifoStep c s = .next (fifoStepReset c s) := by
  simp only [fifoStep, hs]

theorem fifoStep_idle {c : Nat} {s : State} (hs : (s.fifoCtx c).state = .idle) : fifoStep c s = .next s := by
  simp only [fifoStep, hs]

theorem fifoStep_trailer {c : Nat} {s : State} (hs : (s.fifoCtx c).state = .trailer) :
    fifoStep c s = .next (raise .serHandler (.unreachableState 3) s) := by
  simp only [fifoStep, hs]
  rfl

/-- Settles O49: the engine step in `SENDING` is the fill of the acknowledged state. -/
theorem irqInSendingFills : Obligations.IrqInSendingFills := by
  intro s c words hadm hhandler hcond hslot hs hpix hbyte hdone hl hw
  obtain ⟨t, hfill, h⟩ := fill_filled (s := s.acknowledged) hadm ⟨hpix, hbyte, hdone⟩ hl hw
  have run := (exec_serIrq_fifoStep hhandler hcond hslot).trans (fifoStep_sending hs hfill)
  have state := h.state
  rw [show (s.acknowledged.fifoCtx c).state = .sending from hs] at state
  exact ⟨t, run, h.fifo, h.position, h.byteIdx, h.trailer, h.wordsLeft, h.next, state, h.ieNeed, h.ieEmpty, h.frame.buf,
    h.frame.len, h.frame.order, h.frame.inited, h.frame.others, h.frame.serSt.trans (acknowledged_serSt s), h.legacy,
    h.frame.clkRun, h.frame.insPend, h.frame.serCfg, h.frame.handler, h.frame.regFifo, h.frame.ret, h.frame.noFaultOrDraw,
    h.frame.sameGpioSide, h.frame.sameWorld⟩

/-- Disabling EMPTY takes its bit out of the enables as they read. -/
theorem withBit_emptyBit_false (cfg : Config) (w : Word) :
    (withBit w emptyBit false &&& validBits cfg) &&& validBits cfg = (w &&& validBits cfg) &&& ~~~(2#32) := by
  rw [BitVec.and_assoc, BitVec.and_self]
  show (w &&& ~~~(2#32)) &&& validBits cfg = _
  rw [BitVec.and_assoc, BitVec.and_assoc, BitVec.and_comm (~~~(2#32))]

/-- The end of a transmission: EMPTY disabled, the clock stopped, the context in `IDLE`. -/
theorem fifoStepReset_eq (c : Nat) (s : State) : fifoStepReset c s = State.setFifo { s with
    ser := { s.ser with ie := withBit s.ser.ie emptyBit false &&& validBits s.cfg, clkRun := false }
    hist := s.hist ++ [.regWrite (.serIeEmpty false), .regWrite (.serClkRun false)] } c
      { s.fifoCtx c with state := .idle } := by
  simp only [fifoStepReset, writeReg_fifoCtx]
  simp only [writeReg, tmrEffect, serEffect, List.append_assoc, List.cons_append, List.nil_append]

/-- Settles O50, by the state of the context; the clauses of the other states have a false premise. -/
theorem irqInResetIdleOrTrailer : Obligations.IrqInResetIdleOrTrailer := by
  intro s c hhandler hcond hslot hsending
  have run := exec_serIrq_fifoStep hhandler hcond hslot
  have hst := acknowledged_serSt s
  cases hs : (s.fifoCtx c).state with
  | sending => exact absurd hs hsending
  | reset =>
    have step := run.trans (fifoStep_reset hs)
    rw [fifoStepReset_eq] at step
    refine ⟨_, step, hst, rfl, rfl, rfl, rfl, rfl, rfl, ⟨fun _ => rfl, rfl, rfl⟩, ⟨rfl, fun _ => rfl, rfl⟩,
      fun _ => ⟨⟨?_, fun c' hne => ?_⟩, rfl, withBit_emptyBit_false s.cfg s.ser.ie, ⟨rfl, rfl, rfl⟩, ?_⟩, nofun, nofun⟩
    · exact fifoCtx_setFifo_same _ c _
    · exact fifoCtx_setFifo_other _ _ hne
    · exact List.append_assoc _ _ _
  | idle =>
    exact ⟨_, run.trans (fifoStep_idle hs), hst, rfl, rfl, rfl, rfl, rfl, rfl, ⟨fun _ => rfl, rfl, rfl⟩,
      ⟨rfl, fun _ => rfl, rfl⟩, nofun, fun _ => ⟨fun _ => rfl, rfl, rfl, ⟨rfl, rfl, rfl⟩, rfl⟩, nofun⟩
  | trailer =>
    exact ⟨_, run.trans (fifoStep_trailer hs), hst, rfl, rfl, rfl, rfl, rfl, rfl, ⟨fun _ => rfl, rfl, rfl⟩,
      ⟨rfl, fun _ => rfl, rfl⟩, nofun, nofun, fun _ => ⟨fun _ => rfl, rfl, rfl, ⟨rfl, rfl, rfl⟩, rfl⟩⟩

/-! ### Raising the status (R231) -/

/-- What `raise_status` leaves with the status word `st`: the conditions that the level meets are in HIST. -/
def State.raised (s : State) (st : Word) : State := { s with
  ser := { s.ser with st := st }
  hist := s.hist ++ ((if s.level ≤ s.cfg.lowWatermark then [.regWrite (.serStNeed true)] else []) ++
    (if s.level ≤ s.cfg.advanceFrames then [.regWrite (.serStEmpty true)] else [])) }

/-- Words with the same bits but for NEED and EMPTY. -/
theorem and_not_engine_congr {v w : Word} (h : ∀ i, 2 ≤ i → v.getLsbD i = w.getLsbD i) :
    v &&& ~~~(3#32) = w &&& ~~~(3#32) := by
  apply BitVec.eq_of_getLsbD_eq
  intro i hi
  rw [show 3#32 = needBit ||| emptyBit from rfl]
  by_cases h2 : i < 2
  · simp only [BitVec.getLsbD_and, BitVec.getLsbD_not, BitVec.getLsbD_or, needBit_getLsbD, emptyBit_getLsbD,
      show (decide (i = 0) || decide (i = 1)) = true by simp; omega, Bool.not_true, Bool.and_false]
  · rw [BitVec.getLsbD_and, BitVec.getLsbD_and, h i (by omega)]

/-- `raise_status` sets NEED and EMPTY where the level meets their conditions and leaves the other bits. -/
theorem raiseStatus_raised (s : State) : ∃ st, raiseStatus s = s.raised st ∧
    (s.raised st).stNeed = (s.stNeed || decide (s.level ≤ s.cfg.lowWatermark)) ∧
    (s.raised st).stEmpty = (s.stEmpty || decide (s.level ≤ s.cfg.advanceFrames)) ∧
    (s.raised st).serSt &&& ~~~(3#32) = s.serSt &&& ~~~(3#32) := by
  obtain ⟨st, events, he, need, empty, hbits, rfl⟩ := raiseStatus_frame s
  refine ⟨st, he, ?_, ?_, and_not_engine_congr hbits⟩
  · rw [stNeed_eq, stNeed_eq]
    exact need
  · rw [stEmpty_eq, stEmpty_eq]
    exact empty

/-! ### The drain (R230, R232) -/

theorem exec_serDrain {s : State} (hclk : s.ser.clkRun = true) (hhandler : s.ser.handler = true) :
    exec .serDrain s = .next (serDrain s) := by
  simp [exec, execSerDrain, drainGuard, hclk, hhandler]

/-- A frame has left the serializer, with these words and inserted frames left and these accesses made. -/
def State.emitted (s : State) (words : List Word) (inserted : Nat) (events : List Event) : State := { s with
  ser := { s.ser with fifo := words, insPend := inserted }
  hist := s.hist ++ events }

theorem serDrain_inserted {s : State} (h : 0 < s.ser.insPend) : serDrain s = raiseStatus
    (s.emitted s.ser.fifo (s.ser.insPend - 1) [.emit 0#32, .regWrite (.serInsPend (s.ser.insPend - 1))]) := by
  simp [serDrain, drainFrame, h, State.emitted, writeReg, emitFrame, State.log, serEffect, tmrEffect]

theorem serDrain_head {s : State} {w : Word} {words : List Word} (h0 : s.ser.insPend = 0) (hfifo : s.ser.fifo = w :: words) :
    serDrain s = raiseStatus (s.emitted words 0 [.regWrite .serFifoPop, .emit w]) := by
  simp [serDrain, drainFrame, h0, hfifo, State.emitted, writeReg, emitFrame, State.log, serEffect, tmrEffect]

/-- A drain with something to emit emits the inserted frame if one is pending, and else the head of the FIFO. -/
theorem serDrain_emits {s : State} (h : 0 < s.ser.insPend ∨ s.ser.fifo ≠ []) :
    ∃ words inserted events, serDrain s = raiseStatus (s.emitted words inserted events) ∧
      (0 < s.ser.insPend → inserted = s.ser.insPend - 1 ∧ words = s.ser.fifo ∧
        events = [.emit 0#32, .regWrite (.serInsPend (s.ser.insPend - 1))]) ∧
      (s.ser.insPend = 0 → inserted = 0 ∧ ∃ w, s.ser.fifo = w :: words ∧ events = [.regWrite .serFifoPop, .emit w]) := by
  rcases Nat.eq_zero_or_pos s.ser.insPend with h0 | hpos
  · obtain ⟨w, words, hfifo⟩ := List.exists_cons_of_ne_nil (h.resolve_left (by omega))
    exact ⟨_, _, _, serDrain_head h0 hfifo, fun hpos => by omega, fun _ => ⟨rfl, w, hfifo, rfl⟩⟩
  · exact ⟨_, _, _, serDrain_inserted hpos, fun _ => ⟨rfl, rfl, rfl⟩, fun h0 => by omega⟩

/-- Settles O51: the status is raised over the emitted frame. -/
theorem drainEmitsOneFrame : Obligations.DrainEmitsOneFrame := by
  intro s hclk hhandler hsome
  obtain ⟨words, inserted, events, hdrain, hinserted, hhead⟩ := serDrain_emits hsome
  obtain ⟨st, hraise, need, empty, others⟩ := raiseStatus_raised (s.emitted words inserted events)
  have run := (exec_serDrain hclk hhandler).trans (congrArg _ (hdrain.trans hraise))
  refine ⟨_, run, fun hpos => ?_, fun h0 => ?_, need, empty, others, rfl, hclk, hhandler, rfl, fun _ => rfl, rfl, rfl,
    ⟨rfl, rfl, rfl⟩, ⟨fun _ => rfl, rfl, rfl⟩, rfl, fun _ => rfl, rfl⟩
  · obtain ⟨rfl, rfl, rfl⟩ := hinserted hpos
    exact ⟨rfl, rfl, rfl⟩
  · obtain ⟨rfl, w, hfifo, rfl⟩ := hhead h0
    exact ⟨rfl, w, hfifo, rfl⟩

/-! ### The underrun (R230, R232) -/

/-- What an underrun leaves in every case. -/
structure UnderrunFrame (s t : State) : Prop where
  fifoCtx : ∀ c, t.fifoCtx c = s.fifoCtx c
  regFifo : t.regFifo = s.regFifo
  ret : t.ret = s.ret
  refused : t.refused = s.refused
  gpio : SameGpioSide s t
  world : SameWorld s t

theorem drainUnderrun_frame {s t : State} (h : drainUnderrun s = .ok t ∨ drainUnderrun s = .error t) : UnderrunFrame s t := by
  unfold drainUnderrun at h
  split at h
  · rcases h with h | h <;> cases h
    exact ⟨fun _ => rfl, rfl, rfl, rfl, ⟨fun _ => rfl, rfl, rfl⟩, rfl, fun _ => rfl, rfl⟩
  · split at h <;> rcases h with h | h <;> cases h <;>
      exact ⟨fun _ => rfl, rfl, rfl, rfl, ⟨fun _ => rfl, rfl, rfl⟩, rfl, fun _ => rfl, rfl⟩

section underrun
variable {s : State} {c : Nat} (h0 : s.ser.insPend = 0) (hfifo : s.ser.fifo = [])
include h0 hfifo

theorem serDrain_underrun_fault {t : State} (h : drainUnderrun s = .error t) : serDrain s = t := by
  simp [serDrain, drainFrame, h0, hfifo, h]

theorem serDrain_underrun_ok {t : State} (h : drainUnderrun s = .ok t) : serDrain s = raiseStatus t := by
  simp [serDrain, drainFrame, h0, hfifo, h]

theorem serDrain_underrun_frame : UnderrunFrame s (serDrain s) := by
  cases h : drainUnderrun s with
  | error t =>
    rw [serDrain_underrun_fault h0 hfifo h]
    exact drainUnderrun_frame (.inr h)
  | ok t =>
    obtain ⟨st, hraise, -⟩ := raiseStatus_raised t
    obtain ⟨hctx, hreg, hret, hrefused, hgpio, hworld⟩ := drainUnderrun_frame (.inl h)
    rw [serDrain_underrun_ok h0 hfifo h, hraise]
    exact ⟨hctx, hreg, hret, hrefused, hgpio, hworld⟩

theorem serDrain_sending (hslot : slotZero s.regFifo = some c) (hs : (s.fifoCtx c).state = .sending) :
    serDrain s = raise .serializer
      (.fifoUnderrun (s.fifoCtx c).pix (s.fifoCtx c).byteIdx (s.fifoCtx c).trailer) s :=
  serDrain_underrun_fault h0 hfifo (by simp only [drainUnderrun, hslot, hs])

theorem serDrain_trailer (hslot : slotZero s.regFifo = some c) (hs : (s.fifoCtx c).state = .trailer) :
    serDrain s = raise .serializer (.unreachableState 3) s :=
  serDrain_underrun_fault h0 hfifo (by simp only [drainUnderrun, hslot, hs]; rfl)

theorem serDrain_free (h : slotZero s.regFifo = none ∨
    ∃ c, slotZero s.regFifo = some c ∧ ((s.fifoCtx c).state = .reset ∨ (s.fifoCtx c).state = .idle)) :
    serDrain s = raiseStatus (drainFree s) := by
  refine serDrain_underrun_ok h0 hfifo ?_
  rcases h with hslot | ⟨c, hslot, hs | hs⟩
  · simp only [drainUnderrun, hslot]
  · simp only [drainUnderrun, hslot, hs]
  · simp only [drainUnderrun, hslot, hs]

end underrun

/-- An empty FIFO meets both conditions. -/
theorem raised_hist_of_empty {s : State} (h : s.level = 0) (st : Word) : (s.raised st).hist =
    s.hist ++ [.regWrite (.serStNeed true), .regWrite (.serStEmpty true)] := by
  simp [State.raised, h]

/-- Settles O52: a fault by the state of the context, or the status raised over the drawn frame. -/
theorem drainUnderrun_spec : Obligations.DrainUnderrun := by
  intro s hclk hhandler h0 hfifo
  obtain ⟨hctx, hreg, hret, hrefused, hgpio, hworld⟩ := serDrain_underrun_frame h0 hfifo
  refine ⟨_, exec_serDrain hclk hhandler, hctx, hreg, hret, hrefused, hgpio, hworld, fun c hslot hs => ?sending,
    fun c hslot hs => ?trailer, fun hfree => ?free⟩
  case sending =>
    rw [serDrain_sending h0 hfifo hslot hs]
    exact ⟨rfl, rfl, rfl, rfl, rfl⟩
  case trailer =>
    rw [serDrain_trailer h0 hfifo hslot hs]
    exact ⟨rfl, rfl, rfl, rfl, rfl⟩
  case free =>
    obtain ⟨st, hraise, need, empty, others⟩ := raiseStatus_raised (drainFree s)
    have hlevel : (drainFree s).level = 0 := congrArg List.length hfifo
    rw [hlevel] at need empty
    rw [serDrain_free h0 hfifo hfree, hraise]
    refine ⟨rfl, rfl, hfifo, h0, by simpa using need, by simpa using empty, others, rfl, hclk, hhandler, rfl, ?_⟩
    rw [raised_hist_of_empty hlevel]
    simp [drainFree]

/-! ### The legacy logic (R234) -/

theorem exec_legacyRaise_typed {s : State} {bits : Word} (h : legacyTyped s.cfg bits = true) :
    exec (.legacyRaise bits) s = .next (writeReg (.serStLegacy bits) s) := by
  simp only [exec, execLegacyRaise, h, if_true]

section legacy
variable {cfg : Config} {bits : Word} (hsubset : bits &&& ~~~cfg.legacyMask = 0#32)
include hsubset

theorem legacyMask_of_legacyBit {i : Nat} (hi : i < 32) (hbit : bits.getLsbD i = true) : cfg.legacyMask.getLsbD i = true := by
  have h := congrArg (·.getLsbD i) hsubset
  simpa [hi, hbit] using h

/-- Legacy bits exist, so the status keeps them. -/
theorem legacyBits_valid : bits &&& validBits cfg = bits := by
  apply BitVec.eq_of_getLsbD_eq
  intro i hi
  cases hbit : bits.getLsbD i with
  | false => simp [hbit]
  | true => simp [hbit, legacyMask_of_legacyBit hsubset hi hbit]

end legacy

theorem writeReg_serStLegacy_serSt {s : State} {bits : Word} (hsubset : bits &&& ~~~s.cfg.legacyMask = 0#32) :
    (writeReg (.serStLegacy bits) s).serSt = s.serSt ||| bits := by
  show ((s.ser.st ||| bits) &&& validBits s.cfg) &&& validBits s.cfg = s.ser.st &&& validBits s.cfg ||| bits
  conv_rhs => rw [← legacyBits_valid hsubset]
  rw [BitVec.and_assoc, BitVec.and_self]
  apply BitVec.eq_of_getLsbD_eq
  intro i _
  simp only [BitVec.getLsbD_and, BitVec.getLsbD_or, Bool.and_or_distrib_right]

/-- A raised legacy bit asserts the shared line where the legacy bits are enabled. -/
theorem or_legacyBits_and_ne_zero {cfg : Config} {bits ie : Word} (hne : bits ≠ 0#32)
    (hsubset : bits &&& ~~~cfg.legacyMask = 0#32) (hie : ie &&& cfg.legacyMask = cfg.legacyMask) (st : Word) :
    (st ||| bits) &&& ie ≠ 0#32 := by
  intro hzero
  refine hne (BitVec.eq_of_getLsbD_eq fun i hi => ?_)
  have hline := congrArg (·.getLsbD i) hzero
  have henabled := congrArg (·.getLsbD i) hie
  cases hbit : bits.getLsbD i with
  | false => simp
  | true =>
    have hmask := legacyMask_of_legacyBit hsubset hi hbit
    have hieBit : ie.getLsbD i = true := by simpa [hmask] using henabled
    simp [hbit, hieBit] at hline

/-- Settles O53: the raised bits are bits of SER_ST that exist, and with their enables they assert the line. -/
theorem legacyRaiseSetsItsBits : Obligations.LegacyRaiseSetsItsBits := by
  intro s bits hne hsubset
  have hst := writeReg_serStLegacy_serSt hsubset
  refine ⟨_, exec_legacyRaise_typed (by simp [legacyTyped, hne, hsubset]), hst, rfl, fun hlegacy => ?_, rfl, rfl,
    fun _ => rfl, rfl, rfl, ⟨rfl, rfl, rfl⟩, ⟨fun _ => rfl, rfl, rfl⟩, rfl, fun _ => rfl, rfl⟩
  rw [State.serIrqLine, hst, decide_eq_true_eq]
  exact or_legacyBits_and_ne_zero hne hsubset hlegacy _

end Sys2Proof.Machine
end

section
/-! The two engines side by side (60_exceptions R291, R300): an operation of one leaves the other's side, and an NMI step commutes with
the operations of the FIFO engine. Each is a change of its own side of `s.unrecorded`, put beside whatever `s` has of the other side and
has recorded (`liftG`, `liftF`); from the states between them both orders are therefore the same two changes. -/

namespace Sys2Proof.Machine

/-! ### The frame of an operation (R300) -/

/-- No operation writes a parameter, memory or the schedule. -/
theorem exec_world {i : Instr} {s t : State} (h : exec i s = .next t) :
    t.cfg = s.cfg ∧ t.mem = s.mem ∧ t.schedule = s.schedule := by
  obtain ⟨hcfg, hmem⟩ := (exec_path h).cfg_mem
  exact ⟨hcfg, hmem, (exec_path h).historyGrows.schedule⟩

/-- Settles O22: the operations of an engine are paths of that engine's primitives, which leave the other side. -/
theorem enginesTouchDisjointState : Obligations.EnginesTouchDisjointState := by
  intro i s t h
  obtain ⟨hcfg, hmem, hschedule⟩ := exec_world h
  refine ⟨fun hi => ?gpio, fun hi => ?fifo, hcfg, fun a => by rw [hmem], hschedule⟩
  case gpio =>
    have hgpio : ofGpio i = true := by split at hi <;> [rfl; rfl; rfl; rfl; rfl; rfl; exact hi.elim]
    exact (exec_path_gpio hgpio h).gpio_sameFifoSide.2
  case fifo =>
    have hfifo : ofFifo i = true := by split at hi <;> [rfl; rfl; rfl; rfl; rfl; rfl; rfl; rfl; exact hi.elim]
    exact (exec_path_fifo hfifo h).fifo_sameGpioSide.2

/-! ### An operation beside the other side of the state -/

/-- `s` before anything was recorded in HIST or FAULTS. -/
def State.unrecorded (s : State) : State := { s with hist := [], faults := [] }

theorem liftF_unrecorded (s : State) : liftF s s.unrecorded = s := by
  simp [liftF, State.unrecorded, joinFaults]

theorem liftG_unrecorded (s : State) : liftG s s.unrecorded = s := by
  simp [liftG, State.unrecorded, joinFaults]

theorem mapNext_eq_next {f : State → State} {o : Host.Outcome State Fault Refusal} {t : State}
    (h : mapNext f o = .next t) : ∃ a, o = .next a ∧ f a = t := by
  cases o with
  | next a => cases h; exact ⟨a, rfl, rfl⟩
  | fault => cases h
  | refused => cases h

/-- An NMI step, as its change of the GPIO side beside any FIFO side `g`. -/
theorem gpioNmi_of_liftG {g s t : State} (h : exec .gpioNmi (liftG g s) = .next t) :
    ∃ a, exec .gpioNmi s = .next a ∧ liftG g a = t :=
  mapNext_eq_next ((execGpioNmi_liftG g s).symm.trans h)

/-- An operation of the FIFO engine, as its change of the FIFO side beside any GPIO side `g`. -/
theorem fifo_of_liftF {i : Instr} (hi : ofFifo i = true) {g s t : State} (h : exec i (liftF g s) = .next t) :
    ∃ b, exec i s = .next b ∧ liftF g b = t :=
  mapNext_eq_next ((exec_liftF g s hi).symm.trans h)

/-- After a change `a` of the GPIO side, `s` has only another GPIO side and record. -/
theorem liftF_liftG_unrecorded {s a : State} (hcfg : a.cfg = s.cfg) (hmem : a.mem = s.mem)
    (hschedule : a.schedule = s.schedule) : liftF (liftG s a) s.unrecorded = liftG s a := by
  simp [liftF, liftG, State.unrecorded, joinFaults, hcfg, hmem, hschedule]

/-- After a change `b` of the FIFO side, `s` has only another FIFO side and record. -/
theorem liftG_liftF_unrecorded {s b : State} (hcfg : b.cfg = s.cfg) (hmem : b.mem = s.mem)
    (hschedule : b.schedule = s.schedule) : liftG (liftF s b) s.unrecorded = liftF s b := by
  simp [liftF, liftG, State.unrecorded, joinFaults, hcfg, hmem, hschedule]

/-- A change `a` of the GPIO side and a change `b` of the FIFO side, in either order: the record alone tells them apart. -/
theorem liftF_liftG_comm {s a b : State} (hcfg : b.cfg = a.cfg) (hmem : b.mem = a.mem) (hschedule : b.schedule = a.schedule) :
    (liftF (liftG s a) b).unrecorded = (liftG (liftF s b) a).unrecorded ∧
      (liftF (liftG s a) b).hist.Perm (liftG (liftF s b) a).hist ∧
      ∀ r, r ∈ (liftF (liftG s a) b).faults ↔ r ∈ (liftG (liftF s b) a).faults := by
  refine ⟨?state, ?events, fun r => ?records⟩
  case state => simp [liftF, liftG, State.unrecorded, hcfg, hmem, hschedule]
  case events =>
    show ((s.hist ++ a.hist) ++ b.hist).Perm ((s.hist ++ b.hist) ++ a.hist)
    rw [List.append_assoc, List.append_assoc]
    exact List.perm_append_comm.append_left s.hist
  case records =>
    show r ∈ joinFaults (joinFaults s.faults a.faults) b.faults ↔ r ∈ joinFaults (joinFaults s.faults b.faults) a.faults
    simp only [mem_joinFaults, or_right_comm]

/-- Settles O23: from `s.unrecorded` the NMI step makes a change `a` and the other operation a change `b`, in both orders. -/
theorem nmiCommutesWithTheFifoEngine : Obligations.NmiCommutesWithTheFifoEngine := by
  intro i s t u v w hi ht hu hv hw
  have hfifo : ofFifo i = true := by split at hi <;> [rfl; rfl; rfl; rfl; rfl; rfl; rfl; rfl; exact hi.elim]
  obtain ⟨a, ha, rfl⟩ := gpioNmi_of_liftG ((liftG_unrecorded s).symm ▸ ht)
  obtain ⟨b, hb, rfl⟩ := fifo_of_liftF hfifo ((liftF_unrecorded s).symm ▸ hv)
  obtain ⟨acfg, amem, aschedule⟩ := exec_world ha
  obtain ⟨bcfg, bmem, bschedule⟩ := exec_world hb
  rw [← liftF_liftG_unrecorded (s := s) acfg amem aschedule] at hu
  rw [← liftG_liftF_unrecorded (s := s) bcfg bmem bschedule] at hw
  obtain ⟨b', hb', rfl⟩ := fifo_of_liftF hfifo hu
  obtain ⟨a', ha', rfl⟩ := gpioNmi_of_liftG hw
  cases ha.symm.trans ha'
  cases hb.symm.trans hb'
  exact liftF_liftG_comm (bcfg.trans acfg.symm) (bmem.trans amem.symm) (bschedule.trans aschedule.symm)

end Sys2Proof.Machine
end

section
/-! Who may step (60_exceptions R270, R290): a halted agent does not, and an agent below a level whose step is enabled waits. -/

namespace Sys2Proof.Machine

/-! ### Halted and enabled (log 13) -/

theorem halted_iff {s : State} {a : Agent} : s.halted a = true ↔ ∃ k, (⟨a, k⟩ : FaultRecord) ∈ s.faults := by
  simp only [State.halted, List.any_eq_true, beq_iff_eq]
  constructor
  · rintro ⟨⟨_, k⟩, hr, rfl⟩
    exact ⟨k, hr⟩
  · rintro ⟨k, hr⟩
    exact ⟨_, hr, rfl⟩

theorem halted_eq_false_iff {s : State} {a : Agent} : s.halted a = false ↔ ∀ k, (⟨a, k⟩ : FaultRecord) ∉ s.faults := by
  rw [← Bool.not_eq_true, halted_iff, not_exists]

theorem hasStep_iff {o : Host.Outcome State Fault Refusal} : hasStep o = true ↔ ∃ t, o = .next t := by
  cases o <;> simp [hasStep]

theorem nmiEnabled_iff {s : State} :
    nmiEnabled s = true ↔ (∃ t, exec .gpioNmi s = .next t) ∧ ∀ k, (⟨.nmiHandler, k⟩ : FaultRecord) ∉ s.faults := by
  rw [nmiEnabled, Bool.and_eq_true, hasStep_iff, Bool.not_eq_true', halted_eq_false_iff]
  rfl

theorem irqEnabled_iff {s : State} :
    irqEnabled s = true ↔ (∃ t, exec .serIrq s = .next t) ∧ ∀ k, (⟨.serHandler, k⟩ : FaultRecord) ∉ s.faults := by
  rw [irqEnabled, Bool.and_eq_true, hasStep_iff, Bool.not_eq_true', halted_eq_false_iff]
  rfl

theorem held_iff {s : State} {a : Agent} : held s a = true ↔
    (nmiEnabled s = true ∧ (a = .host ∨ a = .serHandler)) ∨ (irqEnabled s = true ∧ a = .host) := by
  cases a <;> simp [held]

/-! ### What an entry is refused for -/

theorem fifoAccepted_ne_refused (c buf len : Nat) (s : State) (r : Refusal) : fifoAccepted c buf len s ≠ .refused r := by
  unfold fifoAccepted
  dsimp only
  split
  · nofun
  · split <;> nofun

theorem execFifoSend_ne_refused (c buf len : Nat) (s : State) (r : Refusal) : execFifoSend c buf len s ≠ .refused r := by
  rcases execFifoSend_cases c buf len s with ⟨_, he⟩ | he | ⟨-, he⟩ <;> rw [he]
  · nofun
  · nofun
  · exact fifoAccepted_ne_refused c buf len s r

theorem execFifoFill_ne_refused (c : Nat) (s : State) (r : Refusal) : execFifoFill c s ≠ .refused r := by
  unfold execFifoFill
  split <;> nofun

/-- A guarded step whose routine is never refused is refused for its guard alone. -/
theorem eq_guardFalse_of_guarded {b : Bool} {o : Host.Outcome State Fault Refusal} {a : Agent} {r : Refusal}
    (ho : ∀ r, o ≠ .refused r) (h : (if b = true then o else .refused (.guardFalse a)) = .refused r) : r = .guardFalse a := by
  split at h
  · exact absurd h (ho r)
  · cases h; rfl

/-- An operation without a next state or a fault is one of the guarded steps with its guard false (log 12). -/
theorem exec_refused {i : Instr} {s : State} {r : Refusal} (h : exec i s = .refused r) : ∃ a, r = .guardFalse a := by
  cases i with
  | gpioNmi => exact ⟨_, eq_guardFalse_of_guarded (gpioNmi_ne_refused s) h⟩
  | tmrExpire => exact ⟨_, eq_guardFalse_of_guarded (o := .next (tmrExpire s)) nofun h⟩
  | serIrq => exact ⟨_, eq_guardFalse_of_guarded (serIrq_ne_refused s) h⟩
  | serDrain => exact ⟨_, eq_guardFalse_of_guarded (o := .next (serDrain s)) nofun h⟩
  | fifoSend c buf len => exact absurd h (execFifoSend_ne_refused c buf len s r)
  | fifoFill c => exact absurd h (execFifoFill_ne_refused c s r)
  | _ => cases h

theorem admission_ne_heldByPriority (a b : Agent) (i : Instr) : admission a i ≠ .noStep (.heldByPriority b) := by
  unfold admission
  split
  · nofun
  · split <;> nofun

/-- Of an agent that has not faulted, exactly the entries that are held are refused so. -/
theorem perform_heldByPriority_iff {e : Entry} {s : State} (hh : s.halted e.agent = false) :
    perform e s = .refused (.heldByPriority e.agent) ↔ held s e.agent = true := by
  unfold perform
  rw [hh, if_neg Bool.false_ne_true]
  refine ⟨fun h => ?_, fun h => if_pos h⟩
  split at h
  · assumption
  split at h
  · cases h
  split at h
  · obtain ⟨a, ha⟩ := exec_refused h
    cases ha
  · cases h
  · cases h
    exact absurd ‹_› (admission_ne_heldByPriority _ _ _)

/-! ### The obligations -/

/-- Settles O10, by `held_iff` with each level's step enabled as the statement reads it. -/
theorem higherLevelsHoldLowerLevels : Obligations.HigherLevelsHoldLowerLevels := by
  intro s e rest hs hfaults nmi irq
  have hh : State.halted { s with schedule := rest } e.agent = false := halted_eq_false_iff.mpr hfaults
  rw [step_of_schedule hs, perform_heldByPriority_iff hh, held_iff, nmiEnabled_iff, irqEnabled_iff]

/-- Settles O11: `perform` looks first at whether the agent has faulted. -/
theorem haltedAgentTakesNoStep : Obligations.HaltedAgentTakesNoStep := by
  intro s e rest k hs hk
  have hh : State.halted { s with schedule := rest } e.agent = true := halted_iff.mpr ⟨k, hk⟩
  rw [step_of_schedule hs, perform, if_pos hh]

end Sys2Proof.Machine
end

section
/-! The refusals of the driver interface (60_exceptions R271, R281 to R284): an init of an inited context or in an unsupported
configuration, a send or is_sending on a context that is not inited, and a send with a bad buffer. -/

namespace Sys2Proof.Machine

/-! ### Init (R281, R283) -/

section init
variable {s : State} {c : Nat}

theorem exec_gpioInit_reInit (k d : Nat) (o : Order) (hc : (s.gpioCtx c).inited = true) :
    exec (.gpioInit c k d o) s = .next (refuse .reInit s) := by
  simp [exec, execGpioInit, gpioInit, hc]

theorem exec_fifoInit_reInit (g : Nat) (o : Order) (hc : (s.fifoCtx c).inited = true) :
    exec (.fifoInit c g o) s = .next (refuse .reInit s) := by
  simp [exec, execFifoInit, fifoInit, hc]

theorem exec_gpioInit_unsupported {k d : Nat} (o : Order) (hc : (s.gpioCtx c).inited = false)
    (h : admissible s.cfg = false ∨ k = d) : exec (.gpioInit c k d o) s = .next (refuse .unsupportedConfig s) := by
  rcases h with h | h <;> simp [exec, execGpioInit, gpioInit, hc, h]

theorem exec_fifoInit_unsupported (g : Nat) {o : Order} (hc : (s.fifoCtx c).inited = false)
    (h : admissible s.cfg = false ∨ o = .lsb) : exec (.fifoInit c g o) s = .next (refuse .unsupportedConfig s) := by
  rcases h with h | h <;> simp [exec, execFifoInit, fifoInit, hc, h]

end init

/-- An admissible configuration has what 00_scope R8 asks of the depth of the FIFO and of the clocks. -/
theorem admissible_depth_clock {cfg : Config} (h : admissible cfg = true) : cfg.clkHz % cfg.timerDiv = 0 ∧
    2 ≤ cfg.fifoDepth ∧ cfg.lowWatermark < cfg.fifoDepth ∧ cfg.advanceFrames < cfg.fifoDepth := by
  simp only [admissible, Bool.and_eq_true, beq_iff_eq, decide_eq_true_eq] at h
  omega

/-- Settles O26, by `exec_gpioInit_reInit` and `exec_fifoInit_reInit`. -/
theorem initOfAnInitedContextIsRefused : Obligations.InitOfAnInitedContextIsRefused :=
  fun _ _ => ⟨fun hc k d o => exec_gpioInit_reInit k d o hc, fun hc g o => exec_fifoInit_reInit g o hc⟩

/-- Settles O27: a configuration that breaks R8 is not admissible, which an init checks next. -/
theorem unsupportedConfigurationIsRefused : Obligations.UnsupportedConfigurationIsRefused := by
  intro s c breaks
  have hadm : breaks → admissible s.cfg = false := by
    intro hbreaks
    by_contra hadm
    rw [Bool.not_eq_false] at hadm
    have hbpp := admissible_bpp hadm
    have hdepth := admissible_depth_clock hadm
    omega
  exact ⟨fun hc k d o h => exec_gpioInit_unsupported o hc (h.imp_left hadm),
    fun hc g o h => exec_fifoInit_unsupported g hc (h.imp_left hadm)⟩

/-! ### Sends (R282, R284) -/

/-- Settles O31: a typed send and is_sending next look at whether the context is inited. -/
theorem uninitialisedContextIsRefused : Obligations.UninitialisedContextIsRefused := by
  intro s c buf len haddr hlen
  exact ⟨fun hc => ⟨exec_gpioSend_uninitialised (sendTyped_of haddr hlen) hc, exec_gpioIsSending_uninitialised hc⟩,
    fun hc => ⟨exec_fifoSend_uninitialised (sendTyped_of haddr hlen) hc, exec_fifoIsSending_uninitialised hc⟩⟩

section send
variable {s : State} {c buf len : Nat} (htyped : sendTyped s.cfg buf len = true) (hlen : 0 < len)
include htyped hlen

theorem exec_gpioSend_badBuffer (hc : (s.gpioCtx c).inited = true) (hidle : (s.gpioCtx c).state = .idle)
    (hbuf : gpioBufferOk s.cfg buf len = false) : exec (.gpioSend c buf len) s = .next (refuse .badBuffer s) := by
  simp [exec, execGpioSend, gpioSend, GpioCtx.isSending, htyped, hc, hidle, hbuf, show len ≠ 0 by omega]

theorem exec_fifoSend_badBuffer (hc : (s.fifoCtx c).inited = true) (hidle : (s.fifoCtx c).state = .idle)
    (hbuf : fifoBufferOk s.cfg buf len = false) : exec (.fifoSend c buf len) s = .next (refuse .badBuffer s) := by
  simp [exec, execFifoSend, FifoCtx.isSending, htyped, hc, hidle, hbuf, show len ≠ 0 by omega]

end send

theorem gpioBufferOk_eq_false {cfg : Config} {buf len : Nat} :
    gpioBufferOk cfg buf len = false ↔ buf % 4 ≠ 0 ∨ 2 ^ cfg.addrBits < buf + 4 * len := by
  rw [← Bool.not_eq_true, gpioBufferOk_iff, not_and_or, not_le]

theorem fifoBufferOk_eq_false {cfg : Config} {buf len : Nat} : fifoBufferOk cfg buf len = false ↔
    buf % 4 ≠ 0 ∨ 2 ^ cfg.addrBits < buf + 4 * len ∨ 2 ^ 32 ≤ len * (cfg.bpp / 8) := by
  rw [← Bool.not_eq_true, fifoBufferOk_iff, not_and_or, not_and_or, not_le, not_lt, or_assoc]

/-- Settles O32: these are the buffers that fail the check. -/
theorem badBufferIsRefused : Obligations.BadBufferIsRefused := by
  intro s c buf len haddr hlen32 hlen
  have htyped := sendTyped_of haddr hlen32
  exact ⟨fun hc hidle h => exec_gpioSend_badBuffer htyped hlen hc hidle (gpioBufferOk_eq_false.mpr h),
    fun hc hidle h => exec_fifoSend_badBuffer htyped hlen hc hidle (fifoBufferOk_eq_false.mpr h)⟩

end Sys2Proof.Machine
end

section
/-! Power-on (70_reset_and_hazards R310): what an instance holds before its first step, and that the invariants hold of it. No context
is listed then, so every context is as its table's default has it. -/

namespace Sys2Proof.Machine

/-! ### The power-on values -/

section powerOn
variable (cfg : Config)

theorem powerOn_uninited (c : Nat) :
    ((State.powerOn cfg).gpioCtx c).inited = false ∧ ((State.powerOn cfg).fifoCtx c).inited = false := ⟨rfl, rfl⟩

/-- The configured order (R24): LSB for exactly the contexts that the configuration lists (log 28). -/
theorem gpioOrder_eq (c : Nat) : cfg.gpioOrder c = if c ∈ cfg.gpioLsb then .lsb else .msb := by
  simp only [Config.gpioOrder, List.contains_iff_mem]

/-- A context before init fits its fields: all its numbers are 0. -/
theorem gpioPowerOn_fits (o : Order) : (GpioCtx.powerOn o).Fits cfg :=
  ⟨Nat.two_pow_pos _, Nat.two_pow_pos _, Nat.two_pow_pos _⟩

theorem fifoPowerOn_fits : FifoCtx.powerOn.Fits cfg :=
  ⟨Nat.two_pow_pos _, Nat.two_pow_pos _, Nat.two_pow_pos _, Nat.two_pow_pos _, Nat.two_pow_pos _⟩

/-- `SER_IE` at power-on is all of the legacy mask or nothing (R34). -/
theorem powerOn_legacyEnables : (State.powerOn cfg).ser.LegacyEnables (State.powerOn cfg).cfg := by
  cases hie : cfg.legacyIe <;> simp [Ser.LegacyEnables, State.powerOn, Ser.powerOn, hie]

/-! ### The invariants -/

theorem powerOn_canonical : Canonical (State.powerOn cfg) := ⟨rfl, rfl, rfl⟩

/-- Nothing is recorded yet, and nothing of the control registers has changed. -/
theorem powerOn_historyComplete : HistoryComplete (State.powerOn cfg) := rfl

theorem powerOn_gpioInv : GpioInv (State.powerOn cfg) :=
  .of_detached (capacity := List.length_replicate) (handler := rfl) (inited := fun c => (powerOn_uninited cfg c).1)
    (widths := fun c => gpioPowerOn_fits cfg (cfg.gpioOrder c)) (load := Nat.two_pow_pos _)

theorem powerOn_fifoInv : FifoInv (State.powerOn cfg) :=
  .of_detached (capacity := List.length_replicate) (handler := rfl) (inited := fun c => (powerOn_uninited cfg c).2)
    (widths := fun _ => fifoPowerOn_fits cfg) (legacy := powerOn_legacyEnables cfg)

theorem powerOn_invariants : Canonical (State.powerOn cfg) ∧ HistoryComplete (State.powerOn cfg) ∧
    GpioInv (State.powerOn cfg) ∧ FifoInv (State.powerOn cfg) :=
  ⟨powerOn_canonical cfg, powerOn_historyComplete cfg, powerOn_gpioInv cfg, powerOn_fifoInv cfg⟩

end powerOn

/-! ### The obligations -/

/-- Settles O20: with no context inited and no handler attached, both engines' invariants ask only for the registries' sizes, the
widths and the legacy enables. Reset is the power-on of one instance. -/
theorem powerOnMeetsTheInvariants : Obligations.PowerOnMeetsTheInvariants :=
  ⟨powerOn_invariants, powerOn_invariants Config.common⟩

/-- Settles O21: the orders are the configured ones by `gpioOrder_eq`, the legacy enables by `powerOn_legacyEnables`. -/
theorem powerOnHasTheSpecifiedValues : Obligations.PowerOnHasTheSpecifiedValues := by
  intro cfg
  have order (c : Nat) : ((State.powerOn cfg).gpioCtx c).order = (if c ∈ cfg.gpioLsb then .lsb else .msb) ∧
      ((State.powerOn cfg).fifoCtx c).order = .msb :=
    ⟨gpioOrder_eq cfg c, rfl⟩
  exact ⟨rfl, rfl, rfl, powerOn_uninited cfg, order, rfl, rfl, legacyEnables_iff.mp (powerOn_legacyEnables cfg), rfl, rfl, rfl⟩

end Sys2Proof.Machine
end
